-- ==== Sys2Proof/Word.lean ====
section
/-! DEFINITION. The fixed-width words of the Voima spec (00_scope R11): byte, halfword, instruction word, longword,
and the 4-bit register number. The width of a general register is the parameter XLEN (Config.lean). -/

namespace Sys2Proof

/-- "byte": 8 bits (00_scope R11). -/
abbrev Byte := BitVec 8

/-- "halfword": 16 bits; also the width of `imm16` (00_scope R11, 30_encoding R81). -/
abbrev Halfword := BitVec 16

/-- The 32-bit instruction word, and the 32-bit extension word `imm32` (30_encoding R80, R85). -/
abbrev InstrWord := BitVec 32

/-- "longword": 64 bits, the extension data of LDL (00_scope R11, 30_encoding R86). -/
abbrev Longword := BitVec 64

/-- A 4-bit register number, general or system: `dst`, `src`, `ofsreg` or the return register (10_state R20, R30). -/
abbrev RegNum := BitVec 4

end Sys2Proof
end

