-- ==== Sys2Proof/Config.lean ====
section
/-! DEFINITION. The implementation parameters of 00_scope R5, as plain data that State carries (log 1), their
defaults, and the one free value of the model (43_arithmetic R160, log 7). -/

namespace Sys2Proof

/-- XLEN, the width of a general register, a system register, the pc, an address and a memory-word: 32 or 64
(00_scope R5, D1). -/
inductive Xlen where
  | x32
  | x64
  deriving DecidableEq, Repr

/-- The width in bits, `W` of the spec's pseudocode (00_scope R6, R8). -/
def Xlen.bits : Xlen → Nat
  | .x32 => 32
  | .x64 => 64

/-- ENDIAN, the byte order of data and of instruction fetch (00_scope R5, 20_memory R51, D4). -/
inductive Endian where
  | little
  | big
  deriving DecidableEq, Repr

/-- A run of populated byte addresses `base`, …, `base + size - 1`. -/
structure Region where
  base : Nat
  size : Nat
  deriving DecidableEq, Repr

/-- Whether the byte address `a` lies in the region. -/
def Region.contains (r : Region) (a : Nat) : Bool :=
  decide (r.base ≤ a) && decide (a < r.base + r.size)

/-- The parameters of 00_scope R5 other than XLEN, for a machine of register width `W`. -/
structure Params (W : Nat) where
  /-- MSW_INDEX: the system-register number of MSW (R5, 10_state R30). -/
  mswIndex : RegNum
  /-- ENDIAN (R5, 20_memory R51). -/
  endian : Endian
  /-- LDL_ALIGN: the longword of LDL stands at the next 8-byte boundary (R5, 30_encoding R86). -/
  ldlAlign : Bool
  /-- STRICT_RESERVED: a non-zero never-used bit or N/A field is an illegal instruction (R5, 30_encoding R97). -/
  strictReserved : Bool
  /-- RESET_PC: pc after reset (R5, 70_reset R300). -/
  resetPc : BitVec W
  /-- END_PC: the address at which a run ends, or none (R5, 70_reset R306). -/
  endPc : Option (BitVec W)
  /-- MEM_VALID: the addresses that hold memory (R5, 20_memory R50). -/
  memValid : List Region
  deriving DecidableEq, Repr

/-- The values R5 admits: RESET_PC and END_PC are multiples of 4. -/
def Params.wf {W : Nat} (p : Params W) : Bool :=
  decide (p.resetPc.toNat % 4 = 0) &&
    match p.endPc with
    | none => true
    | some e => decide (e.toNat % 4 = 0)

/-- Whether byte address `a` is in MEM_VALID (20_memory R50). -/
def Params.valid {W : Nat} (p : Params W) (a : Nat) : Bool :=
  p.memValid.any (fun r => r.contains a)

/-- The defaults of R5. DESIGN CHOICE (log 2, unsafe): R5 leaves MEM_VALID to the platform; here every address holds
memory. -/
def Params.default (W : Nat) : Params W where
  mswIndex := 0#4
  endian := .little
  ldlAlign := true
  strictReserved := true
  resetPc := 0#W
  endPc := none
  memValid := [⟨0, 2 ^ W⟩]

/-- FREE VALUE (log 7): the n-th flag value that the spec leaves unspecified, for CF and OF after MHI, DIV and REM with
M = 1: "each of CF and OF becomes 0 or 1, and a model must not assume which" (43_arithmetic R160). It has no body:
nothing can be proved of its value. State counts the draws. -/
opaque Config.freeFlag : Nat → Bool

end Sys2Proof
end

