-- ==== Sys2Proof/Syntax.lean ====
section
/-! DEFINITION. The instructions of Voima: one constructor per row of spec/opcode_table.json (30_encoding R101), with
their operand forms. A field that its gate bit switches off is not part of the instruction (30_encoding R92: "A field in
brackets is read only when its gate bit is 1 and is ignored otherwise"). -/

namespace Sys2Proof

/-- The shift count of op 1 and the bit position of op 6: a register when the C-bit or B-bit is 0, `imm16[5:0]` when it
is 1 (41_shift_rotate R130, R131; 46_bit_manipulation R195, R197). -/
inductive Count where
  | reg (src : RegNum)
  | imm (n : BitVec 6)
  deriving DecidableEq, Repr

/-- The M-bit (write CF and OF) and the U-bit (unsigned operation) of op 3 (43_arithmetic R150). -/
structure ArithBits where
  M : Bool
  U : Bool
  deriving DecidableEq, Repr

/-- The parts of the effective address of LEA and of the memory-form loads, each present when its bit R, O or A is 1
(30_encoding R94). The shift of the offset register stands apart, since op 5 and op 8 gate it differently. -/
structure AddrOperand where
  base : Option RegNum
  ofs : Option RegNum
  disp : Option (BitVec 32)
  deriving DecidableEq, Repr

/-- What makes a memory-form load an LDR: a cache bit, or a shift count for the offset register (47_loads R215). -/
inductive LdrMode where
  | cached (l1 l2 : Bool)
  | scaled (count : BitVec 4)
  deriving DecidableEq, Repr

/-- The three forms of LDX (47_loads R228). -/
inductive LdxForm where
  /-- SS = 1, D = 0: system register `src` to general register `dst`. -/
  | sysToReg (src dst : RegNum)
  /-- SS = 1, D = 1: system register `src` to system register `dst`. -/
  | sysToSys (src dst : RegNum)
  /-- SS = 0, D = 1: memory to system register `dst`. -/
  | memToSys (addr : AddrOperand) (l1 l2 : Bool) (dst : RegNum)
  deriving DecidableEq, Repr

/-- The 44 instructions (00_scope R3, 30_encoding R101). -/
inductive Instr where
  -- op 0, logical (40_logical)
  | not (dst : RegNum)
  | or (dst src : RegNum)
  | and (dst src : RegNum)
  | xor (dst src : RegNum)
  | nor (dst src : RegNum)
  | xnor (dst src : RegNum)
  | nand (dst src : RegNum)
  -- op 1, shift and rotate (41_shift_rotate)
  | sll (dst : RegNum) (count : Count)
  | srl (dst : RegNum) (count : Count)
  | sar (dst : RegNum) (count : Count)
  | rol (dst : RegNum) (count : Count)
  | ror (dst : RegNum) (count : Count)
  | rcl (dst : RegNum) (count : Count)
  | rcr (dst : RegNum) (count : Count)
  -- op 2, comparison (42_compare)
  | cmp (dst src : RegNum)
  -- op 3, arithmetic (43_arithmetic)
  | inc (dst src : RegNum) (mu : ArithBits)
  | dec (dst src : RegNum) (mu : ArithBits)
  | add (dst src : RegNum) (mu : ArithBits)
  | sub (dst src : RegNum) (mu : ArithBits)
  | mul (dst src : RegNum) (mu : ArithBits)
  | mhi (dst src : RegNum) (mu : ArithBits)
  | irp (dst src : RegNum) (mu : ArithBits)
  | div (dst src : RegNum) (mu : ArithBits)
  | rem (dst src : RegNum) (mu : ArithBits)
  -- op 4, bit operations (44_bit_operations)
  | bsf (dst src : RegNum)
  | bsr (dst src : RegNum)
  | ham (dst src : RegNum)
  | par (dst src : RegNum)
  | bex (dst src : RegNum)
  | bdp (dst src : RegNum)
  -- op 5, address calculation (45_lea)
  | lea (dst : RegNum) (addr : AddrOperand) (scale : Option (BitVec 4))
  -- op 6, bit manipulation in memory (46_bit_manipulation): `dst` holds the base address, `ret` receives the old word
  | bst (dst : RegNum) (pos : Count) (disp : Option (BitVec 32)) (ret : RegNum)
  | bcl (dst : RegNum) (pos : Count) (disp : Option (BitVec 32)) (ret : RegNum)
  | bfl (dst : RegNum) (pos : Count) (disp : Option (BitVec 32)) (ret : RegNum)
  | bts (dst : RegNum) (pos : Count) (disp : Option (BitVec 32)) (ret : RegNum)
  | btc (dst : RegNum) (pos : Count) (disp : Option (BitVec 32)) (ret : RegNum)
  | btf (dst : RegNum) (pos : Count) (disp : Option (BitVec 32)) (ret : RegNum)
  -- op 7 and op 8, loads (47_loads)
  | ldh (dst : RegNum) (halfword : Halfword)
  | ldb (dst : RegNum) (byte : Byte)
  | ldi (dst : RegNum) (imm32 : BitVec 32)
  | ldl (dst : RegNum) (imm64 : Longword)
  | lnt (dst : RegNum) (addr : AddrOperand)
  | ldr (dst : RegNum) (addr : AddrOperand) (mode : LdrMode)
  | ldx (form : LdxForm)
  deriving DecidableEq, Repr

end Sys2Proof
end

