-- ==== Sys2Proof/WellFormed.lean ====
section
/-! DEFINITION. Which instructions the encoding admits: the register ranges of 10_state R23 and the width conditions of
30_encoding R97 and R101, as one check that names what is wrong. -/

namespace Sys2Proof

/-- Why a term of `Instr` is no instruction of the spec. -/
inductive IllFormed where
  /-- `dst` is 0 where the table says "1-15" (30_encoding R97 item 2). -/
  | dstZero
  /-- The count or position register `src` is 0 with the C-bit or B-bit 0 (R97 item 2). -/
  | countRegZero
  /-- The base register `src` of a memory-form load is 0 with the R-bit 1 (R97 item 2). -/
  | baseZero
  /-- An immediate count or position of 32 or more at XLEN = 32 (R89, R97 item 4). -/
  | countTooWide
  /-- LDL at XLEN = 32 (R97 item 6). -/
  | longwordAt32
  /-- An LDR with neither cache bit nor shift: its word would be LNT's (47_loads R215). -/
  | noCacheBit
  deriving DecidableEq, Repr

/-- The range "1-15" of a destination field. -/
def checkDst (d : RegNum) : Except IllFormed Unit :=
  if d = 0#4 then .error .dstZero else .ok ()

/-- The conditions on a count or position (R97, R101: "C = 0 => src != 0; XLEN = 32 and C = 1 => imm16[5] = 0"). -/
def checkCount (x : Xlen) : Count → Except IllFormed Unit
  | .reg src => if src = 0#4 then .error .countRegZero else .ok ()
  | .imm n => if x = .x32 ∧ n.getLsbD 5 = true then .error .countTooWide else .ok ()

/-- The condition on the address of a memory-form load (R101: "R = 1 => src != 0"). -/
def checkAddr (a : AddrOperand) : Except IllFormed Unit :=
  if a.base = some 0#4 then .error .baseZero else .ok ()

/-- The conditions on a memory-form load into general register `d`. -/
def checkLoad (d : RegNum) (a : AddrOperand) : Except IllFormed Unit :=
  match checkDst d with
  | .error e => .error e
  | .ok () => checkAddr a

/-- The conditions on a shift or on a bit instruction: its `dst`, then its count or position. -/
def checkCounted (x : Xlen) (d : RegNum) (c : Count) : Except IllFormed Unit :=
  match checkDst d with
  | .error e => .error e
  | .ok () => checkCount x c

/-- The check of one instruction for a machine of width `x`. -/
def Instr.check (x : Xlen) : Instr → Except IllFormed Unit
  | .not d => checkDst d
  | .or d _ => checkDst d
  | .and d _ => checkDst d
  | .xor d _ => checkDst d
  | .nor d _ => checkDst d
  | .xnor d _ => checkDst d
  | .nand d _ => checkDst d
  | .sll d c => checkCounted x d c
  | .srl d c => checkCounted x d c
  | .sar d c => checkCounted x d c
  | .rol d c => checkCounted x d c
  | .ror d c => checkCounted x d c
  | .rcl d c => checkCounted x d c
  | .rcr d c => checkCounted x d c
  | .cmp d _ => checkDst d
  | .inc d _ _ => checkDst d
  | .dec d _ _ => checkDst d
  | .add d _ _ => checkDst d
  | .sub d _ _ => checkDst d
  | .mul d _ _ => checkDst d
  | .mhi d _ _ => checkDst d
  | .irp d _ _ => checkDst d
  | .div d _ _ => checkDst d
  | .rem d _ _ => checkDst d
  | .bsf d _ => checkDst d
  | .bsr d _ => checkDst d
  | .ham d _ => checkDst d
  | .par d _ => checkDst d
  | .bex d _ => checkDst d
  | .bdp d _ => checkDst d
  | .lea d _ _ => checkDst d
  | .bst d p _ _ => checkCounted x d p
  | .bcl d p _ _ => checkCounted x d p
  | .bfl d p _ _ => checkCounted x d p
  | .bts d p _ _ => checkCounted x d p
  | .btc d p _ _ => checkCounted x d p
  | .btf d p _ _ => checkCounted x d p
  | .ldh d _ => checkDst d
  | .ldb d _ => checkDst d
  | .ldi d _ => checkDst d
  | .ldl d _ => if x = .x32 then .error .longwordAt32 else checkDst d
  | .lnt d a => checkLoad d a
  | .ldr d a (.cached l1 l2) => if l1 = false ∧ l2 = false then .error .noCacheBit else checkLoad d a
  | .ldr d a (.scaled _) => checkLoad d a
  | .ldx (.sysToReg _ _) => .ok ()
  | .ldx (.sysToSys _ _) => .ok ()
  | .ldx (.memToSys a _ _ _) => checkAddr a

/-- An instruction that some word encodes on a machine of width `x`. -/
def WellFormed (x : Xlen) (i : Instr) : Prop :=
  i.check x = .ok ()

end Sys2Proof
end

