-- ==== Sys2Proof/Decode.lean ====
section
/-! DEFINITION. The decoder of 30_encoding R100 and, after it, the encoder written from the same layouts (R81, R92, R93,
R101). Decoding stands on its own in two parts, as in the machine: the instruction word decides the instruction and the
kind of its extension data (`decodeWord`, R265: an illegal word is refused before any extension word is fetched); the
extension data then fills the immediate (`Instr.withExt`). -/

namespace Sys2Proof

/-- Why a word, or a list of bytes, is no instruction (30_encoding R96, R97). The machine reports each of these, but for
`truncated`, as IllegalInstruction (60_exceptions R265). -/
inductive Reject where
  /-- `op` is 9 to 255 (R96). -/
  | reservedOp
  /-- The family's table does not assign the ID (R97 item 1). -/
  | reservedId
  /-- `dst = 0` where the table says "1-15" (R97 item 2). -/
  | dstZero
  /-- `src = 0` where the table says "1-15" and the instruction reads it (R97 item 2). -/
  | srcZero
  /-- A non-zero field marked "N/A" (R97 item 3). -/
  | notApplicable
  /-- A non-zero "must be 0" bit (R97 item 4). -/
  | mustBeZero
  /-- In op 8, more than one of I, B, L, or one of them with a bit its form does not use (R97 item 5). -/
  | loadBits
  /-- In op 8, a system or scaled form that 47_loads R215 does not list (R229). -/
  | loadForm
  /-- LDL at XLEN = 32 (R97 item 6). -/
  | longwordAt32
  /-- Fewer bytes than the instruction has. Only a list of bytes can be too short; memory never is. -/
  | truncated
  deriving DecidableEq, Repr

/-- The four fields of an instruction word (R81). -/
structure Fields where
  op : Byte
  dst : RegNum
  src : RegNum
  imm : Halfword
  deriving DecidableEq, Repr

/-- "op = w[7:0], dst = w[11:8], src = w[15:12], imm16 = w[31:16]" (R81). -/
def fieldsOf (w : InstrWord) : Fields where
  op := w.extractLsb' 0 8
  dst := w.extractLsb' 8 4
  src := w.extractLsb' 12 4
  imm := w.extractLsb' 16 16

/-- "w = imm16 ++ src ++ dst ++ op" (R81). -/
def wordOf (f : Fields) : InstrWord :=
  f.imm ++ f.src ++ f.dst ++ f.op

/-- The instruction ID `imm16[11:8]` (R83). -/
def idOf (i : Halfword) : BitVec 4 := i.extractLsb' 8 4

/-- The top nibble `imm16[15:12]`: a shift count, a return register, or must-be-zero bits (R92, R93). -/
def topOf (i : Halfword) : BitVec 4 := i.extractLsb' 12 4

/-- The low six bits `imm16[5:0]`: an immediate count or position (R92). -/
def low6Of (i : Halfword) : BitVec 6 := i.extractLsb' 0 6

/-- The low byte `imm16[7:0]` (R92). -/
def low8Of (i : Halfword) : Byte := i.extractLsb' 0 8

/-- The extension data of an instruction (R85, R86). -/
inductive ExtKind where
  | none
  | word
  | long
  deriving DecidableEq, Repr

/-- Which extension data an instruction has: `imm32` when its A-bit is set and for LDI, the longword for LDL (R85, R86). -/
def Instr.extKind : Instr → ExtKind
  | .lea _ a _ => if a.disp.isSome then .word else .none
  | .bst _ _ d _ => if d.isSome then .word else .none
  | .bcl _ _ d _ => if d.isSome then .word else .none
  | .bfl _ _ d _ => if d.isSome then .word else .none
  | .bts _ _ d _ => if d.isSome then .word else .none
  | .btc _ _ d _ => if d.isSome then .word else .none
  | .btf _ _ d _ => if d.isSome then .word else .none
  | .ldi _ _ => .word
  | .ldl _ _ => .long
  | .lnt _ a => if a.disp.isSome then .word else .none
  | .ldr _ a _ => if a.disp.isSome then .word else .none
  | .ldx (.memToSys a _ _ _) => if a.disp.isSome then .word else .none
  | .not _ | .or _ _ | .and _ _ | .xor _ _ | .nor _ _ | .xnor _ _ | .nand _ _ => .none
  | .sll _ _ | .srl _ _ | .sar _ _ | .rol _ _ | .ror _ _ | .rcl _ _ | .rcr _ _ | .cmp _ _ => .none
  | .inc _ _ _ | .dec _ _ _ | .add _ _ _ | .sub _ _ _ | .mul _ _ _ | .mhi _ _ _ | .irp _ _ _ | .div _ _ _
  | .rem _ _ _ => .none
  | .bsf _ _ | .bsr _ _ | .ham _ _ | .par _ _ | .bex _ _ | .bdp _ _ => .none
  | .ldh _ _ | .ldb _ _ | .ldx (.sysToReg _ _) | .ldx (.sysToSys _ _) => .none

/-- An `imm32` operand, when there is one, replaced by the extension word. -/
def fillDisp (d : Option (BitVec 32)) (e : Longword) : Option (BitVec 32) :=
  d.map (fun _ => e.setWidth 32)

/-- The instruction with its extension data filled in: `imm32` is the low word of `e`, `imm64` all of it. -/
def Instr.withExt (e : Longword) (i : Instr) : Instr :=
  match i with
  | .lea d a s => .lea d { a with disp := fillDisp a.disp e } s
  | .bst d p o r => .bst d p (fillDisp o e) r
  | .bcl d p o r => .bcl d p (fillDisp o e) r
  | .bfl d p o r => .bfl d p (fillDisp o e) r
  | .bts d p o r => .bts d p (fillDisp o e) r
  | .btc d p o r => .btc d p (fillDisp o e) r
  | .btf d p o r => .btf d p (fillDisp o e) r
  | .ldi d _ => .ldi d (e.setWidth 32)
  | .ldl d _ => .ldl d e
  | .lnt d a => .lnt d { a with disp := fillDisp a.disp e }
  | .ldr d a m => .ldr d { a with disp := fillDisp a.disp e } m
  | .ldx (.memToSys a l1 l2 d) => .ldx (.memToSys { a with disp := fillDisp a.disp e } l1 l2 d)
  | .not _ | .or _ _ | .and _ _ | .xor _ _ | .nor _ _ | .xnor _ _ | .nand _ _ => i
  | .sll _ _ | .srl _ _ | .sar _ _ | .rol _ _ | .ror _ _ | .rcl _ _ | .rcr _ _ | .cmp _ _ => i
  | .inc _ _ _ | .dec _ _ _ | .add _ _ _ | .sub _ _ _ | .mul _ _ _ | .mhi _ _ _ | .irp _ _ _ | .div _ _ _
  | .rem _ _ _ => i
  | .bsf _ _ | .bsr _ _ | .ham _ _ | .par _ _ | .bex _ _ | .bdp _ _ => i
  | .ldh _ _ | .ldb _ _ | .ldx (.sysToReg _ _) | .ldx (.sysToSys _ _) => i

/-- The extension data an instruction carries, `imm32` in the low word; 0 for an instruction with none. -/
def Instr.extValue : Instr → Longword
  | .lea _ a _ => (a.disp.getD 0#32).setWidth 64
  | .bst _ _ o _ => (o.getD 0#32).setWidth 64
  | .bcl _ _ o _ => (o.getD 0#32).setWidth 64
  | .bfl _ _ o _ => (o.getD 0#32).setWidth 64
  | .bts _ _ o _ => (o.getD 0#32).setWidth 64
  | .btc _ _ o _ => (o.getD 0#32).setWidth 64
  | .btf _ _ o _ => (o.getD 0#32).setWidth 64
  | .ldi _ v => v.setWidth 64
  | .ldl _ v => v
  | .lnt _ a => (a.disp.getD 0#32).setWidth 64
  | .ldr _ a _ => (a.disp.getD 0#32).setWidth 64
  | .ldx (.memToSys a _ _ _) => (a.disp.getD 0#32).setWidth 64
  | .not _ | .or _ _ | .and _ _ | .xor _ _ | .nor _ _ | .xnor _ _ | .nand _ _ => 0#64
  | .sll _ _ | .srl _ _ | .sar _ _ | .rol _ _ | .ror _ _ | .rcl _ _ | .rcr _ _ | .cmp _ _ => 0#64
  | .inc _ _ _ | .dec _ _ _ | .add _ _ _ | .sub _ _ _ | .mul _ _ _ | .mhi _ _ _ | .irp _ _ _ | .div _ _ _
  | .rem _ _ _ => 0#64
  | .bsf _ _ | .bsr _ _ | .ham _ _ | .par _ _ | .bex _ _ | .bdp _ _ => 0#64
  | .ldh _ _ | .ldb _ _ | .ldx (.sysToReg _ _) | .ldx (.sysToSys _ _) => 0#64

/-- The length in bytes: the instruction word and its extension data, with the pad word of LDL where there is one
(R88). -/
def Instr.len (pad : Bool) (i : Instr) : Nat :=
  match i.extKind with
  | .none => 4
  | .word => 8
  | .long => if pad then 16 else 12

/-- The count or position operand: the gate bit `imm16[6]` selects `imm16[5:0]` or the register `src` (R92, R97 items 2
and 4). At XLEN = 32 bit 5 must be 0; with STRICT_RESERVED = false it is ignored (log 11). -/
def decodeCount (x : Xlen) (strict : Bool) (f : Fields) : Except Reject Count :=
  if f.imm.getLsbD 6 then
    if x = .x32 then
      if strict ∧ f.imm.getLsbD 5 = true then .error .mustBeZero
      else .ok (.imm (low6Of f.imm &&& 0x1f#6))
    else .ok (.imm (low6Of f.imm))
  else if f.src = 0#4 then .error .srcZero
  else .ok (.reg f.src)

/-- The address parts of op 5 and op 8, by the bits R, O and A; `imm32` stands at 0 until it is filled in (R92 to R94). -/
def decodeAddr (f : Fields) : AddrOperand where
  base := if f.imm.getLsbD 4 then some f.src else none
  ofs := if f.imm.getLsbD 5 then some (f.imm.extractLsb' 0 4) else none
  disp := if f.imm.getLsbD 6 then some 0#32 else none

/-- The M- and U-bit of op 3 (R92). -/
def decodeArithBits (f : Fields) : ArithBits where
  M := f.imm.getLsbD 0
  U := f.imm.getLsbD 1

/-- Step 2 of R100: op 0. -/
def decodeLogical (strict : Bool) (f : Fields) : Except Reject Instr :=
  if strict ∧ (topOf f.imm ≠ 0#4 ∨ low8Of f.imm ≠ 0#8) then .error .mustBeZero
  else if f.dst = 0#4 then .error .dstZero
  else match (idOf f.imm).toNat with
    | 0 => if strict ∧ f.src ≠ 0#4 then .error .notApplicable else .ok (.not f.dst)
    | 1 => .ok (.or f.dst f.src)
    | 2 => .ok (.and f.dst f.src)
    | 3 => .ok (.xor f.dst f.src)
    | 4 => .ok (.nor f.dst f.src)
    | 5 => .ok (.xnor f.dst f.src)
    | 6 => .ok (.nand f.dst f.src)
    | _ => .error .reservedId

/-- Step 3 of R100: op 1. -/
def decodeShift (x : Xlen) (strict : Bool) (f : Fields) : Except Reject Instr :=
  if strict ∧ (topOf f.imm ≠ 0#4 ∨ f.imm.getLsbD 7 = true) then .error .mustBeZero
  else if f.dst = 0#4 then .error .dstZero
  else match decodeCount x strict f with
    | .error e => .error e
    | .ok c => match (idOf f.imm).toNat with
      | 0 => .ok (.sll f.dst c)
      | 1 => .ok (.srl f.dst c)
      | 2 => .ok (.sar f.dst c)
      | 3 => .ok (.rol f.dst c)
      | 4 => .ok (.ror f.dst c)
      | 5 => .ok (.rcl f.dst c)
      | 6 => .ok (.rcr f.dst c)
      | _ => .error .reservedId

/-- Step 4 of R100: op 2. -/
def decodeCompare (strict : Bool) (f : Fields) : Except Reject Instr :=
  if strict ∧ f.imm ≠ 0#16 then .error .notApplicable
  else if f.dst = 0#4 then .error .dstZero
  else .ok (.cmp f.dst f.src)

/-- Step 5 of R100: op 3. -/
def decodeArith (strict : Bool) (f : Fields) : Except Reject Instr :=
  if strict ∧ (topOf f.imm ≠ 0#4 ∨ f.imm.extractLsb' 2 6 ≠ 0#6) then .error .mustBeZero
  else if f.dst = 0#4 then .error .dstZero
  else match (idOf f.imm).toNat with
    | 0 => .ok (.inc f.dst f.src (decodeArithBits f))
    | 1 => .ok (.dec f.dst f.src (decodeArithBits f))
    | 2 => .ok (.add f.dst f.src (decodeArithBits f))
    | 3 => .ok (.sub f.dst f.src (decodeArithBits f))
    | 4 => .ok (.mul f.dst f.src (decodeArithBits f))
    | 5 => .ok (.mhi f.dst f.src (decodeArithBits f))
    | 6 => .ok (.irp f.dst f.src (decodeArithBits f))
    | 7 => .ok (.div f.dst f.src (decodeArithBits f))
    | 8 => .ok (.rem f.dst f.src (decodeArithBits f))
    | _ => .error .reservedId

/-- Step 6 of R100: op 4, with the IDs of 44_bit_operations R171. -/
def decodeBitOps (strict : Bool) (f : Fields) : Except Reject Instr :=
  if strict ∧ (topOf f.imm ≠ 0#4 ∨ low8Of f.imm ≠ 0#8) then .error .mustBeZero
  else if f.dst = 0#4 then .error .dstZero
  else match (idOf f.imm).toNat with
    | 3 => .ok (.bsf f.dst f.src)
    | 4 => .ok (.bsr f.dst f.src)
    | 5 => .ok (.ham f.dst f.src)
    | 6 => .ok (.par f.dst f.src)
    | 10 => .ok (.bex f.dst f.src)
    | 11 => .ok (.bdp f.dst f.src)
    | _ => .error .reservedId

/-- Step 7 of R100: op 5. -/
def decodeLea (f : Fields) : Except Reject Instr :=
  if idOf f.imm ≠ 0#4 then .error .reservedId
  else if f.dst = 0#4 then .error .dstZero
  else .ok (.lea f.dst (decodeAddr f) (if f.imm.getLsbD 7 then some (topOf f.imm) else none))

/-- Step 7 of R100: op 6. -/
def decodeMemBits (x : Xlen) (strict : Bool) (f : Fields) : Except Reject Instr :=
  if f.dst = 0#4 then .error .dstZero
  else match decodeCount x strict f with
    | .error e => .error e
    | .ok p =>
      let o := if f.imm.getLsbD 7 then some 0#32 else none
      match (idOf f.imm).toNat with
      | 0 => .ok (.bst f.dst p o (topOf f.imm))
      | 1 => .ok (.bcl f.dst p o (topOf f.imm))
      | 2 => .ok (.bfl f.dst p o (topOf f.imm))
      | 3 => .ok (.bts f.dst p o (topOf f.imm))
      | 4 => .ok (.btc f.dst p o (topOf f.imm))
      | 5 => .ok (.btf f.dst p o (topOf f.imm))
      | _ => .error .reservedId

/-- Step 7 of R100: op 7. -/
def decodeLdh (strict : Bool) (f : Fields) : Except Reject Instr :=
  if strict ∧ f.src ≠ 0#4 then .error .notApplicable
  else if f.dst = 0#4 then .error .dstZero
  else .ok (.ldh f.dst f.imm)

/-- Step 8 of R100, I = B = L = 0 and SH = 1: an LDR with a scaled offset. -/
def decodeScaled (f : Fields) : Except Reject Instr :=
  if f.imm.getLsbD 11 then .error .loadForm
  else if f.imm.getLsbD 4 = true ∧ f.src = 0#4 then .error .srcZero
  else if f.dst = 0#4 then .error .dstZero
  else .ok (.ldr f.dst (decodeAddr f) (.scaled (topOf f.imm)))

/-- Step 8 of R100, I = B = L = 0 and SH = 0. -/
def decodeUnscaled (strict : Bool) (f : Fields) : Except Reject Instr :=
  let ss := f.imm.getLsbD 11
  let d := f.imm.getLsbD 12
  let l1 := f.imm.getLsbD 13
  let l2 := f.imm.getLsbD 14
  if strict ∧ f.imm.getLsbD 15 = true then .error .mustBeZero
  else if ss then
    if low8Of f.imm ≠ 0#8 ∨ l1 = true ∨ l2 = true then .error .loadForm
    else if d then .ok (.ldx (.sysToSys f.src f.dst))
    else .ok (.ldx (.sysToReg f.src f.dst))
  else if f.imm.getLsbD 4 = true ∧ f.src = 0#4 then .error .srcZero
  else if d then .ok (.ldx (.memToSys (decodeAddr f) l1 l2 f.dst))
  else if f.dst = 0#4 then .error .dstZero
  else if l1 = false ∧ l2 = false then .ok (.lnt f.dst (decodeAddr f))
  else .ok (.ldr f.dst (decodeAddr f) (.cached l1 l2))

/-- Step 8 of R100, one of I, B, L set: the immediate loads. `src` is "N/A" (R97 item 3). -/
def decodeImmLoad (x : Xlen) (strict : Bool) (f : Fields) : Except Reject Instr :=
  if strict ∧ f.src ≠ 0#4 then .error .notApplicable
  else if f.dst = 0#4 then .error .dstZero
  else if f.imm.extractLsb' 8 8 = 0x02#8 then .ok (.ldb f.dst (low8Of f.imm))
  else if f.imm = 0x0100#16 then .ok (.ldi f.dst 0#32)
  else if f.imm = 0x0400#16 then
    if x = .x64 then .ok (.ldl f.dst 0#64) else .error .longwordAt32
  else .error .loadBits

/-- Step 8 of R100: op 8. `imm16[10:8]` are L, B, I. -/
def decodeLoad (x : Xlen) (strict : Bool) (f : Fields) : Except Reject Instr :=
  if f.imm.extractLsb' 8 3 = 0#3 then
    if f.imm.getLsbD 7 then decodeScaled f else decodeUnscaled strict f
  else decodeImmLoad x strict f

/-- The decoding procedure of R100 on an instruction word, for a machine of width `x` and with or without
STRICT_RESERVED. The immediates that stand in extension data are 0 in the answer (`Instr.withExt` fills them). -/
def decodeWord (x : Xlen) (strict : Bool) (w : InstrWord) : Except Reject Instr :=
  let f := fieldsOf w
  match f.op.toNat with
  | 0 => decodeLogical strict f
  | 1 => decodeShift x strict f
  | 2 => decodeCompare strict f
  | 3 => decodeArith strict f
  | 4 => decodeBitOps strict f
  | 5 => decodeLea f
  | 6 => decodeMemBits x strict f
  | 7 => decodeLdh strict f
  | 8 => decodeLoad x strict f
  | _ => .error .reservedOp

/-! ### Bytes -/

/-- The bytes of a value, in address order, from the bytes in significance order (20_memory R51, R52). -/
def Endian.order : Endian → List Byte → List Byte
  | .little, bs => bs
  | .big, bs => bs.reverse

/-- The number whose bytes, least significant first, are `bs`. -/
def natOfBytes : List Byte → Nat
  | [] => 0
  | b :: bs => b.toNat + 256 * natOfBytes bs

/-- The low `n` bytes of a number, least significant first. -/
def bytesOfNat : Nat → Nat → List Byte
  | 0, _ => []
  | n + 1, v => BitVec.ofNat 8 v :: bytesOfNat n (v / 256)

/-- The first 32-bit word of a list of bytes, and the rest (20_memory R56). -/
def takeWord (e : Endian) : List Byte → Option (InstrWord × List Byte)
  | a :: b :: c :: d :: rest => some (BitVec.ofNat 32 (natOfBytes (e.order [a, b, c, d])), rest)
  | _ => none

/-- The four bytes of a word in address order. -/
def bytesOfWord (e : Endian) (w : InstrWord) : List Byte :=
  e.order (bytesOfNat 4 w.toNat)

/-- The longword of LDL at the front of `bs`, low word first in either byte order (R86, D11). -/
def takeLong (e : Endian) (bs : List Byte) : Option (Longword × List Byte) :=
  match takeWord e bs with
  | none => none
  | some (lo, bs') =>
    match takeWord e bs' with
    | none => none
    | some (hi, rest) => some (hi ++ lo, rest)

/-- The extension data at the front of `bs`. `pad` says whether LDL's longword stands one word further on (R86). -/
def takeExt (e : Endian) (pad : Bool) (k : ExtKind) (bs : List Byte) : Option (Longword × List Byte) :=
  match k with
  | .none => some (0#64, bs)
  | .word => (takeWord e bs).map (fun p => (p.1.setWidth 64, p.2))
  | .long =>
    if pad then
      match takeWord e bs with
      | none => none
      | some (_, bs') => takeLong e bs'
    else takeLong e bs

/-- The instruction at the front of a list of bytes, and the bytes after it. -/
def decodeBytes (x : Xlen) (strict : Bool) (e : Endian) (pad : Bool) (bs : List Byte) :
    Except Reject (Instr × List Byte) :=
  match takeWord e bs with
  | none => .error .truncated
  | some (w, rest) =>
    match decodeWord x strict w with
    | .error r => .error r
    | .ok i =>
      match takeExt e pad i.extKind rest with
      | none => .error .truncated
      | some (v, rest') => .ok (i.withExt v, rest')

/-- The bytes of an instruction of at most sixteen bytes, given as one number whose bit 0 is the least significant bit of
its first word, laid out word by word in byte order `e`. -/
def layOut (e : Endian) (v : Nat) : List Byte :=
  bytesOfWord e (BitVec.ofNat 32 v) ++ bytesOfWord e (BitVec.ofNat 32 (v / 2 ^ 32)) ++
    bytesOfWord e (BitVec.ofNat 32 (v / 2 ^ 64)) ++ bytesOfWord e (BitVec.ofNat 32 (v / 2 ^ 96))

/-- The decoder on an instruction given by its bits, numbered as spec/opcode_table.json numbers them; every bit above
`nbits` is 0. The parameters are the defaults of 00_scope R5 (XLEN = 64, little-endian, STRICT_RESERVED, LDL_ALIGN), and
the instruction stands at a multiple of 8, as at RESET_PC = 0 (log 21). -/
def decodeTableWord (nbits w : Nat) : Option Instr :=
  match decodeBytes .x64 true .little true (layOut .little (w % 2 ^ nbits)) with
  | .ok (i, _) => some i
  | .error _ => none

/-! ### The encoder -/

/-- `imm16` of op 0 and op 4: the ID alone (R92). -/
def immId (id : BitVec 4) : Halfword := 0#4 ++ id ++ 0#8

/-- `imm16` of op 3: `imm16[11:8]` = ID, U in bit 1, M in bit 0 (R92). -/
def immArith (id : BitVec 4) (mu : ArithBits) : Halfword :=
  0#4 ++ id ++ 0#6 ++ BitVec.ofBool mu.U ++ BitVec.ofBool mu.M

/-- The gate bit of a count or position, `imm16[6]`, over its six bits (R92). -/
def countBits : Count → BitVec 7
  | .reg _ => 0#7
  | .imm n => 1#1 ++ n

/-- The `src` field of a count or position; "an assembler writes 0" when the immediate is used (R102). -/
def countSrc : Count → RegNum
  | .reg src => src
  | .imm _ => 0#4

/-- The low byte of `imm16` in op 5 and op 8's memory form: S, A, O, R and `ofsreg` (R92, R93). -/
def addrBits (s : Bool) (a : AddrOperand) : Byte :=
  BitVec.ofBool s ++ BitVec.ofBool a.disp.isSome ++ BitVec.ofBool a.ofs.isSome ++ BitVec.ofBool a.base.isSome ++
    a.ofs.getD 0#4

/-- A word of op 0, op 2 or op 4 (R92). -/
def wordRR (op : Byte) (dst src : RegNum) (imm : Halfword) : InstrWord :=
  wordOf ⟨op, dst, src, imm⟩

/-- "0x00000003 | ID << 24 | U << 17 | M << 16 | src << 12 | dst << 8" (43_arithmetic R150). -/
def wordArith (id : BitVec 4) (dst src : RegNum) (mu : ArithBits) : InstrWord :=
  wordOf ⟨3#8, dst, src, immArith id mu⟩

/-- A word of op 1 (41_shift_rotate R130). -/
def wordShift (id : BitVec 4) (dst : RegNum) (c : Count) : InstrWord :=
  wordOf ⟨1#8, dst, countSrc c, 0#4 ++ id ++ 0#1 ++ countBits c⟩

/-- "0x00000006 | ret << 28 | ID << 24 | A << 23 | B << 22 | position << 16 | src << 12 | dst << 8"
(46_bit_manipulation R195). -/
def wordMemBits (id : BitVec 4) (dst : RegNum) (p : Count) (disp : Option (BitVec 32)) (ret : RegNum) : InstrWord :=
  wordOf ⟨6#8, dst, countSrc p, ret ++ id ++ BitVec.ofBool disp.isSome ++ countBits p⟩

/-- A memory-form word of op 8 (R93): the top nibble, SS, L = B = I = 0, and the address bits. -/
def wordLoad (top : BitVec 4) (ss : Bool) (sh : Bool) (dst : RegNum) (a : AddrOperand) : InstrWord :=
  wordOf ⟨8#8, dst, a.base.getD 0#4, top ++ BitVec.ofBool ss ++ 0#3 ++ addrBits sh a⟩

/-- The top nibble of op 8 with SH = 0: bit 15 is 0, then L2, L1 and D (R93). -/
def cacheBits (l2 l1 d : Bool) : BitVec 4 :=
  0#1 ++ BitVec.ofBool l2 ++ BitVec.ofBool l1 ++ BitVec.ofBool d

/-- The instruction word of an instruction (R81, R92, R93, R101). -/
def encodeWord : Instr → InstrWord
  | .not d => wordRR 0#8 d 0#4 (immId 0#4)
  | .or d s => wordRR 0#8 d s (immId 1#4)
  | .and d s => wordRR 0#8 d s (immId 2#4)
  | .xor d s => wordRR 0#8 d s (immId 3#4)
  | .nor d s => wordRR 0#8 d s (immId 4#4)
  | .xnor d s => wordRR 0#8 d s (immId 5#4)
  | .nand d s => wordRR 0#8 d s (immId 6#4)
  | .sll d c => wordShift 0#4 d c
  | .srl d c => wordShift 1#4 d c
  | .sar d c => wordShift 2#4 d c
  | .rol d c => wordShift 3#4 d c
  | .ror d c => wordShift 4#4 d c
  | .rcl d c => wordShift 5#4 d c
  | .rcr d c => wordShift 6#4 d c
  | .cmp d s => wordRR 2#8 d s 0#16
  | .inc d s mu => wordArith 0#4 d s mu
  | .dec d s mu => wordArith 1#4 d s mu
  | .add d s mu => wordArith 2#4 d s mu
  | .sub d s mu => wordArith 3#4 d s mu
  | .mul d s mu => wordArith 4#4 d s mu
  | .mhi d s mu => wordArith 5#4 d s mu
  | .irp d s mu => wordArith 6#4 d s mu
  | .div d s mu => wordArith 7#4 d s mu
  | .rem d s mu => wordArith 8#4 d s mu
  | .bsf d s => wordRR 4#8 d s (immId 3#4)
  | .bsr d s => wordRR 4#8 d s (immId 4#4)
  | .ham d s => wordRR 4#8 d s (immId 5#4)
  | .par d s => wordRR 4#8 d s (immId 6#4)
  | .bex d s => wordRR 4#8 d s (immId 10#4)
  | .bdp d s => wordRR 4#8 d s (immId 11#4)
  | .lea d a s => wordOf ⟨5#8, d, a.base.getD 0#4, s.getD 0#4 ++ 0#4 ++ addrBits s.isSome a⟩
  | .bst d p o r => wordMemBits 0#4 d p o r
  | .bcl d p o r => wordMemBits 1#4 d p o r
  | .bfl d p o r => wordMemBits 2#4 d p o r
  | .bts d p o r => wordMemBits 3#4 d p o r
  | .btc d p o r => wordMemBits 4#4 d p o r
  | .btf d p o r => wordMemBits 5#4 d p o r
  | .ldh d h => wordOf ⟨7#8, d, 0#4, h⟩
  | .ldb d b => wordOf ⟨8#8, d, 0#4, 0x02#8 ++ b⟩
  | .ldi d _ => wordOf ⟨8#8, d, 0#4, 0x0100#16⟩
  | .ldl d _ => wordOf ⟨8#8, d, 0#4, 0x0400#16⟩
  | .lnt d a => wordLoad 0#4 false false d a
  | .ldr d a (.cached l1 l2) => wordLoad (cacheBits l2 l1 false) false false d a
  | .ldr d a (.scaled n) => wordLoad n false true d a
  | .ldx (.sysToReg s d) => wordOf ⟨8#8, d, s, 0x0800#16⟩
  | .ldx (.sysToSys s d) => wordOf ⟨8#8, d, s, 0x1800#16⟩
  | .ldx (.memToSys a l1 l2 d) => wordLoad (cacheBits l2 l1 true) false false d a

/-- The words of an instruction in the order of their addresses; the pad word of LDL is 0 ("an assembler writes 0",
R86). -/
def encode (pad : Bool) (i : Instr) : List InstrWord :=
  match i.extKind with
  | .none => [encodeWord i]
  | .word => [encodeWord i, i.extValue.setWidth 32]
  | .long =>
    let lo := i.extValue.extractLsb' 0 32
    let hi := i.extValue.extractLsb' 32 32
    if pad then [encodeWord i, 0#32, lo, hi] else [encodeWord i, lo, hi]

/-- The bytes of an instruction in address order. -/
def encodeBytes (e : Endian) (pad : Bool) (i : Instr) : List Byte :=
  (encode pad i).flatMap (bytesOfWord e)

/-! ### The opcode map -/

/-- The mask and match of the opcode-map row an instruction belongs to, one row per form (R101). -/
def opcodeRow : Instr → InstrWord × InstrWord
  | .not _ => (0xFFFFF0FF#32, 0x00000000#32)
  | .or _ _ => (0xFFFF00FF#32, 0x01000000#32)
  | .and _ _ => (0xFFFF00FF#32, 0x02000000#32)
  | .xor _ _ => (0xFFFF00FF#32, 0x03000000#32)
  | .nor _ _ => (0xFFFF00FF#32, 0x04000000#32)
  | .xnor _ _ => (0xFFFF00FF#32, 0x05000000#32)
  | .nand _ _ => (0xFFFF00FF#32, 0x06000000#32)
  | .sll _ _ => (0xFF8000FF#32, 0x00000001#32)
  | .srl _ _ => (0xFF8000FF#32, 0x01000001#32)
  | .sar _ _ => (0xFF8000FF#32, 0x02000001#32)
  | .rol _ _ => (0xFF8000FF#32, 0x03000001#32)
  | .ror _ _ => (0xFF8000FF#32, 0x04000001#32)
  | .rcl _ _ => (0xFF8000FF#32, 0x05000001#32)
  | .rcr _ _ => (0xFF8000FF#32, 0x06000001#32)
  | .cmp _ _ => (0xFFFF00FF#32, 0x00000002#32)
  | .inc _ _ _ => (0xFFFC00FF#32, 0x00000003#32)
  | .dec _ _ _ => (0xFFFC00FF#32, 0x01000003#32)
  | .add _ _ _ => (0xFFFC00FF#32, 0x02000003#32)
  | .sub _ _ _ => (0xFFFC00FF#32, 0x03000003#32)
  | .mul _ _ _ => (0xFFFC00FF#32, 0x04000003#32)
  | .mhi _ _ _ => (0xFFFC00FF#32, 0x05000003#32)
  | .irp _ _ _ => (0xFFFC00FF#32, 0x06000003#32)
  | .div _ _ _ => (0xFFFC00FF#32, 0x07000003#32)
  | .rem _ _ _ => (0xFFFC00FF#32, 0x08000003#32)
  | .bsf _ _ => (0xFFFF00FF#32, 0x03000004#32)
  | .bsr _ _ => (0xFFFF00FF#32, 0x04000004#32)
  | .ham _ _ => (0xFFFF00FF#32, 0x05000004#32)
  | .par _ _ => (0xFFFF00FF#32, 0x06000004#32)
  | .bex _ _ => (0xFFFF00FF#32, 0x0A000004#32)
  | .bdp _ _ => (0xFFFF00FF#32, 0x0B000004#32)
  | .lea _ _ _ => (0x0F0000FF#32, 0x00000005#32)
  | .bst _ _ _ _ => (0x0F0000FF#32, 0x00000006#32)
  | .bcl _ _ _ _ => (0x0F0000FF#32, 0x01000006#32)
  | .bfl _ _ _ _ => (0x0F0000FF#32, 0x02000006#32)
  | .bts _ _ _ _ => (0x0F0000FF#32, 0x03000006#32)
  | .btc _ _ _ _ => (0x0F0000FF#32, 0x04000006#32)
  | .btf _ _ _ _ => (0x0F0000FF#32, 0x05000006#32)
  | .ldh _ _ => (0x0000F0FF#32, 0x00000007#32)
  | .ldb _ _ => (0xFF00F0FF#32, 0x02000008#32)
  | .ldi _ _ => (0xFFFFF0FF#32, 0x01000008#32)
  | .ldl _ _ => (0xFFFFF0FF#32, 0x04000008#32)
  | .lnt _ _ => (0xFF8000FF#32, 0x00000008#32)
  | .ldr _ _ (.cached true _) => (0xBF8000FF#32, 0x20000008#32)
  | .ldr _ _ (.cached false _) => (0xFF8000FF#32, 0x40000008#32)
  | .ldr _ _ (.scaled _) => (0x0F8000FF#32, 0x00800008#32)
  | .ldx (.sysToReg _ _) => (0xEFFF00FF#32, 0x08000008#32)
  | .ldx (.sysToSys _ _) => (0xEFFF00FF#32, 0x08000008#32)
  | .ldx (.memToSys _ _ _ _) => (0x9F8000FF#32, 0x10000008#32)

/-- The "Extra conditions" column of the opcode map (R101). -/
inductive RowCond where
  /-- "dst != 0". -/
  | dst
  /-- "dst != 0; C = 0 => src != 0; XLEN = 32 and C = 1 => imm16[5] = 0", in op 6 with B for C. -/
  | counted
  /-- "dst != 0; XLEN = 64". -/
  | longword
  /-- "dst != 0; R = 1 => src != 0". -/
  | load
  /-- "D = 0 => any dst (0 discards)", so none. -/
  | sysSource
  /-- "R = 1 => src != 0". -/
  | sysLoad
  deriving DecidableEq, Repr

/-- "R = 1 => src != 0" on the fields of a word. -/
def baseInRange (f : Fields) : Bool :=
  !f.imm.getLsbD 4 || f.src != 0#4

/-- Whether a word's fields meet an extra condition on a machine of width `x`. -/
def RowCond.holds (x : Xlen) (f : Fields) : RowCond → Bool
  | .dst => f.dst != 0#4
  | .counted => f.dst != 0#4 && (if f.imm.getLsbD 6 then x == .x64 || !f.imm.getLsbD 5 else f.src != 0#4)
  | .longword => f.dst != 0#4 && x == .x64
  | .load => f.dst != 0#4 && baseInRange f
  | .sysSource => true
  | .sysLoad => baseInRange f

/-- One row of the opcode map: its mask, its match and its extra condition. -/
structure OpcodeRow where
  mask : InstrWord
  value : InstrWord
  cond : RowCond
  deriving DecidableEq, Repr

/-- "A word w selects the row when w & mask = match and the row's extra conditions hold" (R101). -/
def OpcodeRow.selects (x : Xlen) (w : InstrWord) (r : OpcodeRow) : Bool :=
  w &&& r.mask == r.value && r.cond.holds x (fieldsOf w)

/-- The rows of one mask and one condition. -/
def rowsOf (mask : InstrWord) (cond : RowCond) (values : List InstrWord) : List OpcodeRow :=
  values.map (fun v => ⟨mask, v, cond⟩)

/-- The opcode map (R101), family by family. -/
def opcodeMap : List OpcodeRow :=
  rowsOf 0xFFFFF0FF#32 .dst [0x00000000#32] ++
  rowsOf 0xFFFF00FF#32 .dst
    [0x01000000#32, 0x02000000#32, 0x03000000#32, 0x04000000#32, 0x05000000#32, 0x06000000#32] ++
  rowsOf 0xFF8000FF#32 .counted
    [0x00000001#32, 0x01000001#32, 0x02000001#32, 0x03000001#32, 0x04000001#32, 0x05000001#32, 0x06000001#32] ++
  rowsOf 0xFFFF00FF#32 .dst [0x00000002#32] ++
  rowsOf 0xFFFC00FF#32 .dst
    [0x00000003#32, 0x01000003#32, 0x02000003#32, 0x03000003#32, 0x04000003#32, 0x05000003#32, 0x06000003#32,
      0x07000003#32, 0x08000003#32] ++
  rowsOf 0xFFFF00FF#32 .dst
    [0x03000004#32, 0x04000004#32, 0x05000004#32, 0x06000004#32, 0x0A000004#32, 0x0B000004#32] ++
  rowsOf 0x0F0000FF#32 .dst [0x00000005#32] ++
  rowsOf 0x0F0000FF#32 .counted
    [0x00000006#32, 0x01000006#32, 0x02000006#32, 0x03000006#32, 0x04000006#32, 0x05000006#32] ++
  rowsOf 0x0000F0FF#32 .dst [0x00000007#32] ++
  rowsOf 0xFF00F0FF#32 .dst [0x02000008#32] ++
  rowsOf 0xFFFFF0FF#32 .dst [0x01000008#32] ++
  rowsOf 0xFFFFF0FF#32 .longword [0x04000008#32] ++
  rowsOf 0xFF8000FF#32 .load [0x00000008#32, 0x40000008#32] ++
  rowsOf 0xBF8000FF#32 .load [0x20000008#32] ++
  rowsOf 0x0F8000FF#32 .load [0x00800008#32] ++
  rowsOf 0xEFFF00FF#32 .sysSource [0x08000008#32] ++
  rowsOf 0x9F8000FF#32 .sysLoad [0x10000008#32]

/-! ### The reserved encodings, item by item -/

/-- In op 8, the byte, immediate or longword bit is set: `imm16[9]`, `imm16[8]` or `imm16[10]` (R93). -/
def isImmForm (f : Fields) : Bool :=
  f.imm.extractLsb' 8 3 != 0#3

/-- In op 8, the address of a memory access is read: none of I, B, L, and not a system source (R100 step 8). -/
def isMemForm (f : Fields) : Bool :=
  !isImmForm f && !f.imm.getLsbD 11

/-- R96 and R97 item 1: an `op` or an ID that no table assigns. -/
def unassignedOpOrId (f : Fields) : Bool :=
  match f.op.toNat with
  | 0 | 1 => decide (7 ≤ (idOf f.imm).toNat)
  | 3 => decide (9 ≤ (idOf f.imm).toNat)
  | 4 => decide ((idOf f.imm).toNat ∉ [3, 4, 5, 6, 10, 11])
  | 5 => decide (1 ≤ (idOf f.imm).toNat)
  | 6 => decide (6 ≤ (idOf f.imm).toNat)
  | 2 | 7 | 8 => false
  | _ => true

/-- R97 item 2: `dst = 0` in every instruction but LDX, and `src = 0` where the gate bit selects the register. -/
def registerOutOfRange (f : Fields) : Bool :=
  match f.op.toNat with
  | 1 | 6 => f.dst == 0#4 || (!f.imm.getLsbD 6 && f.src == 0#4)
  | 8 =>
    (f.dst == 0#4 && (isImmForm f || f.imm.getLsbD 7 || (!f.imm.getLsbD 11 && !f.imm.getLsbD 12))) ||
      (isMemForm f && !baseInRange f)
  | _ => f.dst == 0#4

/-- R97 item 3: a non-zero `src` of NOT, LDH, LDB, LDI and LDL, or `imm16` of CMP. -/
def notApplicableSet (f : Fields) : Bool :=
  match f.op.toNat with
  | 0 => idOf f.imm == 0#4 && f.src != 0#4
  | 2 => f.imm != 0#16
  | 7 => f.src != 0#4
  | 8 => isImmForm f && f.src != 0#4
  | _ => false

/-- R97 item 4: a non-zero "must be 0" bit, bit 5 of an immediate count or position at XLEN = 32 among them. -/
def mustBeZeroSet (x : Xlen) (f : Fields) : Bool :=
  let count5 := x == .x32 && f.imm.getLsbD 6 && f.imm.getLsbD 5
  match f.op.toNat with
  | 0 | 4 => topOf f.imm != 0#4 || low8Of f.imm != 0#8
  | 1 => topOf f.imm != 0#4 || f.imm.getLsbD 7 || count5
  | 3 => topOf f.imm != 0#4 || f.imm.extractLsb' 2 6 != 0#6
  | 6 => count5
  | 8 => !isImmForm f && !f.imm.getLsbD 7 && f.imm.getLsbD 15
  | _ => false

/-- R97 item 5, more than one of I, B, L, or one of them with a bit its form does not use, and the combinations of SS
that 47_loads R215 does not list ("SS = 1 with any addressing or cache bit; SH = 1 with SS = 1", R229). -/
def loadFormUnlisted (f : Fields) : Bool :=
  f.op == 8#8 &&
    (if isImmForm f then f.imm.extractLsb' 8 8 != 0x02#8 && f.imm != 0x0100#16 && f.imm != 0x0400#16
     else f.imm.getLsbD 11 && (low8Of f.imm != 0#8 || f.imm.getLsbD 13 || f.imm.getLsbD 14))

/-- R97 item 6: LDL at XLEN = 32. -/
def longwordOn32 (x : Xlen) (f : Fields) : Bool :=
  x == .x32 && f.op == 8#8 && f.imm == 0x0400#16

/-- The words that are reserved whatever STRICT_RESERVED is: R96 and R97's items 1, 2 and 6. -/
def reservedAlways (x : Xlen) (w : InstrWord) : Bool :=
  let f := fieldsOf w
  unassignedOpOrId f || registerOutOfRange f || longwordOn32 x f

/-- The words that are reserved with STRICT_RESERVED: R96 and every item of R97. -/
def reservedWord (x : Xlen) (w : InstrWord) : Bool :=
  let f := fieldsOf w
  reservedAlways x w || notApplicableSet f || mustBeZeroSet x f || loadFormUnlisted f

/-- The bits of a word that stand in a field whose gate bit is 0 ("a field in brackets is read only when its gate bit is
1 and is ignored otherwise", R92): `src` under C, B or R, the immediate count or position under C or B, `ofsreg` under
O, LEA's shift count under S and O (R92, R93, 47_loads R225). -/
def gatedOff (w : InstrWord) : InstrWord :=
  let f := fieldsOf w
  let src : InstrWord := 0x0000F000#32
  let count := if f.imm.getLsbD 6 then src else 0x003F0000#32
  let addr := (if f.imm.getLsbD 4 then 0#32 else src) ||| (if f.imm.getLsbD 5 then 0#32 else 0x000F0000#32)
  match f.op.toNat with
  | 1 | 6 => count
  | 5 => addr ||| (if f.imm.getLsbD 7 && f.imm.getLsbD 5 then 0#32 else 0xF0000000#32)
  | 8 => if isMemForm f then addr else 0#32
  | _ => 0#32

end Sys2Proof
end

