-- ==== Sys2Proof/Machine/State.lean ====
section
/-! DEFINITION. The state of a Voima machine (10_state), as plain data: what the spec's table of state names, the
parameters that fix the machine (00_scope R5), and the model's counter of free values. -/

namespace Sys2Proof.Machine

/-- The faults of 60_exceptions R261. An instruction that raises one has no effect but that the run status becomes
`Faulted` (R262, R285), so these stand in the run status; no step of the model ends in the host's `fault` outcome (log
6). Each is safe in R263's sense: the model stops where the source gives no behaviour. -/
inductive Fault where
  /-- Raised by an instruction fetch at `pc` with `pc mod 4 != 0` (R264). Safe. -/
  | misalignedFetch (a : Nat)
  /-- Raised by any fetch or data access that touches a byte outside MEM_VALID; `a` is the access's lowest address
  (R267). Safe. -/
  | accessFault (a : Nat)
  /-- Raised at decode by a reserved instruction word `w` at `pc` (R265). Safe. -/
  | illegalInstruction (pc : Nat) (w : InstrWord)
  /-- Raised by LDX for a system-register number other than MSW_INDEX (R268). Safe. -/
  | reservedSystemRegister (n : RegNum)
  /-- Raised by a data access whose address is no multiple of W/8 (R266). Safe. -/
  | misalignedAccess (a : Nat)
  /-- Raised by DIV and REM with a zero divisor, at `pc` (R269). Safe. -/
  | divideByZero (pc : Nat)
  deriving DecidableEq, Repr

/-- The host's refusals. Every instruction has its meaning, so no meaning and no step answers with one. -/
inductive Refusal where
  /-- An instruction without a meaning, by its mnemonic: raised by no arm of `exec`. Safe. -/
  | notModelled (mnemonic : String)
  deriving DecidableEq, Repr

/-- The run status (10_state R37): the model's own bookkeeping in the spec's words, invisible to every instruction. -/
inductive RunStatus where
  | running
  | faulted (fault : Fault) (pc : Nat)
  | ended
  deriving DecidableEq, Repr

/-- The four flags of MSW (10_state R27). Bits W-1:4 of MSW read 0 and ignore a write, so they hold nothing. -/
structure Flags where
  ZF : Bool
  LT : Bool
  CF : Bool
  OF : Bool
  deriving DecidableEq, Repr

/-- Memory as the list of its bytes that differ from what an unlisted address reads as (10_state R34, 20_memory R50). -/
abbrev Memory := List Host.Cell

/-- What an address that is not listed reads as. DESIGN CHOICE (log 5, unsafe): 10_state R38 leaves the bytes that the
host did not load unspecified. -/
def unlistedByte : Byte := 0#8

/-- The canonical form: addresses strictly rising, and no entry equal to what an unlisted address reads as. -/
def Memory.wf : Memory → Bool
  | [] => true
  | [c] => c.2 != unlistedByte
  | c :: d :: rest => c.2 != unlistedByte && decide (c.1 < d.1) && Memory.wf (d :: rest)

/-- The machine at register width `W` (10_state, "The whole state in one table"). -/
structure Mach (W : Nat) where
  /-- The parameters that fix the machine (00_scope R5). No instruction reads or writes them as data, and no step
  changes them. -/
  cfg : Params W
  /-- x[0]..x[15] (R20). Entry 0 is never read (R22). -/
  gpr : Vector (BitVec W) 16
  /-- The program counter (R25). -/
  pc : BitVec W
  /-- MSW's flags (R27). -/
  flags : Flags
  /-- Memory (R34). -/
  mem : Memory
  /-- The run status (R37). -/
  status : RunStatus
  /-- THE MODEL'S OWN: how many free flag values have been drawn (log 7). -/
  freeDraws : Nat
  deriving DecidableEq, Repr

/-- A machine of either width (00_scope R5, R6). -/
structure State where
  /-- XLEN. -/
  xlen : Xlen
  /-- The machine at that width. -/
  mach : Mach xlen.bits
  deriving DecidableEq, Repr

/-- The machine after reset with parameters `cfg`, over the memory the host loaded (10_state R38, 70_reset R300, R301).
DESIGN CHOICE (log 3, log 4, log 7, unsafe): R38 gives x[1]..x[15] and the flags no value; here they are 0. -/
def Mach.reset {W : Nat} (cfg : Params W) (image : Memory) : Mach W where
  cfg := cfg
  gpr := Vector.replicate 16 0#W
  pc := cfg.resetPc
  flags := ⟨false, false, false, false⟩
  mem := image
  status := .running
  freeDraws := 0

/-- Reset with the default parameters of 00_scope R5 and nothing loaded (log 1, log 9). -/
def State.reset : State :=
  ⟨.x64, Mach.reset (Params.default 64) []⟩

end Sys2Proof.Machine
end

