-- ==== Sys2Proof/Machine/Ops.lean ====
section
/-! DEFINITION. The named operations over registers, system registers and memory, raising a fault, and the fetch of an
instruction. Every read and write of the state by an instruction goes through these. -/

namespace Sys2Proof.Machine

variable {W : Nat}

/-- A step's answer: the machine `m` as the next state, at the same width. -/
def State.goto (s : State) (m : Mach s.xlen.bits) : Host.Outcome State Fault Refusal :=
  .next ⟨s.xlen, m⟩

/-! ### General registers, pc -/

/-- `x[r]`: register 0 reads 0 (10_state R22). -/
def Mach.reg (m : Mach W) (r : RegNum) : BitVec W :=
  if r = 0#4 then 0#W else m.gpr[r.toNat]'r.isLt

/-- `x[r] <- v`: a write with `r = 0` is discarded (10_state R22). -/
def Mach.writeReg (m : Mach W) (r : RegNum) (v : BitVec W) : Mach W :=
  if r = 0#4 then m else { m with gpr := m.gpr.set r.toNat v r.isLt }

/-- `pc <- (pc + len) mod 2^W` (10_state R26). -/
def Mach.advance (m : Mach W) (len : Nat) : Mach W :=
  { m with pc := m.pc + BitVec.ofNat W len }

/-- All four flags at once (10_state R27). -/
def Mach.setFlags (m : Mach W) (f : Flags) : Mach W :=
  { m with flags := f }

/-! ### Raising a fault -/

/-- `raise`: "the instruction has no effect at all ... and pc keeps the address of the faulting instruction. The run
status becomes Faulted(fault, pc)" (60_exceptions R262, R285). There is no trap entry beyond this, no saved register, no
vector and no return (R271, R272). -/
def Mach.raise (m : Mach W) (f : Fault) : Mach W :=
  { m with status := .faulted f m.pc.toNat }

/-- The end of an instruction that may raise: its effect, or the fault and nothing else (R262). -/
def Mach.orRaise (m : Mach W) (r : Except Fault (Mach W)) : Mach W :=
  match r with
  | .ok m' => m'
  | .error f => m.raise f

/-- The number R261 gives a fault. "No architectural state holds it." -/
def faultCode : Fault → Nat
  | .misalignedFetch _ => 1
  | .accessFault _ => 2
  | .illegalInstruction _ _ => 3
  | .reservedSystemRegister _ => 4
  | .misalignedAccess _ => 5
  | .divideByZero _ => 6

/-! ### System registers -/

/-- MSW as a W-bit value: "zext_W(OF ++ CF ++ LT ++ ZF)" (10_state R27, R31). -/
def mswValue (W : Nat) (f : Flags) : BitVec W :=
  (BitVec.ofBool f.OF ++ BitVec.ofBool f.CF ++ BitVec.ofBool f.LT ++ BitVec.ofBool f.ZF).setWidth W

/-- The flags a write of `v` to MSW leaves: bits 3:0; the others are ignored (10_state R31). -/
def flagsOfMsw (v : BitVec W) : Flags where
  ZF := v.getLsbD 0
  LT := v.getLsbD 1
  CF := v.getLsbD 2
  OF := v.getLsbD 3

/-- `s[n]`: MSW at MSW_INDEX, ReservedSystemRegister for every other number (10_state R30 to R32). -/
def Mach.readSys (m : Mach W) (n : RegNum) : Except Fault (BitVec W) :=
  if n = m.cfg.mswIndex then .ok (mswValue W m.flags) else .error (.reservedSystemRegister n)

/-- `s[n] <- v` (10_state R31, R32). -/
def Mach.writeSys (m : Mach W) (n : RegNum) (v : BitVec W) : Except Fault (Mach W) :=
  if n = m.cfg.mswIndex then .ok (m.setFlags (flagsOfMsw v)) else .error (.reservedSystemRegister n)

/-! ### Memory -/

/-- The byte at an address. -/
def Memory.read : Memory → Nat → Byte
  | [], _ => unlistedByte
  | c :: rest, a => if c.1 = a then c.2 else Memory.read rest a

/-- An entry put before the first one with a higher address. -/
def Memory.insert (a : Nat) (v : Byte) : Memory → Memory
  | [] => [(a, v)]
  | c :: rest => if a < c.1 then (a, v) :: c :: rest else c :: Memory.insert a v rest

/-- A byte written. Writing what an unlisted address reads as removes the entry, so the canonical form stays. -/
def Memory.write (m : Memory) (a : Nat) (v : Byte) : Memory :=
  let others := m.filter (fun c => c.1 != a)
  if v = unlistedByte then others else Memory.insert a v others

/-- `n` bytes from address `a` upward. -/
def Memory.readBytes (m : Memory) (a : Nat) : Nat → List Byte
  | 0 => []
  | n + 1 => m.read a :: m.readBytes (a + 1) n

/-- Bytes written from address `a` upward. -/
def Memory.writeBytes (m : Memory) (a : Nat) : List Byte → Memory
  | [] => m
  | b :: bs => (m.write a b).writeBytes (a + 1) bs

/-- Whether all of the `n` bytes at `a` are in MEM_VALID (20_memory R50, R52). -/
def validRange (cfg : Params W) (a : Nat) : Nat → Bool
  | 0 => true
  | n + 1 => cfg.valid a && validRange cfg (a + 1) n

/-- The memory-word at `a`: W/8 bytes in byte order ENDIAN, as a W-bit value (20_memory R52, R58). -/
def Mach.wordAt (m : Mach W) (a : Nat) : BitVec W :=
  BitVec.ofNat W (natOfBytes (m.cfg.endian.order (m.mem.readBytes a (W / 8))))

/-- The W/8 bytes of a W-bit value in address order (20_memory R52). -/
def dataBytes (e : Endian) (v : BitVec W) : List Byte :=
  e.order (bytesOfNat (W / 8) v.toNat)

/-- The checks of MemRead and MemWrite, in their order: alignment, then MEM_VALID (20_memory R52, R54). -/
def Mach.checkData (m : Mach W) (a : BitVec W) : Except Fault Unit :=
  if a.toNat % (W / 8) ≠ 0 then .error (.misalignedAccess a.toNat)
  else if validRange m.cfg a.toNat (W / 8) = false then .error (.accessFault a.toNat)
  else .ok ()

/-- `MemRead(a, W/8)` (20_memory R52, R58). -/
def Mach.memRead (m : Mach W) (a : BitVec W) : Except Fault (BitVec W) :=
  match m.checkData a with
  | .error f => .error f
  | .ok () => .ok (m.wordAt a.toNat)

/-- `MemWrite(a, W/8, v)` (20_memory R52, R58). -/
def Mach.memWrite (m : Mach W) (a v : BitVec W) : Except Fault (Mach W) :=
  match m.checkData a with
  | .error f => .error f
  | .ok () => .ok { m with mem := m.mem.writeBytes a.toNat (dataBytes m.cfg.endian v) }

/-! ### Instruction fetch -/

/-- `FetchWord(a)` (20_memory R56). -/
def Mach.fetchWord (m : Mach W) (a : BitVec W) : Except Fault InstrWord :=
  if a.toNat % 4 ≠ 0 then .error (.misalignedFetch a.toNat)
  else if validRange m.cfg a.toNat 4 = false then .error (.accessFault a.toNat)
  else .ok (BitVec.ofNat 32 (natOfBytes (m.cfg.endian.order (m.mem.readBytes a.toNat 4))))

/-- Whether an LDL at `pc` has a pad word: LDL_ALIGN is set and `(pc + 4) mod 8` is not 0 (30_encoding R86, R88). -/
def ldlPad (cfg : Params W) (pc : BitVec W) : Bool :=
  cfg.ldlAlign && decide ((pc + 4#W).toNat % 8 ≠ 0)

/-- `q`, the address of LDL's longword (30_encoding R86). -/
def ldlAddr (cfg : Params W) (pc : BitVec W) : BitVec W :=
  if ldlPad cfg pc then pc + 8#W else pc + 4#W

/-- The extension data of the instruction at `pc`: `imm32` at `pc + 4`, or "FetchWord(q + 4) ++ FetchWord(q)", the lower
word fetched first (30_encoding R85, R86, 60_exceptions R270). DESIGN CHOICE (log 24): where LDL_ALIGN is off and `q + 4`
wraps to 0, the word at `q` still comes first. -/
def Mach.fetchExt (m : Mach W) : ExtKind → Except Fault Longword
  | .none => .ok 0#64
  | .word =>
    match m.fetchWord (m.pc + 4#W) with
    | .error f => .error f
    | .ok v => .ok (v.setWidth 64)
  | .long =>
    match m.fetchWord (ldlAddr m.cfg m.pc) with
    | .error f => .error f
    | .ok lo =>
      match m.fetchWord (ldlAddr m.cfg m.pc + 4#W) with
      | .error f => .error f
      | .ok hi => .ok (hi ++ lo)

/-- Fetch and decode of the instruction at `pc` for a machine of width `x`, the instruction word first, then its decoding,
then its extension data (00_scope R9, 60_exceptions R265, R270, R285). -/
def Mach.fetchInstr (x : Xlen) (m : Mach W) : Except Fault Instr :=
  match m.fetchWord m.pc with
  | .error f => .error f
  | .ok w =>
    match decodeWord x m.cfg.strictReserved w with
    | .error _ => .error (.illegalInstruction m.pc.toNat w)
    | .ok i =>
      match m.fetchExt i.extKind with
      | .error f => .error f
      | .ok e => .ok (i.withExt e)

/-- Whether the run ends before the next fetch: `pc = END_PC` (70_reset R306). -/
def Mach.atEnd (m : Mach W) : Bool :=
  m.cfg.endPc == some m.pc

/-! ### The host's loader -/

/-- One 32-bit word stored at `pc + 4k` (modulo 2^W), in byte order ENDIAN, as a fetch reads it. -/
def Mach.storeCodeWord (m : Mach W) (k : Nat) (w : InstrWord) : Mach W :=
  { m with mem := m.mem.writeBytes (m.pc + BitVec.ofNat W (4 * k)).toNat (bytesOfWord m.cfg.endian w) }

/-- An instruction of at most sixteen bytes stored at `pc`, given as one number whose bit 0 is the least significant bit
of its first word. -/
def Mach.storeInstr (m : Mach W) (v : Nat) : Mach W :=
  let m0 := m.storeCodeWord 0 (BitVec.ofNat 32 v)
  let m1 := m0.storeCodeWord 1 (BitVec.ofNat 32 (v / 2 ^ 32))
  let m2 := m1.storeCodeWord 2 (BitVec.ofNat 32 (v / 2 ^ 64))
  m2.storeCodeWord 3 (BitVec.ofNat 32 (v / 2 ^ 96))

/-- The host's part before the first step: the machine of width `x` with parameters `cfg`, each image's bytes loaded from
its address upward, then reset (70_reset R300, R302, R303). -/
def boot (x : Xlen) (cfg : Params x.bits) (images : List (Nat × List Byte)) : State :=
  ⟨x, Mach.reset cfg (images.foldl (fun m im => m.writeBytes im.1 im.2) [])⟩

end Sys2Proof.Machine
end

