-- ==== Sys2Proof/Machine/Flags.lean ====
section
/-! DEFINITION. Every flag computation of the spec: CMP (42_compare R146), the M-bit of op 3 (43_arithmetic R150 to R155),
and the free values of MHI, DIV and REM (R160). -/

namespace Sys2Proof.Machine

variable {W : Nat}

/-- CMP's four flags from `a = x[dst]` and `b = x[src]`, through `d = b - a` (R146). -/
def cmpFlags (a b : BitVec W) : Flags where
  ZF := a == b
  LT := b.slt a
  CF := b.ult a
  OF := b.msb != a.msb && (b - a).msb != b.msb

/-- CF and OF of op 3, the pair the M-bit writes (R150). -/
structure CarryOverflow where
  CF : Bool
  OF : Bool
  deriving DecidableEq, Repr

/-- INC: carry from all ones, overflow from the largest positive value (R151). -/
def incFlags (a : BitVec W) : CarryOverflow where
  CF := decide (a.toNat = 2 ^ W - 1)
  OF := decide (a.toNat = 2 ^ (W - 1) - 1)

/-- DEC: borrow from 0, overflow from the most negative value (R152). -/
def decFlags (a : BitVec W) : CarryOverflow where
  CF := decide (a.toNat = 0)
  OF := decide (a.toNat = 2 ^ (W - 1))

/-- ADD (R153). -/
def addFlags (a b : BitVec W) : CarryOverflow where
  CF := decide (a.toNat + b.toNat ≥ 2 ^ W)
  OF := a.msb == b.msb && (a + b).msb != a.msb

/-- SUB (R154). -/
def subFlags (a b : BitVec W) : CarryOverflow where
  CF := a.ult b
  OF := a.msb != b.msb && (a - b).msb != a.msb

/-- The exact product that U selects (R155, R156). -/
def product (u : Bool) (a b : BitVec W) : Int :=
  if u then (a.toNat : Int) * (b.toNat : Int) else a.toInt * b.toInt

/-- MUL: both flags say that the product does not fit in W bits, unsigned or signed as U says (R155). -/
def mulFlags (u : Bool) (a b : BitVec W) : CarryOverflow :=
  let p := product u a b
  let ov :=
    if u then decide (p ≥ 2 ^ W)
    else decide (p < -(2 ^ (W - 1)) ∨ p > 2 ^ (W - 1) - 1)
  ⟨ov, ov⟩

/-- The M-bit: CF and OF written when it is 1, MSW untouched when it is 0; ZF and LT never (R150). -/
def Mach.setCarry (m : Mach W) (mu : ArithBits) (c : CarryOverflow) : Mach W :=
  if mu.M then m.setFlags { m.flags with CF := c.CF, OF := c.OF } else m

/-- CF and OF of MHI, DIV and REM: with M = 1 two free values are drawn, with M = 0 nothing happens (R160, log 7). -/
def Mach.setFreeCarry (m : Mach W) (mu : ArithBits) : Mach W :=
  if mu.M then
    { m with
      flags := { m.flags with
        CF := Config.freeFlag m.freeDraws, OF := Config.freeFlag (m.freeDraws + 1) }
      freeDraws := m.freeDraws + 2 }
  else m

end Sys2Proof.Machine
end

