-- ==== Sys2Proof/Machine/Arith.lean ====
section
/-! DEFINITION. Op 3, arithmetic (43_arithmetic R150 to R162). -/

namespace Sys2Proof.Machine

variable {W : Nat}

/-- "floor(P / 2^W) mod 2^W" (R156). -/
def highWord (u : Bool) (a b : BitVec W) : BitVec W :=
  BitVec.ofInt W (product u a b / 2 ^ W)

/-- The quotient: of the unsigned values when U = 1, else of the signed ones, rounded toward zero (R158). -/
def quotient (u : Bool) (a b : BitVec W) : BitVec W :=
  if u then BitVec.ofNat W (a.toNat / b.toNat)
  else BitVec.ofInt W (a.toInt.tdiv b.toInt)

/-- The remainder: "unsigned(a) - unsigned(b) * floor(...)", or "signed(a) - signed(b) * trunc(...)" (R159). -/
def remainder (u : Bool) (a b : BitVec W) : BitVec W :=
  if u then BitVec.ofNat W (a.toNat - b.toNat * (a.toNat / b.toNat))
  else BitVec.ofInt W (a.toInt - b.toInt * a.toInt.tdiv b.toInt)

/-- The shape of INC, DEC, ADD, SUB, MUL: the flags by the M-bit, then the result to `dst` (R150). -/
def arith (m : Mach W) (dst : RegNum) (mu : ArithBits) (r : BitVec W) (c : CarryOverflow) : Mach W :=
  ((m.setCarry mu c).writeReg dst r).advance 4

/-- The shape of MHI, DIV, REM: as `arith`, with flags the spec leaves unspecified (R150, R160). -/
def arithFree (m : Mach W) (dst : RegNum) (mu : ArithBits) (r : BitVec W) : Mach W :=
  ((m.setFreeCarry mu).writeReg dst r).advance 4

/-- The shape of DIV and REM: DivideByZero for a zero divisor, with nothing written (R158, R159, 60_exceptions R269). -/
def divide (m : Mach W) (dst src : RegNum) (mu : ArithBits) (f : Bool → BitVec W → BitVec W → BitVec W) : Mach W :=
  if m.reg src = 0#W then m.raise (.divideByZero m.pc.toNat)
  else arithFree m dst mu (f mu.U (m.reg dst) (m.reg src))

/-- INC: "r = (a + 1) mod 2^W" with `a = x[src]` (R151). -/
def execInc (dst src : RegNum) (mu : ArithBits) (s : State) : Host.Outcome State Fault Refusal :=
  s.goto (arith s.mach dst mu (s.mach.reg src + 1#_) (incFlags (s.mach.reg src)))

/-- DEC: "r = (a - 1) mod 2^W" with `a = x[src]` (R152). -/
def execDec (dst src : RegNum) (mu : ArithBits) (s : State) : Host.Outcome State Fault Refusal :=
  s.goto (arith s.mach dst mu (s.mach.reg src - 1#_) (decFlags (s.mach.reg src)))

/-- ADD: "r = (a + b) mod 2^W" (R153). -/
def execAdd (dst src : RegNum) (mu : ArithBits) (s : State) : Host.Outcome State Fault Refusal :=
  s.goto (arith s.mach dst mu (s.mach.reg dst + s.mach.reg src) (addFlags (s.mach.reg dst) (s.mach.reg src)))

/-- SUB: "r = (a - b) mod 2^W" (R154). -/
def execSub (dst src : RegNum) (mu : ArithBits) (s : State) : Host.Outcome State Fault Refusal :=
  s.goto (arith s.mach dst mu (s.mach.reg dst - s.mach.reg src) (subFlags (s.mach.reg dst) (s.mach.reg src)))

/-- MUL: "x[dst] <- P mod 2^W" (R155). -/
def execMul (dst src : RegNum) (mu : ArithBits) (s : State) : Host.Outcome State Fault Refusal :=
  s.goto (arith s.mach dst mu (BitVec.ofInt _ (product mu.U (s.mach.reg dst) (s.mach.reg src)))
      (mulFlags mu.U (s.mach.reg dst) (s.mach.reg src)))

/-- MHI: the high word of the product (R156). -/
def execMhi (dst src : RegNum) (mu : ArithBits) (s : State) : Host.Outcome State Fault Refusal :=
  s.goto (arithFree s.mach dst mu (highWord mu.U (s.mach.reg dst) (s.mach.reg src)))

/-- IRP: "x[src] is read; no register, no flag and no memory byte is written, whatever M and U are" (R157). -/
def execIrp (_dst _src : RegNum) (_mu : ArithBits) (s : State) : Host.Outcome State Fault Refusal :=
  s.goto (s.mach.advance 4)

/-- DIV (R158). -/
def execDiv (dst src : RegNum) (mu : ArithBits) (s : State) : Host.Outcome State Fault Refusal :=
  s.goto (divide s.mach dst src mu quotient)

/-- REM (R159). -/
def execRem (dst src : RegNum) (mu : ArithBits) (s : State) : Host.Outcome State Fault Refusal :=
  s.goto (divide s.mach dst src mu remainder)

end Sys2Proof.Machine
end

