-- ==== Sys2Proof/Machine/BitOps.lean ====
section
/-! DEFINITION. Op 4, bit operations on registers (44_bit_operations R170 to R178). -/

namespace Sys2Proof.Machine

variable {W : Nat}

/-- How many of the bits `i`, `i + 1`, … up to `i + n - 1` are zero before the first one. -/
def zerosUp (v : BitVec W) (i : Nat) : Nat → Nat
  | 0 => 0
  | n + 1 => if v.getLsbD i then 0 else zerosUp v (i + 1) n + 1

/-- How many of the bits `n - 1`, `n - 2`, … down to 0 are zero before the first one. -/
def zerosDown (v : BitVec W) : Nat → Nat
  | 0 => 0
  | n + 1 => if v.getLsbD n then 0 else zerosDown v n + 1

/-- How many of the bits below `n` are one. -/
def onesBelow (v : BitVec W) : Nat → Nat
  | 0 => 0
  | n + 1 => onesBelow v n + (v.getLsbD n).toNat

/-- `ctz`, with `ctz(0) = W` (00_scope R8, R172). -/
def ctz (v : BitVec W) : Nat := zerosUp v 0 W

/-- `clz`, with `clz(0) = W` (00_scope R8, R173). -/
def clz (v : BitVec W) : Nat := zerosDown v W

/-- `popcount` (00_scope R8, R174). -/
def popcount (v : BitVec W) : Nat := onesBelow v W

/-- A value with bit `k` replaced by `b` where that bit is 0. -/
def putBit (r : BitVec W) (k : Nat) (b : Bool) : BitVec W :=
  if b then r ||| BitVec.twoPow W k else r

/-- The loop of R176 after its first `n` rounds: the packed bits `r`, and `k` of them. -/
def bexLoop (v m : BitVec W) : Nat → BitVec W × Nat
  | 0 => (0#W, 0)
  | i + 1 =>
    let (r, k) := bexLoop v m i
    if m.getLsbD i then (putBit r k (v.getLsbD i), k + 1) else (r, k)

/-- The loop of R177 after its first `n` rounds: the spread bits `r`, and `k` of them used. -/
def bdpLoop (v m : BitVec W) : Nat → BitVec W × Nat
  | 0 => (0#W, 0)
  | i + 1 =>
    let (r, k) := bdpLoop v m i
    if m.getLsbD i then (putBit r i (v.getLsbD k), k + 1) else (r, k)

/-- Bit extract of `v` under mask `m` (R176). -/
def bitExtract (v m : BitVec W) : BitVec W := (bexLoop v m W).1

/-- Bit deposit of `v` under mask `m` (R177). -/
def bitDeposit (v m : BitVec W) : BitVec W := (bdpLoop v m W).1

/-- The shape of the family: a value to `dst`, no flag, pc advances by 4 (R170). -/
def bitOp (m : Mach W) (dst : RegNum) (r : BitVec W) : Mach W :=
  (m.writeReg dst r).advance 4

/-- BSF: "x[dst] <- zext_W(ctz(x[src]))" (R172). -/
def execBsf (dst src : RegNum) (s : State) : Host.Outcome State Fault Refusal :=
  .next { s with mach := bitOp s.mach dst (BitVec.ofNat _ (ctz (s.mach.reg src))) }

/-- BSR: "x[dst] <- zext_W(clz(x[src]))" (R173). -/
def execBsr (dst src : RegNum) (s : State) : Host.Outcome State Fault Refusal :=
  .next { s with mach := bitOp s.mach dst (BitVec.ofNat _ (clz (s.mach.reg src))) }

/-- HAM: "x[dst] <- zext_W(popcount(x[src]))" (R174). -/
def execHam (dst src : RegNum) (s : State) : Host.Outcome State Fault Refusal :=
  .next { s with mach := bitOp s.mach dst (BitVec.ofNat _ (popcount (s.mach.reg src))) }

/-- PAR: "x[dst] <- zext_W(popcount(x[src][7:0]) mod 2)" (R175). -/
def execPar (dst src : RegNum) (s : State) : Host.Outcome State Fault Refusal :=
  .next { s with mach := bitOp s.mach dst (BitVec.ofNat _ (popcount ((s.mach.reg src).extractLsb' 0 8) % 2)) }

/-- BEX: the value in `dst`, the mask in `src` (R176). -/
def execBex (dst src : RegNum) (s : State) : Host.Outcome State Fault Refusal :=
  .next { s with mach := bitOp s.mach dst (bitExtract (s.mach.reg dst) (s.mach.reg src)) }

/-- BDP: operands as BEX (R177). -/
def execBdp (dst src : RegNum) (s : State) : Host.Outcome State Fault Refusal :=
  .next { s with mach := bitOp s.mach dst (bitDeposit (s.mach.reg dst) (s.mach.reg src)) }

end Sys2Proof.Machine
end

