-- ==== Sys2Proof/Machine/Compare.lean ====
section
/-! DEFINITION. Op 2, comparison (42_compare R145 to R147). -/

namespace Sys2Proof.Machine

/-- CMP: all four flags from `src - dst`, no register written (R146). -/
def execCmp (dst src : RegNum) (s : State) : Host.Outcome State Fault Refusal :=
  s.goto ((s.mach.setFlags (cmpFlags (s.mach.reg dst) (s.mach.reg src))).advance 4)

end Sys2Proof.Machine
end

