-- ==== Sys2Proof/Machine/Operands.lean ====
section
/-! DEFINITION. Every operand form: shift counts and bit positions (41_shift_rotate R131, 46_bit_manipulation R197), the
effective address of LEA and the loads (30_encoding R94), that of op 6 (R95), and the loaded immediates (R90). -/

namespace Sys2Proof.Machine

variable {W : Nat}

/-- `k`: 5 for XLEN = 32 and 6 for XLEN = 64 (R131, R197). -/
def countWidth (W : Nat) : Nat :=
  if W = 32 then 5 else 6

/-- The shift count or bit position: `imm16[5:0]`, "unsigned, used modulo W" (30_encoding R89), or the low `k` bits of
the register (R131, R197). -/
def Mach.countOf (m : Mach W) : Count → Nat
  | .imm n => n.toNat % W
  | .reg src => (m.reg src).toNat % 2 ^ countWidth W

/-- An `imm32` used as address or offset is sign-extended; an absent one is 0 (R91, R94). -/
def dispOf (W : Nat) (d : Option (BitVec 32)) : BitVec W :=
  match d with
  | none => 0#W
  | some v => v.signExtend W

/-- `base` of R94. -/
def Mach.baseOf (m : Mach W) (b : Option RegNum) : BitVec W :=
  match b with
  | none => 0#W
  | some r => m.reg r

/-- `index` of R94: the offset register shifted left by the count, 0 when O = 0. -/
def Mach.indexOf (m : Mach W) (o : Option RegNum) (count : Nat) : BitVec W :=
  match o with
  | none => 0#W
  | some r => m.reg r <<< count

/-- "EA = (base + index + disp) mod 2^W" (R94). -/
def Mach.effAddr (m : Mach W) (a : AddrOperand) (count : Nat) : BitVec W :=
  m.baseOf a.base + m.indexOf a.ofs count + dispOf W a.disp

/-- The shift count of LEA: `imm16[15:12]` if S = 1, else 0 (R94). -/
def scaleOf (s : Option (BitVec 4)) : Nat :=
  match s with
  | none => 0
  | some n => n.toNat

/-- The shift count of an LDR: its own when SH = 1, else 0 (R93, R94). -/
def ldrScale : LdrMode → Nat
  | .cached _ _ => 0
  | .scaled n => n.toNat

/-- The effective address of op 6: `x[dst]`, plus the offset when A = 1 (R95). -/
def Mach.bitAddr (m : Mach W) (dst : RegNum) (disp : Option (BitVec 32)) : BitVec W :=
  m.reg dst + dispOf W disp

/-- The length of an instruction with an optional `imm32`: 8 when A = 1, else 4 (R88). -/
def lenOf (disp : Option (BitVec 32)) : Nat :=
  if disp.isSome then 8 else 4

end Sys2Proof.Machine
end

