-- ==== Sys2Proof/Machine/Lea.lean ====
section
/-! DEFINITION. Op 5, address calculation (45_lea R185 to R187). -/

namespace Sys2Proof.Machine

/-- LEA: "x[dst] <- (base + index + disp) mod 2^W"; no data access, no flag (R186). -/
def execLea (dst : RegNum) (a : AddrOperand) (scale : Option (BitVec 4)) (s : State) :
    Host.Outcome State Fault Refusal :=
  s.goto ((s.mach.writeReg dst (s.mach.effAddr a (scaleOf scale))).advance (lenOf a.disp))

end Sys2Proof.Machine
end

