-- ==== Sys2Proof/Machine/Loads.lean ====
section
/-! DEFINITION. Op 7 and op 8, the loads (47_loads R215 to R229). -/

namespace Sys2Proof.Machine

variable {W : Nat}

/-- An immediate load of a value into `dst` (R216). -/
def loadImm (m : Mach W) (dst : RegNum) (v : BitVec W) (len : Nat) : Mach W :=
  (m.writeReg dst v).advance len

/-- A memory load into general register `dst`: "x[dst] <- MemRead(EA, W/8)" (R225 to R227). -/
def loadMem (m : Mach W) (dst : RegNum) (a : AddrOperand) (count : Nat) : Mach W :=
  m.orRaise <|
    match m.memRead (m.effAddr a count) with
    | .error e => .error e
    | .ok v => .ok ((m.writeReg dst v).advance (lenOf a.disp))

/-- LDX from system register `src` to general register `dst`; with `dst = 0` the value is discarded (R228). -/
def sysToReg (m : Mach W) (src dst : RegNum) : Mach W :=
  m.orRaise <|
    match m.readSys src with
    | .error e => .error e
    | .ok v => .ok ((m.writeReg dst v).advance 4)

/-- LDX from system register `src` to system register `dst`, the source checked first (R228, 60_exceptions R270). -/
def sysToSys (m : Mach W) (src dst : RegNum) : Mach W :=
  m.orRaise <|
    match m.readSys src with
    | .error e => .error e
    | .ok v =>
      match m.writeSys dst v with
      | .error e => .error e
      | .ok m' => .ok (m'.advance 4)

/-- LDX from memory to system register `dst`: "a reserved dst system register faults before the memory read" (R228,
60_exceptions R270). -/
def memToSys (m : Mach W) (a : AddrOperand) (dst : RegNum) : Mach W :=
  m.orRaise <|
    if dst ≠ m.cfg.mswIndex then .error (.reservedSystemRegister dst)
    else
      match m.memRead (m.effAddr a 0) with
      | .error e => .error e
      | .ok v =>
        match m.writeSys dst v with
        | .error e => .error e
        | .ok m' => .ok (m'.advance (lenOf a.disp))

/-- LDH: "x[dst] <- zext_W(imm16)" (R217). -/
def execLdh (dst : RegNum) (h : Halfword) (s : State) : Host.Outcome State Fault Refusal :=
  s.goto (loadImm s.mach dst (h.setWidth _) 4)

/-- LDB: "x[dst] <- zext_W(imm16[7:0])" (R219). -/
def execLdb (dst : RegNum) (b : Byte) (s : State) : Host.Outcome State Fault Refusal :=
  s.goto (loadImm s.mach dst (b.setWidth _) 4)

/-- LDI: "x[dst] <- zext_W(imm32)" (R220). -/
def execLdi (dst : RegNum) (imm32 : BitVec 32) (s : State) : Host.Outcome State Fault Refusal :=
  s.goto (loadImm s.mach dst (imm32.setWidth _) 8)

/-- LDL: the longword to `dst` and "pc <- q + 8", which is 12 or 16 bytes on (R221, 30_encoding R88). No word decodes to it
at XLEN = 32 (R221); there the value would be cut to 32 bits (log 12). -/
def execLdl (dst : RegNum) (imm64 : Longword) (s : State) : Host.Outcome State Fault Refusal :=
  s.goto (loadImm s.mach dst (imm64.setWidth _) (if ldlPad s.mach.cfg s.mach.pc then 16 else 12))

/-- LNT: a memory load that uses neither cache (R227). -/
def execLnt (dst : RegNum) (a : AddrOperand) (s : State) : Host.Outcome State Fault Refusal :=
  s.goto (loadMem s.mach dst a 0)

/-- LDR: a memory load; the L1 and L2 bits have no architectural effect (R226, 10_state R36). -/
def execLdr (dst : RegNum) (a : AddrOperand) (mode : LdrMode) (s : State) : Host.Outcome State Fault Refusal :=
  s.goto (loadMem s.mach dst a (ldrScale mode))

/-- LDX in its three forms (R228). -/
def execLdx (form : LdxForm) (s : State) : Host.Outcome State Fault Refusal :=
  match form with
  | .sysToReg src dst => s.goto (sysToReg s.mach src dst)
  | .sysToSys src dst => s.goto (sysToSys s.mach src dst)
  | .memToSys a _ _ dst => s.goto (memToSys s.mach a dst)

end Sys2Proof.Machine
end

