-- ==== Sys2Proof/Machine/Logical.lean ====
section
/-! DEFINITION. Op 0, the logical functions (40_logical R120 to R128). No flag is read or written. -/

namespace Sys2Proof.Machine

/-- The shape of the family: `dst` receives `f x[dst] x[src]`, pc advances by 4 (R120). -/
def logical {W : Nat} (m : Mach W) (dst src : RegNum) (f : BitVec W → BitVec W → BitVec W) : Mach W :=
  (m.writeReg dst (f (m.reg dst) (m.reg src))).advance 4

/-- NOT: "x[dst] <- ~x[dst]"; it has no source (R121). -/
def execNot (dst : RegNum) (s : State) : Host.Outcome State Fault Refusal :=
  s.goto (logical s.mach dst 0#4 (fun a _ => ~~~a))

/-- OR: "x[dst] <- x[dst] | x[src]" (R122). -/
def execOr (dst src : RegNum) (s : State) : Host.Outcome State Fault Refusal :=
  s.goto (logical s.mach dst src (fun a b => a ||| b))

/-- AND: "x[dst] <- x[dst] & x[src]" (R123). -/
def execAnd (dst src : RegNum) (s : State) : Host.Outcome State Fault Refusal :=
  s.goto (logical s.mach dst src (fun a b => a &&& b))

/-- XOR: "x[dst] <- x[dst] ^ x[src]" (R124). -/
def execXor (dst src : RegNum) (s : State) : Host.Outcome State Fault Refusal :=
  s.goto (logical s.mach dst src (fun a b => a ^^^ b))

/-- NOR: "x[dst] <- ~(x[dst] | x[src])" (R125). -/
def execNor (dst src : RegNum) (s : State) : Host.Outcome State Fault Refusal :=
  s.goto (logical s.mach dst src (fun a b => ~~~(a ||| b)))

/-- XNOR: "x[dst] <- ~(x[dst] ^ x[src])" (R126). -/
def execXnor (dst src : RegNum) (s : State) : Host.Outcome State Fault Refusal :=
  s.goto (logical s.mach dst src (fun a b => ~~~(a ^^^ b)))

/-- NAND: "x[dst] <- ~(x[dst] & x[src])" (R127). -/
def execNand (dst src : RegNum) (s : State) : Host.Outcome State Fault Refusal :=
  s.goto (logical s.mach dst src (fun a b => ~~~(a &&& b)))

end Sys2Proof.Machine
end

