-- ==== Sys2Proof/Machine/MemBits.lean ====
section
/-! DEFINITION. Op 6, bit manipulation in memory (46_bit_manipulation R195 to R207). One step is the whole
read-modify-write (20_memory R59). -/

namespace Sys2Proof.Machine

variable {W : Nat}

/-- `bit = 1 << p` (R197). -/
def Mach.bitOf (m : Mach W) (p : Count) : BitVec W :=
  1#W <<< m.countOf p

/-- The common pseudocode of R207: `f old bit` is the new memory-word and whether it is written. The old word goes to
`ret`, unless that is 0 (R201). -/
def memBits (m : Mach W) (dst : RegNum) (p : Count) (disp : Option (BitVec 32)) (ret : RegNum)
    (f : BitVec W → BitVec W → BitVec W × Bool) : Mach W :=
  m.orRaise <|
    match m.memRead (m.bitAddr dst disp) with
    | .error e => .error e
    | .ok old =>
      let r := f old (m.bitOf p)
      match (if r.2 then m.memWrite (m.bitAddr dst disp) r.1 else .ok m) with
      | .error e => .error e
      | .ok m' => .ok ((m'.writeReg ret old).advance (lenOf disp))

/-- BST: "new = old | bit; do_write = true" (R198). -/
def execBst (dst : RegNum) (p : Count) (disp : Option (BitVec 32)) (ret : RegNum) (s : State) :
    Host.Outcome State Fault Refusal :=
  s.goto (memBits s.mach dst p disp ret (fun old bit => (old ||| bit, true)))

/-- BCL: "new = old & ~bit; do_write = true" (R199). -/
def execBcl (dst : RegNum) (p : Count) (disp : Option (BitVec 32)) (ret : RegNum) (s : State) :
    Host.Outcome State Fault Refusal :=
  s.goto (memBits s.mach dst p disp ret (fun old bit => (old &&& ~~~bit, true)))

/-- BFL: "new = old ^ bit; do_write = true" (R200). -/
def execBfl (dst : RegNum) (p : Count) (disp : Option (BitVec 32)) (ret : RegNum) (s : State) :
    Host.Outcome State Fault Refusal :=
  s.goto (memBits s.mach dst p disp ret (fun old bit => (old ^^^ bit, true)))

/-- BTS: "new = old | bit; do_write = (old & bit = 0)" (R202). -/
def execBts (dst : RegNum) (p : Count) (disp : Option (BitVec 32)) (ret : RegNum) (s : State) :
    Host.Outcome State Fault Refusal :=
  s.goto (memBits s.mach dst p disp ret (fun old bit => (old ||| bit, decide (old &&& bit = 0#_))))

/-- BTC: "new = old & ~bit; do_write = (old & bit != 0)" (R203). -/
def execBtc (dst : RegNum) (p : Count) (disp : Option (BitVec 32)) (ret : RegNum) (s : State) :
    Host.Outcome State Fault Refusal :=
  s.goto (memBits s.mach dst p disp ret (fun old bit => (old &&& ~~~bit, decide (old &&& bit ≠ 0#_))))

/-- BTF: "new = old ^ bit; do_write = true" (R204). -/
def execBtf (dst : RegNum) (p : Count) (disp : Option (BitVec 32)) (ret : RegNum) (s : State) :
    Host.Outcome State Fault Refusal :=
  s.goto (memBits s.mach dst p disp ret (fun old bit => (old ^^^ bit, true)))

end Sys2Proof.Machine
end

