-- ==== Sys2Proof/Machine/Shift.lean ====
section
/-! DEFINITION. Op 1, shift and rotate (41_shift_rotate R130 to R140). Only RCL and RCR read and write CF (R140). -/

namespace Sys2Proof.Machine

variable {W : Nat}

/-- ROL by `n` (R135). -/
def rotl (v : BitVec W) (n : Nat) : BitVec W :=
  if n = 0 then v else v <<< n ||| v >>> (W - n)

/-- ROR by `n` (R136). -/
def rotr (v : BitVec W) (n : Nat) : BitVec W :=
  if n = 0 then v else v >>> n ||| v <<< (W - n)

/-- The W+1-bit value "T = MSW.CF ++ x[dst]", CF its top bit (R137). -/
def withCarry (cf : Bool) (v : BitVec W) : BitVec (W + 1) :=
  BitVec.cons cf v

/-- A shift or plain rotation: `dst` receives `f x[dst] n`, no flag changes (R130, R131, R140). -/
def shiftPlain (m : Mach W) (dst : RegNum) (c : Count) (f : BitVec W → Nat → BitVec W) : Mach W :=
  (m.writeReg dst (f (m.reg dst) (m.countOf c))).advance 4

/-- A rotation through carry: T becomes `f T n`; `dst` receives its low W bits and CF its bit W (R137, R138). -/
def shiftCarry (m : Mach W) (dst : RegNum) (c : Count) (f : BitVec (W + 1) → Nat → BitVec (W + 1)) : Mach W :=
  let t := f (withCarry m.flags.CF (m.reg dst)) (m.countOf c)
  ((m.writeReg dst (t.setWidth W)).setFlags { m.flags with CF := t.getLsbD W }).advance 4

/-- SLL: "x[dst] <- (x[dst] << n)[W-1:0]" (R132). -/
def execSll (dst : RegNum) (c : Count) (s : State) : Host.Outcome State Fault Refusal :=
  s.goto (shiftPlain s.mach dst c (fun v n => v <<< n))

/-- SRL: "x[dst] <- x[dst] >>u n" (R133). -/
def execSrl (dst : RegNum) (c : Count) (s : State) : Host.Outcome State Fault Refusal :=
  s.goto (shiftPlain s.mach dst c (fun v n => v >>> n))

/-- SAR: "x[dst] <- x[dst] >>s n" (R134). -/
def execSar (dst : RegNum) (c : Count) (s : State) : Host.Outcome State Fault Refusal :=
  s.goto (shiftPlain s.mach dst c (fun v n => v.sshiftRight n))

/-- ROL (R135). -/
def execRol (dst : RegNum) (c : Count) (s : State) : Host.Outcome State Fault Refusal :=
  s.goto (shiftPlain s.mach dst c rotl)

/-- ROR (R136). -/
def execRor (dst : RegNum) (c : Count) (s : State) : Host.Outcome State Fault Refusal :=
  s.goto (shiftPlain s.mach dst c rotr)

/-- RCL: the W+1-bit value rotated left (R137). -/
def execRcl (dst : RegNum) (c : Count) (s : State) : Host.Outcome State Fault Refusal :=
  s.goto (shiftCarry s.mach dst c rotl)

/-- RCR: the W+1-bit value rotated right (R138). -/
def execRcr (dst : RegNum) (c : Count) (s : State) : Host.Outcome State Fault Refusal :=
  s.goto (shiftCarry s.mach dst c rotr)

end Sys2Proof.Machine
end

