-- ==== Sys2Proof/Machine/Dispatch.lean ====
section
/-! DEFINITION. The dispatch: one arm per constructor of Instr, each one call of its meaning. -/

namespace Sys2Proof.Machine

def exec (i : Instr) (s : State) : Host.Outcome State Fault Refusal :=
  match i with
  -- Logical.lean
  | .not d => Sys2Proof.Machine.execNot d s
  | .or d r => Sys2Proof.Machine.execOr d r s
  | .and d r => Sys2Proof.Machine.execAnd d r s
  | .xor d r => Sys2Proof.Machine.execXor d r s
  | .nor d r => Sys2Proof.Machine.execNor d r s
  | .xnor d r => Sys2Proof.Machine.execXnor d r s
  | .nand d r => Sys2Proof.Machine.execNand d r s
  -- Shift.lean
  | .sll d c => Sys2Proof.Machine.execSll d c s
  | .srl d c => Sys2Proof.Machine.execSrl d c s
  | .sar d c => Sys2Proof.Machine.execSar d c s
  | .rol d c => Sys2Proof.Machine.execRol d c s
  | .ror d c => Sys2Proof.Machine.execRor d c s
  | .rcl d c => Sys2Proof.Machine.execRcl d c s
  | .rcr d c => Sys2Proof.Machine.execRcr d c s
  -- Compare.lean
  | .cmp d r => Sys2Proof.Machine.execCmp d r s
  -- Arith.lean
  | .inc d r mu => Sys2Proof.Machine.execInc d r mu s
  | .dec d r mu => Sys2Proof.Machine.execDec d r mu s
  | .add d r mu => Sys2Proof.Machine.execAdd d r mu s
  | .sub d r mu => Sys2Proof.Machine.execSub d r mu s
  | .mul d r mu => Sys2Proof.Machine.execMul d r mu s
  | .mhi d r mu => Sys2Proof.Machine.execMhi d r mu s
  | .irp d r mu => Sys2Proof.Machine.execIrp d r mu s
  | .div d r mu => Sys2Proof.Machine.execDiv d r mu s
  | .rem d r mu => Sys2Proof.Machine.execRem d r mu s
  -- BitOps.lean
  | .bsf d r => Sys2Proof.Machine.execBsf d r s
  | .bsr d r => Sys2Proof.Machine.execBsr d r s
  | .ham d r => Sys2Proof.Machine.execHam d r s
  | .par d r => Sys2Proof.Machine.execPar d r s
  | .bex d r => Sys2Proof.Machine.execBex d r s
  | .bdp d r => Sys2Proof.Machine.execBdp d r s
  -- Lea.lean
  | .lea d a k => Sys2Proof.Machine.execLea d a k s
  -- MemBits.lean
  | .bst d p o r => Sys2Proof.Machine.execBst d p o r s
  | .bcl d p o r => Sys2Proof.Machine.execBcl d p o r s
  | .bfl d p o r => Sys2Proof.Machine.execBfl d p o r s
  | .bts d p o r => Sys2Proof.Machine.execBts d p o r s
  | .btc d p o r => Sys2Proof.Machine.execBtc d p o r s
  | .btf d p o r => Sys2Proof.Machine.execBtf d p o r s
  -- Loads.lean
  | .ldh d h => Sys2Proof.Machine.execLdh d h s
  | .ldb d b => Sys2Proof.Machine.execLdb d b s
  | .ldi d v => Sys2Proof.Machine.execLdi d v s
  | .ldl d v => Sys2Proof.Machine.execLdl d v s
  | .lnt d a => Sys2Proof.Machine.execLnt d a s
  | .ldr d a md => Sys2Proof.Machine.execLdr d a md s
  | .ldx f => Sys2Proof.Machine.execLdx f s

end Sys2Proof.Machine
end

