-- ==== Sys2Proof/Machine/Step.lean ====
section
/-! DEFINITION. The step of the single agent (60_exceptions R285), and where the host places an instruction. -/

namespace Sys2Proof.Machine

/-- One step (R285): nothing once the run has stopped; `Ended` at END_PC (70_reset R306); else fetch, decode, execute. A
fault of the fetch or of the decoding is raised like any other (R262). -/
def step (s : State) : Host.Outcome State Fault Refusal :=
  match s.mach.status with
  | .running =>
    if s.mach.atEnd then s.goto { s.mach with status := .ended }
    else
      match s.mach.fetchInstr s.xlen with
      | .error f => s.goto (s.mach.raise f)
      | .ok i => exec i s
  | .faulted _ _ => .next s
  | .ended => .next s

/-- The instruction of `nbits` bits `w` (every bit above them 0) stored at `pc`, where the next step fetches it. -/
def State.withFetchWord (s : State) (nbits w : Nat) : State :=
  { s with mach := s.mach.storeInstr (w % 2 ^ nbits) }

end Sys2Proof.Machine
end

