-- ==== Sys2Proof/Safety.lean ====
section
/-! DEFINITION. The terms claims are made in: the invariant of the machine, what a safe run is, the effect of an
instruction together with its frame, and what the instruction's operands select, said apart from the meanings. -/

namespace Sys2Proof.Machine

variable {W : Nat}

/-! ### The invariant and safe runs -/

/-- What every step keeps: memory in its canonical form and inside the address space (20_memory R50), register 0 at 0
(10_state R22), `pc` a multiple of 4 (R25, 20_memory R55), the parameters as 00_scope R5 admits them, and a run status
that agrees with `pc` (R37, 60_exceptions R262, 70_reset R306). -/
structure Mach.Inv (m : Mach W) : Prop where
  mem_wf : m.mem.wf = true
  mem_range : ∀ c ∈ m.mem, c.1 < 2 ^ W
  reg_zero : m.gpr[0] = 0#W
  pc_aligned : m.pc.toNat % 4 = 0
  cfg_wf : m.cfg.wf = true
  faulted_pc : ∀ f p, m.status = .faulted f p → p = m.pc.toNat
  ended_pc : m.status = .ended → m.cfg.endPc = some m.pc

/-- The invariant of a state. -/
def State.Inv (s : State) : Prop := s.mach.Inv

/-- The machine has stopped on a fault (10_state R37). -/
def State.Faulted (s : State) : Prop :=
  ∃ f p, s.mach.status = .faulted f p

/-- "A proof about a program is a proof that it does not reach Faulted" (60_exceptions R262): no state within `k` steps
of `s` is faulted. -/
def SafeFor (k : Nat) (s : State) : Prop :=
  ∀ j ≤ k, ∀ t : State, Host.Core.run Sys2Proof.core j s = .next t → ¬ t.Faulted

/-! ### Effects and frames -/

/-- `m'` is `m` after an instruction of `len` bytes that wrote `v` to general register `d`, left the flags at `f`, and
did nothing else. With `d = 0` no register changes (10_state R22). -/
structure Effect (m m' : Mach W) (d : RegNum) (v : BitVec W) (f : Flags) (len : Nat) : Prop where
  regs : ∀ r, m'.reg r = if r = d ∧ d ≠ 0#4 then v else m.reg r
  flags : m'.flags = f
  mem : ∀ a, m'.mem.read a = m.mem.read a
  pc : m'.pc = m.pc + BitVec.ofNat W len
  status : m'.status = m.status
  cfg : m'.cfg = m.cfg
  draws : m'.freeDraws = m.freeDraws

/-- As `Effect`, for an instruction that leaves CF and OF unspecified when `free` holds (43_arithmetic R160): then
nothing is said of those two and of the model's draw counter; otherwise they do not change. ZF and LT never do. -/
structure FreeEffect (m m' : Mach W) (d : RegNum) (v : BitVec W) (free : Bool) : Prop where
  regs : ∀ r, m'.reg r = if r = d ∧ d ≠ 0#4 then v else m.reg r
  zf : m'.flags.ZF = m.flags.ZF
  lt : m'.flags.LT = m.flags.LT
  kept : free = false → m'.flags = m.flags ∧ m'.freeDraws = m.freeDraws
  mem : ∀ a, m'.mem.read a = m.mem.read a
  pc : m'.pc = m.pc + BitVec.ofNat W 4
  status : m'.status = m.status
  cfg : m'.cfg = m.cfg

/-- `m'` is `m` after an op 6 instruction of `len` bytes on the memory-word at `ea`: the word is `new`, register `ret`
holds `old` unless `ret = 0` (46_bit_manipulation R201), and nothing else changed, no byte outside the word among it. -/
structure StoreEffect (m m' : Mach W) (ea new : BitVec W) (ret : RegNum) (old : BitVec W) (len : Nat) : Prop where
  regs : ∀ r, m'.reg r = if r = ret ∧ ret ≠ 0#4 then old else m.reg r
  word : m'.wordAt ea.toNat = new
  mem : ∀ a, a < ea.toNat ∨ ea.toNat + W / 8 ≤ a → m'.mem.read a = m.mem.read a
  flags : m'.flags = m.flags
  pc : m'.pc = m.pc + BitVec.ofNat W len
  status : m'.status = m.status
  cfg : m'.cfg = m.cfg
  draws : m'.freeDraws = m.freeDraws

/-- "No register, flag, memory byte or hidden state changes, and pc keeps the address of the faulting instruction. The
run status becomes Faulted(fault, pc)" (60_exceptions R262). -/
def Faults (m m' : Mach W) (f : Fault) : Prop :=
  m' = { m with status := .faulted f m.pc.toNat }

/-- A data access of W/8 bytes at `a` is aligned and inside MEM_VALID (20_memory R52, R54). -/
def Accessible (m : Mach W) (a : BitVec W) : Prop :=
  a.toNat % (W / 8) = 0 ∧ ∀ k < W / 8, m.cfg.valid (a.toNat + k) = true

/-! ### What the operands select -/

/-- The count or position that an operand selects, a number below W: the immediate modulo W, or the register's low 5 or
6 bits, which is its value modulo W (30_encoding R89, 41_shift_rotate R131, 46_bit_manipulation R197). -/
def countAmount (m : Mach W) : Count → Nat
  | .imm n => n.toNat % W
  | .reg r => (m.reg r).toNat % W

/-- The bit of the W+1-bit value "CF ++ v" at place `i`, CF at place W (41_shift_rotate R137). -/
def carryBit (cf : Bool) (v : BitVec W) (i : Nat) : Bool :=
  if i = W then cf else v.getLsbD i

/-- How many of the places below `n` satisfy `p`. -/
def countBelow (n : Nat) (p : Nat → Bool) : Nat :=
  (List.range n).countP p

/-! ### Classes of instructions -/

/-- The six instructions of op 6, "the only instructions in scope that write memory" (46_bit_manipulation). -/
def isMemBits : Instr → Bool
  | .bst _ _ _ _ | .bcl _ _ _ _ | .bfl _ _ _ _ | .bts _ _ _ _ | .btc _ _ _ _ | .btf _ _ _ _ => true
  | .not _ | .or _ _ | .and _ _ | .xor _ _ | .nor _ _ | .xnor _ _ | .nand _ _ => false
  | .sll _ _ | .srl _ _ | .sar _ _ | .rol _ _ | .ror _ _ | .rcl _ _ | .rcr _ _ | .cmp _ _ => false
  | .inc _ _ _ | .dec _ _ _ | .add _ _ _ | .sub _ _ _ | .mul _ _ _ | .mhi _ _ _ | .irp _ _ _ | .div _ _ _
  | .rem _ _ _ => false
  | .bsf _ _ | .bsr _ _ | .ham _ _ | .par _ _ | .bex _ _ | .bdp _ _ | .lea _ _ _ => false
  | .ldh _ _ | .ldb _ _ | .ldi _ _ | .ldl _ _ | .lnt _ _ | .ldr _ _ _ | .ldx _ => false

/-- Which flags an instruction may write: the "Writes" column of 10_state R28's table, each flag of the answer true when
the table lists it. -/
def flagsWritten : Instr → Flags
  | .cmp _ _ | .ldx (.sysToSys _ _) | .ldx (.memToSys _ _ _ _) => ⟨true, true, true, true⟩
  | .inc _ _ mu | .dec _ _ mu | .add _ _ mu | .sub _ _ mu | .mul _ _ mu | .mhi _ _ mu | .div _ _ mu
  | .rem _ _ mu => ⟨false, false, mu.M, mu.M⟩
  | .rcl _ _ | .rcr _ _ => ⟨false, false, true, false⟩
  | .not _ | .or _ _ | .and _ _ | .xor _ _ | .nor _ _ | .xnor _ _ | .nand _ _ => ⟨false, false, false, false⟩
  | .sll _ _ | .srl _ _ | .sar _ _ | .rol _ _ | .ror _ _ | .irp _ _ _ => ⟨false, false, false, false⟩
  | .bsf _ _ | .bsr _ _ | .ham _ _ | .par _ _ | .bex _ _ | .bdp _ _ | .lea _ _ _ => ⟨false, false, false, false⟩
  | .bst _ _ _ _ | .bcl _ _ _ _ | .bfl _ _ _ _ | .bts _ _ _ _ | .btc _ _ _ _ | .btf _ _ _ _ =>
    ⟨false, false, false, false⟩
  | .ldh _ _ | .ldb _ _ | .ldi _ _ | .ldl _ _ | .lnt _ _ | .ldr _ _ _ | .ldx (.sysToReg _ _) =>
    ⟨false, false, false, false⟩

/-- Which flags an instruction may read: the "Reads" column of 10_state R28's table. -/
def flagsRead : Instr → Flags
  | .ldx (.sysToReg _ _) | .ldx (.sysToSys _ _) => ⟨true, true, true, true⟩
  | .rcl _ _ | .rcr _ _ => ⟨false, false, true, false⟩
  | .not _ | .or _ _ | .and _ _ | .xor _ _ | .nor _ _ | .xnor _ _ | .nand _ _ => ⟨false, false, false, false⟩
  | .sll _ _ | .srl _ _ | .sar _ _ | .rol _ _ | .ror _ _ | .cmp _ _ => ⟨false, false, false, false⟩
  | .inc _ _ _ | .dec _ _ _ | .add _ _ _ | .sub _ _ _ | .mul _ _ _ | .mhi _ _ _ | .irp _ _ _ | .div _ _ _
  | .rem _ _ _ => ⟨false, false, false, false⟩
  | .bsf _ _ | .bsr _ _ | .ham _ _ | .par _ _ | .bex _ _ | .bdp _ _ | .lea _ _ _ => ⟨false, false, false, false⟩
  | .bst _ _ _ _ | .bcl _ _ _ _ | .bfl _ _ _ _ | .bts _ _ _ _ | .btc _ _ _ _ | .btf _ _ _ _ =>
    ⟨false, false, false, false⟩
  | .ldh _ _ | .ldb _ _ | .ldi _ _ | .ldl _ _ | .lnt _ _ | .ldr _ _ _ | .ldx (.memToSys _ _ _ _) =>
    ⟨false, false, false, false⟩

/-- The general register an instruction writes, by 10_state R23's table; 0 where it writes none. -/
def regWritten : Instr → RegNum
  | .not d | .or d _ | .and d _ | .xor d _ | .nor d _ | .xnor d _ | .nand d _ => d
  | .sll d _ | .srl d _ | .sar d _ | .rol d _ | .ror d _ | .rcl d _ | .rcr d _ => d
  | .cmp _ _ | .irp _ _ _ => 0#4
  | .inc d _ _ | .dec d _ _ | .add d _ _ | .sub d _ _ | .mul d _ _ | .mhi d _ _ | .div d _ _ | .rem d _ _ => d
  | .bsf d _ | .bsr d _ | .ham d _ | .par d _ | .bex d _ | .bdp d _ | .lea d _ _ => d
  | .bst _ _ _ r | .bcl _ _ _ r | .bfl _ _ _ r | .bts _ _ _ r | .btc _ _ _ r | .btf _ _ _ r => r
  | .ldh d _ | .ldb d _ | .ldi d _ | .ldl d _ | .lnt d _ | .ldr d _ _ | .ldx (.sysToReg _ d) => d
  | .ldx (.sysToSys _ _) | .ldx (.memToSys _ _ _ _) => 0#4

/-! ### The bytes the next step fetches -/

/-- `n` bytes from `pc` upward, each address modulo 2^W. -/
def Mach.codeBytes (m : Mach W) (n : Nat) : List Byte :=
  (List.range n).map (fun k => m.mem.read ((m.pc.toNat + k) % 2 ^ W))

end Sys2Proof.Machine
end

