-- ==== Sys2Proof/Certificates/Slice0/Obligations.lean ====
section
/-! DEFINITION. The statements about the Voima model, from the numbered rules of spec/. `Mach x.bits` is the machine at
the width `x` of registers; every statement holds at XLEN = 32 and at XLEN = 64 and for all parameters of 00_scope R5,
unless it says otherwise. -/

open Sys2Proof Sys2Proof.Machine

/-! ### Decoding and encoding -/

/-- Decoding the bytes of a well-formed instruction gives it back, with what follows it, in either byte order, with or
without LDL's pad word and under either setting of STRICT_RESERVED (30_encoding R81, R86, R92, R93, R100, R101). -/
def Obligations.EncodedInstructionDecodesToItself : Prop :=
  ∀ (x : Xlen) (strict : Bool) (e : Endian) (pad : Bool) (i : Instr) (rest : List Byte),
    WellFormed x i → decodeBytes x strict e pad (encodeBytes e pad i ++ rest) = .ok (i, rest)

/-- What the decoder answers is well-formed and takes exactly the bytes of its length (R88, R97). -/
def Obligations.DecodedInstructionIsWellFormed : Prop :=
  ∀ (x : Xlen) (strict : Bool) (e : Endian) (pad : Bool) (bs rest : List Byte) (i : Instr),
    decodeBytes x strict e pad bs = .ok (i, rest) → WellFormed x i ∧ bs.length = i.len pad + rest.length

/-- With STRICT_RESERVED, the opcode map decides decoding, in both directions: a word that decodes selects, mask, match
and extra conditions, a row of the map, that of the instruction it decodes to; and a word that selects a row decodes, to
an instruction of that row (R101: "a word w selects the row when w & mask = match and the row's extra conditions
hold"). -/
def Obligations.DecodedWordMatchesItsOpcodeRow : Prop :=
  ∀ (x : Xlen) (w : InstrWord),
    (∀ i, decodeWord x true w = .ok i →
      ∃ r ∈ opcodeMap, r.selects x w = true ∧ opcodeRow i = (r.mask, r.value)) ∧
    (∀ r ∈ opcodeMap, r.selects x w = true →
      ∃ i, decodeWord x true w = .ok i ∧ opcodeRow i = (r.mask, r.value))

/-- A field whose gate bit is 0 is ignored: two words that agree outside the fields the first one's gates switch off are
both refused, for the same reason, or decode to instructions that take the same extension data and have the same effect
in every state (30_encoding R92, last paragraph of R97, 47_loads R225). -/
def Obligations.GatedFieldsAreIgnored : Prop :=
  ∀ (x : Xlen) (strict : Bool) (w v : InstrWord), (w ^^^ v) &&& ~~~gatedOff w = 0#32 →
    (∀ e, decodeWord x strict w = .error e → decodeWord x strict v = .error e) ∧
    (∀ i, decodeWord x strict w = .ok i → ∃ j, decodeWord x strict v = .ok j ∧ j.extKind = i.extKind ∧
      ∀ (ext : Longword) (s : State), exec (j.withExt ext) s = exec (i.withExt ext) s)

/-- Words the family files write out decode to the instructions they stand for (examples of R121, R122, R132, R146, R151,
R172, R186, R198, R217, R219, R226, R227, R228). -/
def Obligations.RuleWordsDecode : Prop :=
  decodeWord .x64 true 0x00000200#32 = .ok (.not 2) ∧
  decodeWord .x64 true 0x01003200#32 = .ok (.or 2 3) ∧
  decodeWord .x64 true 0x00440201#32 = .ok (.sll 2 (.imm 4)) ∧
  decodeWord .x64 true 0x00003202#32 = .ok (.cmp 2 3) ∧
  decodeWord .x64 true 0x00013203#32 = .ok (.inc 2 3 ⟨true, false⟩) ∧
  decodeWord .x64 true 0x03003204#32 = .ok (.bsf 2 3) ∧
  decodeWord .x64 true 0x30B43205#32 = .ok (.lea 2 ⟨some 3, some 4, none⟩ (some 3)) ∧
  decodeWord .x64 true 0x50400206#32 = .ok (.bst 2 (.imm 0) none 5) ∧
  decodeWord .x64 true 0x12340207#32 = .ok (.ldh 2 0x1234) ∧
  decodeWord .x64 true 0x02AB0208#32 = .ok (.ldb 2 0xAB) ∧
  decodeWord .x64 true 0x20103208#32 = .ok (.ldr 2 ⟨some 3, none, none⟩ (.cached true false)) ∧
  decodeWord .x64 true 0x00103208#32 = .ok (.lnt 2 ⟨some 3, none, none⟩) ∧
  decodeWord .x64 true 0x10103008#32 = .ok (.ldx (.memToSys ⟨some 3, none, none⟩ false false 0))

/-- STRICT_RESERVED = false only adds decodings: a word the strict decoder accepts keeps its instruction (R97). -/
def Obligations.RelaxedDecoderKeepsStrictDecodings : Prop :=
  ∀ (x : Xlen) (w : InstrWord) (i : Instr), decodeWord x true w = .ok i → decodeWord x false w = .ok i

/-- A reserved word raises IllegalInstruction with no other effect, before any extension word is fetched. Reserved is
every word the decoder refuses; under either setting of STRICT_RESERVED a word with an `op` or an ID that no table
assigns, a register out of its range, or an LDL at XLEN = 32; and with STRICT_RESERVED also a word with a non-zero N/A
field or must-be-0 bit or in a form of op 8 that is not listed. With STRICT_RESERVED no other word is reserved
(60_exceptions R265, 30_encoding R96 and R97 items 1 to 6, 41_shift_rotate R139, 43_arithmetic R162, 45_lea R187,
46_bit_manipulation R205, 47_loads R229; the IDs of op 0 and op 4 as in R128 and R178). -/
def Obligations.UnassignedEncodingsRaiseIllegalInstruction : Prop :=
  ∀ (x : Xlen) (m : Mach x.bits) (w : InstrWord),
    m.status = .running → m.cfg.endPc ≠ some m.pc → m.fetchWord m.pc = .ok w →
    let raises := ∃ m', step ⟨x, m⟩ = .next ⟨x, m'⟩ ∧ Faults m m' (.illegalInstruction m.pc.toNat w)
    (∀ e, decodeWord x m.cfg.strictReserved w = .error e → raises) ∧
    ((let op := (w.extractLsb' 0 8).toNat
      let id := (w.extractLsb' 24 4).toNat
      9 ≤ op ∨ (op = 0 ∧ 7 ≤ id) ∨ (op = 1 ∧ 7 ≤ id) ∨ (op = 3 ∧ 9 ≤ id) ∨
        (op = 4 ∧ id ∉ [3, 4, 5, 6, 10, 11]) ∨ (op = 5 ∧ 1 ≤ id) ∨ (op = 6 ∧ 6 ≤ id)) → raises) ∧
    (reservedAlways x w = true → raises) ∧
    (m.cfg.strictReserved = true →
      (reservedWord x w = true → raises) ∧ (reservedWord x w = false → ∃ i, decodeWord x true w = .ok i))

/-! ### The step -/

/-- A step runs the decoded instruction: when the bytes at `pc` decode to `i` and every byte that is fetched (all of them
but LDL's pad word, R86) is in MEM_VALID, the step is `exec i` (60_exceptions R285). -/
def Obligations.StepRunsTheDecodedInstruction : Prop :=
  ∀ (x : Xlen) (m : Mach x.bits) (i : Instr) (rest : List Byte),
    m.status = .running → m.cfg.endPc ≠ some m.pc → m.pc.toNat % 4 = 0 →
    decodeBytes x m.cfg.strictReserved m.cfg.endian (ldlPad m.cfg m.pc) (m.codeBytes 16) = .ok (i, rest) →
    (∀ k < i.len (ldlPad m.cfg m.pc),
      (i.extKind = .long ∧ ldlPad m.cfg m.pc = true ∧ 4 ≤ k ∧ k < 8) ∨
        m.cfg.valid ((m.pc.toNat + k) % 2 ^ x.bits) = true) →
    step ⟨x, m⟩ = exec i ⟨x, m⟩

/-- An instruction placed at the reset machine's `pc` is the first one it runs (R285, 70_reset R300). The default
parameters, among them that MEM_VALID is every address, are the model's reading of R5 (log 1, log 2). -/
def Obligations.PlacedInstructionRunsFirstAfterReset : Prop :=
  ∀ (nbits w : Nat) (i : Instr), decodeTableWord nbits w = some i →
    step (State.reset.withFetchWord nbits w) = exec i (State.reset.withFetchWord nbits w)

/-- A misaligned `pc` raises MisalignedFetch; a run that starts aligned stays aligned; `imm32` is fetched at `pc + 4`
(20_memory R55). -/
def Obligations.AlignedRunsStayAligned : Prop :=
  ∀ (x : Xlen) (m : Mach x.bits),
    (m.status = .running → m.cfg.endPc ≠ some m.pc → m.pc.toNat % 4 ≠ 0 →
      ∃ m', step ⟨x, m⟩ = .next ⟨x, m'⟩ ∧ Faults m m' (.misalignedFetch m.pc.toNat)) ∧
    (m.pc.toNat % 4 = 0 → ∀ (k : Nat) (m' : Mach x.bits),
      Host.Core.run core k (⟨x, m⟩ : State) = .next (⟨x, m'⟩ : State) → m'.pc.toNat % 4 = 0) ∧
    (∀ w, m.fetchWord (m.pc + 4#_) = .ok w → m.fetchExt .word = .ok (w.setWidth 64))

/-- A fetch outside MEM_VALID raises AccessFault of its own address: of the instruction word at `pc`, of `imm32` at
`pc + 4`, and of LDL's longword at `q`, the lower word first (60_exceptions R267, R270, 30_encoding R85, R86). That the word at `q` comes first even where the other
one wraps to address 0 is the model's choice (log 24). -/
def Obligations.UnmappedFetchRaisesAccessFault : Prop :=
  ∀ (x : Xlen) (m : Mach x.bits),
    m.status = .running → m.cfg.endPc ≠ some m.pc → m.pc.toNat % 4 = 0 →
    ((∃ k < 4, m.cfg.valid (m.pc.toNat + k) = false) →
      ∃ m', step ⟨x, m⟩ = .next ⟨x, m'⟩ ∧ Faults m m' (.accessFault m.pc.toNat)) ∧
    (∀ w i, m.fetchWord m.pc = .ok w → decodeWord x m.cfg.strictReserved w = .ok i →
      (i.extKind = .word → (∃ k < 4, m.cfg.valid ((m.pc + 4#_).toNat + k) = false) →
        ∃ m', step ⟨x, m⟩ = .next ⟨x, m'⟩ ∧ Faults m m' (.accessFault (m.pc + 4#_).toNat)) ∧
      (i.extKind = .long →
        ((∃ k < 4, m.cfg.valid ((ldlAddr m.cfg m.pc).toNat + k) = false) →
          ∃ m', step ⟨x, m⟩ = .next ⟨x, m'⟩ ∧ Faults m m' (.accessFault (ldlAddr m.cfg m.pc).toNat)) ∧
        ((∀ k < 4, m.cfg.valid ((ldlAddr m.cfg m.pc).toNat + k) = true) →
          (∃ k < 4, m.cfg.valid ((ldlAddr m.cfg m.pc + 4#_).toNat + k) = false) →
          ∃ m', step ⟨x, m⟩ = .next ⟨x, m'⟩ ∧ Faults m m' (.accessFault (ldlAddr m.cfg m.pc + 4#_).toNat))))

/-- A machine that has stopped does not change, and a running one at END_PC becomes Ended and nothing else
(60_exceptions R285, 70_reset R306, 10_state R37). -/
def Obligations.RunStatusDecidesTheStep : Prop :=
  ∀ (x : Xlen) (m : Mach x.bits),
    (m.status ≠ .running → step ⟨x, m⟩ = .next ⟨x, m⟩) ∧
    (m.status = .running → m.cfg.endPc = some m.pc → step ⟨x, m⟩ = .next ⟨x, { m with status := .ended }⟩)

/-- Every step answers a next state, at the same width and with the same parameters: no step refuses and none ends in the
host's fault outcome (60_exceptions R285, R303; that a raised fault is a next state is the model's reading of R262,
log 6). -/
def Obligations.StepAlwaysAnswersANextState : Prop :=
  ∀ (x : Xlen) (m : Mach x.bits), ∃ m', step ⟨x, m⟩ = .next ⟨x, m'⟩ ∧ m'.cfg = m.cfg

/-- Faults are precise: a step that leaves a running machine Faulted has changed nothing but the run status, and the
status records the `pc` of the faulting instruction; from then on nothing changes (60_exceptions R262). -/
def Obligations.FaultsArePrecise : Prop :=
  ∀ (x : Xlen) (m m' : Mach x.bits) (f : Fault) (p : Nat),
    m.status = .running → step ⟨x, m⟩ = .next ⟨x, m'⟩ → m'.status = .faulted f p →
    Faults m m' f ∧ ∀ k, Host.Core.run core k (⟨x, m'⟩ : State) = .next (⟨x, m'⟩ : State)

/-! ### Invariants and rules over all instructions -/

/-- Every step keeps the invariant: canonical memory inside the address space, register 0 at 0, an aligned `pc`, legal
parameters, and a run status that agrees with `pc` (10_state R22, R25, R37, 20_memory R50, R55; the canonical form is the
model's own). -/
def Obligations.StepKeepsTheInvariant : Prop :=
  ∀ s t : State, s.Inv → step s = .next t → t.Inv

/-- The machine right after reset meets the invariant. -/
def Obligations.ResetMeetsTheInvariant : Prop :=
  State.reset.Inv

/-- So does every machine the host boots with legal parameters and images inside the address space (70_reset R302,
R303). -/
def Obligations.BootMeetsTheInvariant : Prop :=
  ∀ (x : Xlen) (cfg : Params x.bits) (images : List (Nat × List Byte)),
    cfg.wf = true → (∀ im ∈ images, im.1 + im.2.length ≤ 2 ^ x.bits) → (boot x cfg images).Inv

/-- What reset leaves: `pc = RESET_PC`, `x[0] = 0`, run status Running, MSW's bits W-1:4 at 0, and the memory the host
loaded (70_reset R300, 10_state R38). Nothing is said of x[1]..x[15] and the flags, which R38 leaves unspecified. -/
def Obligations.ResetLeavesTheSpecifiedState : Prop :=
  ∀ (x : Xlen) (cfg : Params x.bits) (image : Memory),
    (Mach.reset cfg image).pc = cfg.resetPc ∧ (Mach.reset cfg image).reg 0#4 = 0#_ ∧
    (Mach.reset cfg image).status = .running ∧ (Mach.reset cfg image).mem = image ∧
    (∀ k, 4 ≤ k → (mswValue x.bits (Mach.reset cfg image).flags).getLsbD k = false) ∧
    (Params.default x.bits).resetPc = 0#_

/-- "The only instructions that write memory are the six of OP = 6" (48_stores R245, 20_memory R58): any other leaves every
byte. -/
def Obligations.OnlyBitInstructionsWriteMemory : Prop :=
  ∀ (x : Xlen) (m m' : Mach x.bits) (i : Instr),
    isMemBits i = false → exec i ⟨x, m⟩ = .next ⟨x, m'⟩ → ∀ a, m'.mem.read a = m.mem.read a

/-- "A flag not listed for an instruction is left unchanged by it" (10_state R28). -/
def Obligations.OnlyListedFlagsAreWritten : Prop :=
  ∀ (x : Xlen) (m m' : Mach x.bits) (i : Instr), exec i ⟨x, m⟩ = .next ⟨x, m'⟩ →
    ((flagsWritten i).ZF = false → m'.flags.ZF = m.flags.ZF) ∧
    ((flagsWritten i).LT = false → m'.flags.LT = m.flags.LT) ∧
    ((flagsWritten i).CF = false → m'.flags.CF = m.flags.CF) ∧
    ((flagsWritten i).OF = false → m'.flags.OF = m.flags.OF)

/-- A flag that R28 does not list as read has no influence: two machines that differ only in such flags differ, after the
instruction, in nothing but flags (10_state R28, 42_compare R147). -/
def Obligations.UnreadFlagsDoNotInfluence : Prop :=
  ∀ (x : Xlen) (m m1 m2 : Mach x.bits) (f : Flags) (i : Instr),
    ((flagsRead i).ZF = true → f.ZF = m.flags.ZF) → ((flagsRead i).LT = true → f.LT = m.flags.LT) →
    ((flagsRead i).CF = true → f.CF = m.flags.CF) → ((flagsRead i).OF = true → f.OF = m.flags.OF) →
    exec i ⟨x, m⟩ = .next ⟨x, m1⟩ → exec i ⟨x, { m with flags := f }⟩ = .next ⟨x, m2⟩ →
    m2 = { m1 with flags := m2.flags }

/-- An instruction changes no general register but the one R23 lists as written. -/
def Obligations.OnlyTheListedRegisterIsWritten : Prop :=
  ∀ (x : Xlen) (m m' : Mach x.bits) (i : Instr), exec i ⟨x, m⟩ = .next ⟨x, m'⟩ →
    ∀ r, r ≠ regWritten i → m'.reg r = m.reg r

/-- "Every instruction that completes without a fault ends with pc <- (pc + len) mod 2^W, where len is 4, 8, 12 or 16", and
no instruction sets `pc` to anything else: one that faults leaves it (10_state R26, 30_encoding R88). -/
def Obligations.PcMovesOnlyByTheLength : Prop :=
  ∀ (x : Xlen) (m : Mach x.bits) (i : Instr), ∃ m', exec i ⟨x, m⟩ = .next ⟨x, m'⟩ ∧
    ((m'.status = m.status ∧ m'.pc.toNat = (m.pc.toNat + i.len (ldlPad m.cfg m.pc)) % 2 ^ x.bits) ∨
      ∃ f, Faults m m' f) ∧
    (i.len (ldlPad m.cfg m.pc) = 4 ∨ i.len (ldlPad m.cfg m.pc) = 8 ∨ i.len (ldlPad m.cfg m.pc) = 12 ∨
      i.len (ldlPad m.cfg m.pc) = 16)

/-- "x[0] is 0 in every state, and a write whose target is register 0 is discarded" (10_state R22). -/
def Obligations.RegisterZeroReadsZero : Prop :=
  ∀ (x : Xlen) (m : Mach x.bits) (v : BitVec x.bits),
    m.reg 0#4 = 0#_ ∧ m.writeReg 0#4 v = m ∧
    ∀ d r, (m.writeReg d v).reg r = if r = d ∧ d ≠ 0#4 then v else m.reg r

/-! ### Op 0 to op 2 -/

/-- The logical functions, bit by bit, each writing `dst` alone (40_logical R120 to R127). -/
def Obligations.LogicalFunctionResults : Prop :=
  ∀ (x : Xlen) (m : Mach x.bits) (d r : RegNum),
    let a := m.reg d
    let b := m.reg r
    let result (i : Instr) (f : Bool → Bool → Bool) : Prop :=
      ∃ m' v, exec i ⟨x, m⟩ = .next ⟨x, m'⟩ ∧ Effect m m' d v m.flags 4 ∧
        ∀ k < x.bits, v.getLsbD k = f (a.getLsbD k) (b.getLsbD k)
    result (.not d) (fun p _ => !p) ∧ result (.or d r) (fun p q => p || q) ∧
    result (.and d r) (fun p q => p && q) ∧ result (.xor d r) (fun p q => p != q) ∧
    result (.nor d r) (fun p q => !(p || q)) ∧ result (.xnor d r) (fun p q => p == q) ∧
    result (.nand d r) (fun p q => !(p && q))

/-- SLL, SRL and SAR, bit by bit: zeros enter from below, zeros enter at the top, copies of bit W-1 enter at the top; no
flag changes (41_shift_rotate R130 to R134, R140). -/
def Obligations.ShiftResults : Prop :=
  ∀ (x : Xlen) (m : Mach x.bits) (d : RegNum) (c : Count),
    let v := m.reg d
    let n := countAmount m c
    (∃ m' u, exec (.sll d c) ⟨x, m⟩ = .next ⟨x, m'⟩ ∧ Effect m m' d u m.flags 4 ∧
      ∀ k < x.bits, u.getLsbD k = if k < n then false else v.getLsbD (k - n)) ∧
    (∃ m' u, exec (.srl d c) ⟨x, m⟩ = .next ⟨x, m'⟩ ∧ Effect m m' d u m.flags 4 ∧
      ∀ k < x.bits, u.getLsbD k = if k + n < x.bits then v.getLsbD (k + n) else false) ∧
    (∃ m' u, exec (.sar d c) ⟨x, m⟩ = .next ⟨x, m'⟩ ∧ Effect m m' d u m.flags 4 ∧
      ∀ k < x.bits, u.getLsbD k = if k + n < x.bits then v.getLsbD (k + n) else v.getLsbD (x.bits - 1))

/-- ROL and ROR move bit `k` of the register to place `k + n` and `k - n` modulo W; no flag changes (41_shift_rotate R135,
R136, R140). -/
def Obligations.RotateResults : Prop :=
  ∀ (x : Xlen) (m : Mach x.bits) (d : RegNum) (c : Count),
    let v := m.reg d
    let n := countAmount m c
    (∃ m' u, exec (.rol d c) ⟨x, m⟩ = .next ⟨x, m'⟩ ∧ Effect m m' d u m.flags 4 ∧
      ∀ k < x.bits, u.getLsbD ((k + n) % x.bits) = v.getLsbD k) ∧
    (∃ m' u, exec (.ror d c) ⟨x, m⟩ = .next ⟨x, m'⟩ ∧ Effect m m' d u m.flags 4 ∧
      ∀ k < x.bits, u.getLsbD k = v.getLsbD ((k + n) % x.bits))

/-- RCL and RCR do the same to the W+1-bit value "CF ++ x[dst]"; ZF, LT and OF do not change (41_shift_rotate R137, R138,
R140). -/
def Obligations.CarryRotateResults : Prop :=
  ∀ (x : Xlen) (m : Mach x.bits) (d : RegNum) (c : Count),
    let v := m.reg d
    let n := countAmount m c
    (∃ m' u cf, exec (.rcl d c) ⟨x, m⟩ = .next ⟨x, m'⟩ ∧ Effect m m' d u { m.flags with CF := cf } 4 ∧
      ∀ k < x.bits + 1, carryBit cf u ((k + n) % (x.bits + 1)) = carryBit m.flags.CF v k) ∧
    (∃ m' u cf, exec (.rcr d c) ⟨x, m⟩ = .next ⟨x, m'⟩ ∧ Effect m m' d u { m.flags with CF := cf } 4 ∧
      ∀ k < x.bits + 1, carryBit cf u k = carryBit m.flags.CF v ((k + n) % (x.bits + 1)))

/-- "ROL by n undoes ROR by n" and "RCR by n undoes RCL by n": with the same immediate count, or the same count register
other than `dst`, the second gives back the registers and the flags (41_shift_rotate R135, R138). -/
def Obligations.RotationsUndoEachOther : Prop :=
  ∀ (x : Xlen) (m m1 m2 : Mach x.bits) (d : RegNum) (c : Count), c ≠ .reg d →
    ((exec (.ror d c) ⟨x, m⟩ = .next ⟨x, m1⟩ ∧ exec (.rol d c) ⟨x, m1⟩ = .next ⟨x, m2⟩) ∨
      (exec (.rcl d c) ⟨x, m⟩ = .next ⟨x, m1⟩ ∧ exec (.rcr d c) ⟨x, m1⟩ = .next ⟨x, m2⟩)) →
    d ≠ 0#4 → (∀ r, m2.reg r = m.reg r) ∧ m2.flags = m.flags

/-- CMP sets all four flags from `b - a`, with `a = x[dst]` and `b = x[src]`: ZF when equal, LT when `b` is less signed, CF
its borrow, OF its signed overflow; `LT = d[W-1] xor OF`; no register is written (42_compare R146). -/
def Obligations.CompareSetsTheFourFlags : Prop :=
  ∀ (x : Xlen) (m : Mach x.bits) (d r : RegNum),
    let a := m.reg d
    let b := m.reg r
    ∃ m' f, exec (.cmp d r) ⟨x, m⟩ = .next ⟨x, m'⟩ ∧ Effect m m' 0#4 0#_ f 4 ∧
      (f.ZF = true ↔ a.toNat = b.toNat) ∧
      (f.LT = true ↔ b.toInt < a.toInt) ∧
      (f.CF = true ↔ b.toNat < a.toNat) ∧
      (f.OF = true ↔ b.toInt - a.toInt < -(2 ^ (x.bits - 1)) ∨ 2 ^ (x.bits - 1) ≤ b.toInt - a.toInt) ∧
      f.LT = ((b - a).getLsbD (x.bits - 1) != f.OF)

/-! ### Op 3 -/

/-- INC and DEC write `x[src]` plus and minus 1, modulo 2^W, to `dst`; with M = 1, CF is the carry or borrow and OF the
signed overflow; with M = 0 no flag changes (43_arithmetic R150 to R152). -/
def Obligations.IncrementDecrementResults : Prop :=
  ∀ (x : Xlen) (m : Mach x.bits) (d r : RegNum) (mu : ArithBits),
    let a := m.reg r
    (∃ m' v cf ov, exec (.inc d r mu) ⟨x, m⟩ = .next ⟨x, m'⟩ ∧
      Effect m m' d v (if mu.M then { m.flags with CF := cf, OF := ov } else m.flags) 4 ∧
      v.toNat = (a.toNat + 1) % 2 ^ x.bits ∧ (cf = true ↔ 2 ^ x.bits ≤ a.toNat + 1) ∧
      (ov = true ↔ 2 ^ (x.bits - 1) ≤ a.toInt + 1)) ∧
    (∃ m' v cf ov, exec (.dec d r mu) ⟨x, m⟩ = .next ⟨x, m'⟩ ∧
      Effect m m' d v (if mu.M then { m.flags with CF := cf, OF := ov } else m.flags) 4 ∧
      v.toNat = (a.toNat + (2 ^ x.bits - 1)) % 2 ^ x.bits ∧ (cf = true ↔ a.toNat < 1) ∧
      (ov = true ↔ a.toInt - 1 < -(2 ^ (x.bits - 1))))

/-- ADD and SUB: the sum and the difference `dst - src` modulo 2^W; with M = 1, CF is the unsigned carry or borrow and OF
the signed overflow, whatever U is; with M = 0 no flag changes (43_arithmetic R150, R153, R154, R161). -/
def Obligations.AddSubtractResults : Prop :=
  ∀ (x : Xlen) (m : Mach x.bits) (d r : RegNum) (mu : ArithBits),
    let a := m.reg d
    let b := m.reg r
    (∃ m' v cf ov, exec (.add d r mu) ⟨x, m⟩ = .next ⟨x, m'⟩ ∧
      Effect m m' d v (if mu.M then { m.flags with CF := cf, OF := ov } else m.flags) 4 ∧
      v.toNat = (a.toNat + b.toNat) % 2 ^ x.bits ∧ (cf = true ↔ 2 ^ x.bits ≤ a.toNat + b.toNat) ∧
      (ov = true ↔ a.toInt + b.toInt < -(2 ^ (x.bits - 1)) ∨ 2 ^ (x.bits - 1) ≤ a.toInt + b.toInt)) ∧
    (∃ m' v cf ov, exec (.sub d r mu) ⟨x, m⟩ = .next ⟨x, m'⟩ ∧
      Effect m m' d v (if mu.M then { m.flags with CF := cf, OF := ov } else m.flags) 4 ∧
      v.toNat = (a.toNat + 2 ^ x.bits - b.toNat) % 2 ^ x.bits ∧ (cf = true ↔ a.toNat < b.toNat) ∧
      (ov = true ↔ a.toInt - b.toInt < -(2 ^ (x.bits - 1)) ∨ 2 ^ (x.bits - 1) ≤ a.toInt - b.toInt))

/-- MUL: the low W bits of the product, the same for both U; with M = 1, CF and OF both say that the product that U
selects does not fit in W bits (43_arithmetic R155, R161). -/
def Obligations.MultiplyResults : Prop :=
  ∀ (x : Xlen) (m : Mach x.bits) (d r : RegNum) (mu : ArithBits),
    let a := m.reg d
    let b := m.reg r
    ∃ m' v ov, exec (.mul d r mu) ⟨x, m⟩ = .next ⟨x, m'⟩ ∧
      Effect m m' d v (if mu.M then { m.flags with CF := ov, OF := ov } else m.flags) 4 ∧
      v.toNat = a.toNat * b.toNat % 2 ^ x.bits ∧
      (mu.U = true → (ov = true ↔ 2 ^ x.bits ≤ a.toNat * b.toNat)) ∧
      (mu.U = false →
        (ov = true ↔ a.toInt * b.toInt < -(2 ^ (x.bits - 1)) ∨ 2 ^ (x.bits - 1) - 1 < a.toInt * b.toInt))

/-- MHI: the high word of the 2W-bit product that U selects; with M = 1 nothing is said of CF and OF, with M = 0 no flag
changes (43_arithmetic R156, R160). -/
def Obligations.HighWordResults : Prop :=
  ∀ (x : Xlen) (m : Mach x.bits) (d r : RegNum) (mu : ArithBits),
    let a := m.reg d
    let b := m.reg r
    ∃ m' v, exec (.mhi d r mu) ⟨x, m⟩ = .next ⟨x, m'⟩ ∧ FreeEffect m m' d v mu.M ∧
      (mu.U = true → a.toNat * b.toNat = 2 ^ x.bits * v.toNat + a.toNat * b.toNat % 2 ^ x.bits) ∧
      (mu.U = false → a.toInt * b.toInt = 2 ^ x.bits * v.toInt + a.toInt * b.toInt % 2 ^ x.bits)

/-- DIV and REM with a divisor that is not 0: the quotient rounded toward zero, reduced modulo 2^W (the one quotient that
does not fit is the most negative value by -1), and the remainder with the sign of the dividend; with M = 1 nothing is
said of CF and OF (43_arithmetic R158, R159, R160). -/
def Obligations.DivisionResults : Prop :=
  ∀ (x : Xlen) (m : Mach x.bits) (d r : RegNum) (mu : ArithBits),
    let a := m.reg d
    let b := m.reg r
    b ≠ 0#_ →
    (∃ m' q, exec (.div d r mu) ⟨x, m⟩ = .next ⟨x, m'⟩ ∧ FreeEffect m m' d q mu.M ∧
      (mu.U = true → q.toNat = a.toNat / b.toNat) ∧
      (mu.U = false →
        q.toInt = if a.toInt = -(2 ^ (x.bits - 1)) ∧ b.toInt = -1 then a.toInt else a.toInt.tdiv b.toInt)) ∧
    (∃ m' e, exec (.rem d r mu) ⟨x, m⟩ = .next ⟨x, m'⟩ ∧ FreeEffect m m' d e mu.M ∧
      (mu.U = true → e.toNat = a.toNat % b.toNat) ∧
      (mu.U = false → e.toInt = a.toInt.tmod b.toInt))

/-- "DIV and REM of the same operands satisfy a = b * q + r with |r| < |b|" (43_arithmetic R159), unsigned and signed,
modulo 2^W. -/
def Obligations.QuotientAndRemainderRecombine : Prop :=
  ∀ (x : Xlen) (m m1 m2 : Mach x.bits) (d r : RegNum) (mu : ArithBits),
    d ≠ 0#4 → m.reg r ≠ 0#_ →
    exec (.div d r mu) ⟨x, m⟩ = .next ⟨x, m1⟩ → exec (.rem d r mu) ⟨x, m⟩ = .next ⟨x, m2⟩ →
    m.reg d = m.reg r * m1.reg d + m2.reg d ∧
    (mu.U = true → (m2.reg d).toNat < (m.reg r).toNat) ∧
    (mu.U = false → (m2.reg d).toInt.natAbs < (m.reg r).toInt.natAbs)

/-- DivideByZero is raised by DIV and REM, with U = 0 or U = 1, when `x[src] = 0`, so always when `src = 0`; the most
negative value by -1 is no fault: the quotient wraps to it and the remainder is 0 (60_exceptions R269). -/
def Obligations.ZeroDivisorRaises : Prop :=
  ∀ (x : Xlen) (m : Mach x.bits) (d r : RegNum) (mu : ArithBits),
    (m.reg r = 0#_ ∨ r = 0#4 →
      (∃ m', exec (.div d r mu) ⟨x, m⟩ = .next ⟨x, m'⟩ ∧ Faults m m' (.divideByZero m.pc.toNat)) ∧
      (∃ m', exec (.rem d r mu) ⟨x, m⟩ = .next ⟨x, m'⟩ ∧ Faults m m' (.divideByZero m.pc.toNat))) ∧
    (mu.U = false → (m.reg d).toInt = -(2 ^ (x.bits - 1)) → (m.reg r).toInt = -1 →
      (∃ m', exec (.div d r mu) ⟨x, m⟩ = .next ⟨x, m'⟩ ∧ FreeEffect m m' d (m.reg d) mu.M) ∧
      (∃ m', exec (.rem d r mu) ⟨x, m⟩ = .next ⟨x, m'⟩ ∧ FreeEffect m m' d 0#_ mu.M))

/-- The hints: IRP; LDX from MSW to general register 0; and the L1 and L2 bits of a load, which change nothing it does. A
reserved system register faults even there, and a memory load with `dst = 0` is no hint but reserved (30_encoding R98). -/
def Obligations.HintsOnlyAdvancePc : Prop :=
  ∀ (x : Xlen) (m : Mach x.bits),
    (∀ d r mu, exec (.irp d r mu) ⟨x, m⟩ = .next ⟨x, { m with pc := m.pc + 4#_ }⟩) ∧
    exec (.ldx (.sysToReg m.cfg.mswIndex 0#4)) ⟨x, m⟩ = .next ⟨x, { m with pc := m.pc + 4#_ }⟩ ∧
    (∀ n, n ≠ m.cfg.mswIndex → ∃ m', exec (.ldx (.sysToReg n 0#4)) ⟨x, m⟩ = .next ⟨x, m'⟩ ∧
      Faults m m' (.reservedSystemRegister n)) ∧
    (∀ d a l1 l2, exec (.ldr d a (.cached l1 l2)) ⟨x, m⟩ = exec (.lnt d a) ⟨x, m⟩) ∧
    (∀ d a l1 l2, exec (.ldx (.memToSys a l1 l2 d)) ⟨x, m⟩ = exec (.ldx (.memToSys a false false d)) ⟨x, m⟩) ∧
    (∀ strict a mode, (∃ e, decodeWord x strict (encodeWord (.lnt 0#4 a)) = .error e) ∧
      (∃ e, decodeWord x strict (encodeWord (.ldr 0#4 a mode)) = .error e))

/-! ### Op 4 and op 5 -/

/-- BSF and BSR: the number of zero bits below the lowest one bit, and above the highest one bit, W for a zero source
(44_bit_operations R170, R172, R173). -/
def Obligations.BitScanResults : Prop :=
  ∀ (x : Xlen) (m : Mach x.bits) (d r : RegNum),
    let v := m.reg r
    (∃ m' u, exec (.bsf d r) ⟨x, m⟩ = .next ⟨x, m'⟩ ∧ Effect m m' d u m.flags 4 ∧ u.toNat ≤ x.bits ∧
      (∀ k < u.toNat, v.getLsbD k = false) ∧ (u.toNat < x.bits → v.getLsbD u.toNat = true)) ∧
    (∃ m' u, exec (.bsr d r) ⟨x, m⟩ = .next ⟨x, m'⟩ ∧ Effect m m' d u m.flags 4 ∧ u.toNat ≤ x.bits ∧
      (∀ k < u.toNat, v.getLsbD (x.bits - 1 - k) = false) ∧
      (u.toNat < x.bits → v.getLsbD (x.bits - 1 - u.toNat) = true))

/-- HAM: the number of one bits. PAR: 1 when the low byte has an odd number of them, else 0 (44_bit_operations R174,
R175). -/
def Obligations.BitCountResults : Prop :=
  ∀ (x : Xlen) (m : Mach x.bits) (d r : RegNum),
    let v := m.reg r
    (∃ m' u, exec (.ham d r) ⟨x, m⟩ = .next ⟨x, m'⟩ ∧ Effect m m' d u m.flags 4 ∧
      u.toNat = countBelow x.bits v.getLsbD) ∧
    (∃ m' u, exec (.par d r) ⟨x, m⟩ = .next ⟨x, m'⟩ ∧ Effect m m' d u m.flags 4 ∧
      u.toNat = countBelow 8 v.getLsbD % 2)

/-- BEX packs, and BDP spreads, in order: the bit of the value that stands at a mask place goes to (comes from) the place
whose number is how many mask bits lie below; every other bit of the result is 0 (44_bit_operations R176, R177). -/
def Obligations.ExtractAndDepositResults : Prop :=
  ∀ (x : Xlen) (m : Mach x.bits) (d r : RegNum),
    let v := m.reg d
    let k := m.reg r
    (∃ m' u, exec (.bex d r) ⟨x, m⟩ = .next ⟨x, m'⟩ ∧ Effect m m' d u m.flags 4 ∧
      (∀ i < x.bits, k.getLsbD i = true → u.getLsbD (countBelow i k.getLsbD) = v.getLsbD i) ∧
      (∀ j, countBelow x.bits k.getLsbD ≤ j → u.getLsbD j = false)) ∧
    (∃ m' u, exec (.bdp d r) ⟨x, m⟩ = .next ⟨x, m'⟩ ∧ Effect m m' d u m.flags 4 ∧
      (∀ i < x.bits, k.getLsbD i = true → u.getLsbD i = v.getLsbD (countBelow i k.getLsbD)) ∧
      (∀ i, k.getLsbD i = false → u.getLsbD i = false))

/-- "BDP undoes BEX on the masked bits: BDP(BEX(v, m), m) = v & m" (44_bit_operations R177): the two instructions one after
the other, with the mask in another register. -/
def Obligations.DepositUndoesExtract : Prop :=
  ∀ (x : Xlen) (m m1 m2 : Mach x.bits) (d r : RegNum), d ≠ 0#4 → r ≠ d →
    exec (.bex d r) ⟨x, m⟩ = .next ⟨x, m1⟩ → exec (.bdp d r) ⟨x, m1⟩ = .next ⟨x, m2⟩ →
    m2.reg d = m.reg d &&& m.reg r

/-- LEA: base, plus the offset register times 2^count, plus the sign-extended `imm32`, each 0 when its bit is off, modulo
2^W; no data access, no flag; 8 bytes with an `imm32`, else 4 (45_lea R186, 30_encoding R91, R94). -/
def Obligations.LeaResults : Prop :=
  ∀ (x : Xlen) (m : Mach x.bits) (d : RegNum) (a : AddrOperand) (s : Option (BitVec 4)),
    ∃ m' v, exec (.lea d a s) ⟨x, m⟩ = .next ⟨x, m'⟩ ∧
      Effect m m' d v m.flags (if a.disp = none then 4 else 8) ∧
      (v.toNat : Int) =
        (((a.base.elim 0 (fun r => (m.reg r).toNat) : Nat) : Int) +
          ((a.ofs.elim 0 (fun r => (m.reg r).toNat * 2 ^ (s.elim 0 BitVec.toNat)) : Nat) : Int) +
          a.disp.elim 0 BitVec.toInt) % 2 ^ x.bits

/-! ### Op 6 -/

/-- The six instructions of op 6 on an accessible memory-word: bit `p` of the word is set, cleared or flipped and every
other bit of it stays (for BTS and BTC too: they do not write where the bit is already so); the whole old word goes to the
return register, unless that is 0; nothing else changes, no other byte of memory among it. The word is at `EA`, the address
the meaning uses (46_bit_manipulation R195 to R204, R207). -/
def Obligations.BitManipulationResults : Prop :=
  ∀ (x : Xlen) (m : Mach x.bits) (d : RegNum) (p : Count) (o : Option (BitVec 32)) (ret : RegNum),
    let ea := m.bitAddr d o
    let old := m.wordAt ea.toNat
    let result (i : Instr) (f : Bool → Bool) : Prop :=
      ∃ m' new, exec i ⟨x, m⟩ = .next ⟨x, m'⟩ ∧
        StoreEffect m m' ea new ret old (if o = none then 4 else 8) ∧
        ∀ k < x.bits, new.getLsbD k = if k = countAmount m p then f (old.getLsbD k) else old.getLsbD k
    Accessible m ea →
      result (.bst d p o ret) (fun _ => true) ∧ result (.bcl d p o ret) (fun _ => false) ∧
      result (.bfl d p o ret) (fun b => !b) ∧ result (.bts d p o ret) (fun _ => true) ∧
      result (.btc d p o ret) (fun _ => false) ∧ result (.btf d p o ret) (fun b => !b)

/-- The address of op 6 is `x[dst]` plus the sign-extended `imm32`, modulo 2^W (46_bit_manipulation R196, 30_encoding R91,
R95). -/
def Obligations.BitAddressIsBasePlusOffset : Prop :=
  ∀ (x : Xlen) (m : Mach x.bits) (d : RegNum) (o : Option (BitVec 32)),
    ((m.bitAddr d o).toNat : Int) = ((m.reg d).toNat + o.elim 0 BitVec.toInt) % 2 ^ x.bits

/-! ### Loads and system registers -/

/-- LDH, LDB, LDI zero-extend their immediate; LDL (XLEN = 64) loads its longword, "pc <- q + 8" (47_loads R217, R219 to
R221, 30_encoding R90). -/
def Obligations.ImmediateLoadResults : Prop :=
  ∀ (x : Xlen) (m : Mach x.bits) (d : RegNum),
    (∀ h, ∃ m' v, exec (.ldh d h) ⟨x, m⟩ = .next ⟨x, m'⟩ ∧ Effect m m' d v m.flags 4 ∧ v.toNat = h.toNat) ∧
    (∀ b, ∃ m' v, exec (.ldb d b) ⟨x, m⟩ = .next ⟨x, m'⟩ ∧ Effect m m' d v m.flags 4 ∧ v.toNat = b.toNat) ∧
    (∀ i, ∃ m' v, exec (.ldi d i) ⟨x, m⟩ = .next ⟨x, m'⟩ ∧ Effect m m' d v m.flags 8 ∧ v.toNat = i.toNat) ∧
    (∀ l, x = .x64 → ∃ m' v, exec (.ldl d l) ⟨x, m⟩ = .next ⟨x, m'⟩ ∧
      Effect m m' d v m.flags (if m.cfg.ldlAlign = true ∧ (m.pc + 4#_).toNat % 8 ≠ 0 then 16 else 12) ∧
      v.toNat = l.toNat ∧ m'.pc = ldlAddr m.cfg m.pc + 8#_)

/-- LNT and LDR load the memory-word at the effective address, an LDR with a shift count for its offset register too; no
flag and no byte of memory changes (47_loads R225 to R227, 30_encoding R94). -/
def Obligations.MemoryLoadResults : Prop :=
  ∀ (x : Xlen) (m : Mach x.bits) (d : RegNum) (a : AddrOperand),
    let len := if a.disp = none then 4 else 8
    (Accessible m (m.effAddr a 0) →
      (∃ m', exec (.lnt d a) ⟨x, m⟩ = .next ⟨x, m'⟩ ∧
        Effect m m' d (m.wordAt (m.effAddr a 0).toNat) m.flags len) ∧
      (∀ l1 l2, ∃ m', exec (.ldr d a (.cached l1 l2)) ⟨x, m⟩ = .next ⟨x, m'⟩ ∧
        Effect m m' d (m.wordAt (m.effAddr a 0).toNat) m.flags len)) ∧
    (∀ n : BitVec 4, Accessible m (m.effAddr a n.toNat) →
      ∃ m', exec (.ldr d a (.scaled n)) ⟨x, m⟩ = .next ⟨x, m'⟩ ∧
        Effect m m' d (m.wordAt (m.effAddr a n.toNat).toNat) m.flags len)

/-- The effective address of a memory-form load is what LEA puts in its `dst` for the same operands: of LNT, of an LDR
with cache bits and of an LDX from memory with no shift count, and of a scaled LDR with its count (30_encoding R94,
45_lea R186, 47_loads R225 to R228). -/
def Obligations.LeaComputesTheLoadAddress : Prop :=
  ∀ (x : Xlen) (m m1 m2 : Mach x.bits) (d e : RegNum) (a : AddrOperand) (s : Option (BitVec 4)), d ≠ 0#4 → e ≠ 0#4 →
    exec (.lea e a s) ⟨x, m⟩ = .next ⟨x, m1⟩ → Accessible m (m1.reg e) →
    let word := m.wordAt (m1.reg e).toNat
    let loads (i : Instr) : Prop := exec i ⟨x, m⟩ = .next ⟨x, m2⟩ → m2.reg d = word
    (∀ n, s = some n → loads (.ldr d a (.scaled n))) ∧
    (s = none →
      loads (.lnt d a) ∧ (∀ l1 l2, loads (.ldr d a (.cached l1 l2))) ∧
      ∀ l1 l2, exec (.ldx (.memToSys a l1 l2 m.cfg.mswIndex)) ⟨x, m⟩ = .next ⟨x, m2⟩ →
        m2.flags = ⟨word.getLsbD 0, word.getLsbD 1, word.getLsbD 2, word.getLsbD 3⟩)

/-- The forms of LDX on MSW: to a general register, `ZF + 2 LT + 4 CF + 8 OF` (discarded when `dst = 0`); to MSW itself, no
change but `pc`; from memory, the four flags from bits 3:0 of the word (47_loads R228, 10_state R27, R31). -/
def Obligations.LdxResults : Prop :=
  ∀ (x : Xlen) (m : Mach x.bits),
    let msw := m.cfg.mswIndex
    (∀ d, ∃ m' v, exec (.ldx (.sysToReg msw d)) ⟨x, m⟩ = .next ⟨x, m'⟩ ∧ Effect m m' d v m.flags 4 ∧
      v.toNat = m.flags.ZF.toNat + 2 * m.flags.LT.toNat + 4 * m.flags.CF.toNat + 8 * m.flags.OF.toNat) ∧
    (∃ m', exec (.ldx (.sysToSys msw msw)) ⟨x, m⟩ = .next ⟨x, m'⟩ ∧ Effect m m' 0#4 0#_ m.flags 4) ∧
    (∀ a l1 l2, Accessible m (m.effAddr a 0) →
      ∃ m' f, exec (.ldx (.memToSys a l1 l2 msw)) ⟨x, m⟩ = .next ⟨x, m'⟩ ∧
        Effect m m' 0#4 0#_ f (if a.disp = none then 4 else 8) ∧
        (let v := m.wordAt (m.effAddr a 0).toNat
         f.ZF = v.getLsbD 0 ∧ f.LT = v.getLsbD 1 ∧ f.CF = v.getLsbD 2 ∧ f.OF = v.getLsbD 3))

/-- Reading MSW gives its four flags in bits 3:0 and 0 above, writing it takes bits 3:0 and ignores the rest, and any other
system register raises ReservedSystemRegister on a read and on a write (10_state R31, R32). -/
def Obligations.SystemRegisterAccess : Prop :=
  ∀ (x : Xlen) (m : Mach x.bits) (n : RegNum) (v : BitVec x.bits),
    (n = m.cfg.mswIndex →
      (∃ u, m.readSys n = .ok u ∧ ∀ k, u.getLsbD k =
        if k = 0 then m.flags.ZF else if k = 1 then m.flags.LT else if k = 2 then m.flags.CF
        else if k = 3 then m.flags.OF else false) ∧
      m.writeSys n v = .ok { m with flags := ⟨v.getLsbD 0, v.getLsbD 1, v.getLsbD 2, v.getLsbD 3⟩ }) ∧
    (n ≠ m.cfg.mswIndex →
      m.readSys n = .error (.reservedSystemRegister n) ∧ m.writeSys n v = .error (.reservedSystemRegister n))

/-- LDX raises ReservedSystemRegister when it names a system register other than MSW as source or destination; "when both
are reserved the source register is reported"; a reserved destination faults before the memory read, whatever the address
(60_exceptions R268, R270, 47_loads R228). -/
def Obligations.ReservedSystemRegisterRaises : Prop :=
  ∀ (x : Xlen) (m : Mach x.bits) (s d : RegNum),
    (s ≠ m.cfg.mswIndex →
      (∃ m', exec (.ldx (.sysToReg s d)) ⟨x, m⟩ = .next ⟨x, m'⟩ ∧ Faults m m' (.reservedSystemRegister s)) ∧
      (∃ m', exec (.ldx (.sysToSys s d)) ⟨x, m⟩ = .next ⟨x, m'⟩ ∧ Faults m m' (.reservedSystemRegister s))) ∧
    (d ≠ m.cfg.mswIndex →
      (∃ m', exec (.ldx (.sysToSys m.cfg.mswIndex d)) ⟨x, m⟩ = .next ⟨x, m'⟩ ∧
        Faults m m' (.reservedSystemRegister d)) ∧
      (∀ a l1 l2, ∃ m', exec (.ldx (.memToSys a l1 l2 d)) ⟨x, m⟩ = .next ⟨x, m'⟩ ∧
        Faults m m' (.reservedSystemRegister d)))

/-- A data access at an address that is no multiple of W/8 raises MisalignedAccess and changes nothing: the loads from
memory and all of op 6, BTS and BTC whether or not they would have written. LEA never raises it (20_memory R54,
60_exceptions R266). -/
def Obligations.MisalignedDataAccessRaises : Prop :=
  ∀ (x : Xlen) (m : Mach x.bits) (d : RegNum) (a : AddrOperand) (p : Count) (o : Option (BitVec 32)) (ret : RegNum),
    let raises (i : Instr) (ea : BitVec x.bits) : Prop :=
      ea.toNat % (x.bits / 8) ≠ 0 →
        ∃ m', exec i ⟨x, m⟩ = .next ⟨x, m'⟩ ∧ Faults m m' (.misalignedAccess ea.toNat)
    raises (.lnt d a) (m.effAddr a 0) ∧ (∀ l1 l2, raises (.ldr d a (.cached l1 l2)) (m.effAddr a 0)) ∧
    (∀ n : BitVec 4, raises (.ldr d a (.scaled n)) (m.effAddr a n.toNat)) ∧
    (∀ l1 l2, raises (.ldx (.memToSys a l1 l2 m.cfg.mswIndex)) (m.effAddr a 0)) ∧
    raises (.bst d p o ret) (m.bitAddr d o) ∧ raises (.bcl d p o ret) (m.bitAddr d o) ∧
    raises (.bfl d p o ret) (m.bitAddr d o) ∧ raises (.bts d p o ret) (m.bitAddr d o) ∧
    raises (.btc d p o ret) (m.bitAddr d o) ∧ raises (.btf d p o ret) (m.bitAddr d o) ∧
    (∀ s, ∃ m', exec (.lea d a s) ⟨x, m⟩ = .next ⟨x, m'⟩ ∧ m'.status = m.status)

/-- An aligned data access that touches a byte outside MEM_VALID raises AccessFault of its address and changes nothing
(20_memory R50, R52, 60_exceptions R267, R270). -/
def Obligations.UnmappedDataAccessRaises : Prop :=
  ∀ (x : Xlen) (m : Mach x.bits) (d : RegNum) (a : AddrOperand) (p : Count) (o : Option (BitVec 32)) (ret : RegNum),
    let raises (i : Instr) (ea : BitVec x.bits) : Prop :=
      ea.toNat % (x.bits / 8) = 0 → (∃ k < x.bits / 8, m.cfg.valid (ea.toNat + k) = false) →
        ∃ m', exec i ⟨x, m⟩ = .next ⟨x, m'⟩ ∧ Faults m m' (.accessFault ea.toNat)
    raises (.lnt d a) (m.effAddr a 0) ∧ (∀ l1 l2, raises (.ldr d a (.cached l1 l2)) (m.effAddr a 0)) ∧
    (∀ n : BitVec 4, raises (.ldr d a (.scaled n)) (m.effAddr a n.toNat)) ∧
    (∀ l1 l2, raises (.ldx (.memToSys a l1 l2 m.cfg.mswIndex)) (m.effAddr a 0)) ∧
    raises (.bst d p o ret) (m.bitAddr d o) ∧ raises (.bcl d p o ret) (m.bitAddr d o) ∧
    raises (.bfl d p o ret) (m.bitAddr d o) ∧ raises (.bts d p o ret) (m.bitAddr d o) ∧
    raises (.btc d p o ret) (m.bitAddr d o) ∧ raises (.btf d p o ret) (m.bitAddr d o)

/-! ### Memory -/

/-- Byte order: bit `k` of the memory-word at `a` is bit `k mod 8` of the byte at `a + k / 8` when ENDIAN is little, and of
the byte that many places from the top when it is big (20_memory R51, R52). -/
def Obligations.MemoryWordByteOrder : Prop :=
  ∀ (x : Xlen) (m : Mach x.bits) (a k : Nat), k < x.bits →
    (m.cfg.endian = .little → (m.wordAt a).getLsbD k = (m.mem.read (a + k / 8)).getLsbD (k % 8)) ∧
    (m.cfg.endian = .big →
      (m.wordAt a).getLsbD k = (m.mem.read (a + (x.bits / 8 - 1 - k / 8))).getLsbD (k % 8))

/-- A memory-word written is read back, in either byte order, and no byte outside it changes; the write is made exactly
when the access is aligned and in MEM_VALID (20_memory R52, R60, R64). -/
def Obligations.WrittenWordReadsBack : Prop :=
  ∀ (x : Xlen) (m : Mach x.bits) (a v : BitVec x.bits),
    (Accessible m a ↔ ∃ m', m.memWrite a v = .ok m') ∧
    ∀ m', m.memWrite a v = .ok m' → m'.memRead a = .ok v ∧
      (∀ b, b < a.toNat ∨ a.toNat + x.bits / 8 ≤ b → m'.mem.read b = m.mem.read b)

/-- At XLEN = 64 and little-endian, "the 64-bit value read at address a is FetchWord(a+4) ++ FetchWord(a)" (20_memory
R53). -/
def Obligations.MemoryWordIsTwoFetchWords : Prop :=
  ∀ (m : Mach 64) (a v : BitVec 64), m.cfg.endian = .little → m.memRead a = .ok v →
    ∃ lo hi : InstrWord, m.fetchWord a = .ok lo ∧ m.fetchWord (a + 4#64) = .ok hi ∧ v = hi ++ lo

/-- A data read or write that is carried out ends at or below the top of the address space. With `pc = 2^W - 4`, the
instruction word is fetched at `pc` and its extension word at 0, wherever those bytes are in MEM_VALID (20_memory
R63). -/
def Obligations.AlignedAccessesDoNotWrap : Prop :=
  ∀ (x : Xlen) (m : Mach x.bits),
    (∀ a v, m.memRead a = .ok v → a.toNat + x.bits / 8 ≤ 2 ^ x.bits) ∧
    (∀ a v m', m.memWrite a v = .ok m' → a.toNat + x.bits / 8 ≤ 2 ^ x.bits) ∧
    (m.pc.toNat = 2 ^ x.bits - 4 →
      ((∀ k < 4, m.cfg.valid (m.pc.toNat + k) = true) → ∃ w, m.fetchWord m.pc = .ok w) ∧
      ((∀ k < 4, m.cfg.valid k = true) →
        ∃ v, m.fetchWord 0#_ = .ok v ∧ m.fetchExt .word = .ok (v.setWidth 64)))

/-- The canonical form makes equal memories equal data (the model's own form, log 5): two memories in it that read alike
are the same list. -/
def Obligations.CanonicalMemoriesAreEqualWhenTheyReadAlike : Prop :=
  ∀ p q : Memory, p.wf = true → q.wf = true → (∀ a, p.read a = q.read a) → p = q

/-! ### Runs -/

/-- Left alone, the machine runs forward through memory until a fetch faults (70_reset R306): where memory ends at least
sixteen bytes below the top of the address space, every run has stopped after one step for each word of it, and one
more. R306 says it of every program; that a run may step over END_PC or wrap where memory reaches the top is why memory
is bounded here (log 22). -/
def Obligations.EveryRunEnds : Prop :=
  ∀ (x : Xlen) (m : Mach x.bits) (top : Nat),
    (∀ a, m.cfg.valid a = true → a < top) → top + 16 ≤ 2 ^ x.bits →
    ∃ m' : Mach x.bits, Host.Core.run core (top / 4 + 1) (⟨x, m⟩ : State) = .next (⟨x, m'⟩ : State) ∧
      m'.status ≠ .running

/-- "Every step advances pc by at least 4 and never moves it back" (70_reset R306), by at most 16, for as long as the run
goes on and `pc` does not wrap. -/
def Obligations.PcGrowsAlongARun : Prop :=
  ∀ (x : Xlen) (k : Nat) (m m' : Mach x.bits),
    Host.Core.run core k (⟨x, m⟩ : State) = .next (⟨x, m'⟩ : State) → m'.status = .running →
    m.pc.toNat + 16 * k < 2 ^ x.bits →
    m.pc.toNat + 4 * k ≤ m'.pc.toNat ∧ m'.pc.toNat ≤ m.pc.toNat + 16 * k
end

