-- ==== Sys2Proof/Laws/Memory.lean ====
section
/-! SUPPORT. The laws of the memory operations: what a byte reads as after a write, and that every operation keeps the
canonical form and the range of addresses. -/

namespace Sys2Proof.Machine

/-! ### Reading after writing -/

theorem Memory.read_insert (a : Nat) (v : Byte) (m : Memory) (h : ∀ c ∈ m, c.1 ≠ a) (b : Nat) :
    (Memory.insert a v m).read b = if b = a then v else m.read b := by
  induction m with
  | nil => simp [Memory.insert, Memory.read, eq_comm]
  | cons c rest ih =>
    have hc : c.1 ≠ a := h c (by simp)
    have ih := ih (fun d hd => h d (by simp [hd]))
    by_cases hlt : a < c.1
    · simp [Memory.insert, hlt, Memory.read, eq_comm]
    · simp only [Memory.insert, hlt, if_false, Memory.read, ih]
      by_cases hb : c.1 = b
      · have : ¬ b = a := fun e => hc (hb.trans e)
        simp [hb, this]
      · simp [hb]

theorem Memory.read_filter (a : Nat) (m : Memory) (b : Nat) :
    Memory.read (m.filter (fun c => c.1 != a)) b = if b = a then unlistedByte else m.read b := by
  induction m with
  | nil => simp [Memory.read]
  | cons c rest ih =>
    by_cases hc : c.1 = a
    · simp only [hc, bne_self_eq_false, List.filter_cons, Bool.false_eq_true, if_false, ih, Memory.read]
      by_cases hb : b = a
      · simp [hb]
      · simp [hb, Ne.symm hb]
    · by_cases hb : c.1 = b
      · have : ¬ b = a := fun e => hc (hb.trans e)
        simp [Memory.read, hb, this]
      · simp [Memory.read, hc, hb, ih]

/-- A byte reads as it was last written, and a write leaves every other byte alone. -/
theorem Memory.read_write (m : Memory) (a : Nat) (v : Byte) (b : Nat) :
    (m.write a v).read b = if b = a then v else m.read b := by
  unfold Memory.write
  by_cases hv : v = unlistedByte
  · simp [hv, Memory.read_filter]
  · simp only [hv, if_false]
    rw [Memory.read_insert _ _ _ (by simp), Memory.read_filter]
    by_cases hb : b = a <;> simp [hb]

/-- The bytes written at `a` upward read back, and every other byte is left alone. -/
theorem Memory.read_writeBytes (bs : List Byte) : ∀ (m : Memory) (a b : Nat),
    (m.writeBytes a bs).read b = if h : a ≤ b ∧ b < a + bs.length then bs[b - a]'(by omega) else m.read b := by
  induction bs with
  | nil => intro m a b; simp [Memory.writeBytes, show ¬ (a ≤ b ∧ b < a) by omega]
  | cons v vs ih =>
    intro m a b
    simp only [Memory.writeBytes, ih, Memory.read_write, List.length_cons]
    by_cases h1 : b = a
    · subst h1
      simp [show ¬ (b + 1 ≤ b) by omega]
    · by_cases h2 : a + 1 ≤ b ∧ b < a + 1 + vs.length
      · have h3 : a ≤ b ∧ b < a + (vs.length + 1) := by omega
        rw [dif_pos h2, dif_pos h3, List.getElem_cons, dif_neg (by omega)]
        congr 1
      · have h3 : ¬ (a ≤ b ∧ b < a + (vs.length + 1)) := by omega
        rw [dif_neg h2, dif_neg h3, if_neg h1]

/-- Outside the bytes written, a byte reads as before. -/
theorem Memory.read_writeBytes_outside (m : Memory) (a : Nat) (bs : List Byte) (b : Nat)
    (h : b < a ∨ a + bs.length ≤ b) : (m.writeBytes a bs).read b = m.read b := by
  rw [Memory.read_writeBytes, dif_neg (by omega)]

@[simp] theorem Memory.readBytes_length (m : Memory) (n : Nat) : ∀ a, (m.readBytes a n).length = n := by
  induction n with
  | zero => intro a; rfl
  | succ n ih => intro a; simp [Memory.readBytes, ih]

theorem Memory.readBytes_getElem (m : Memory) (n : Nat) : ∀ (a k : Nat) (h : k < (m.readBytes a n).length),
    (m.readBytes a n)[k] = m.read (a + k) := by
  induction n with
  | zero => intro a k h; simp at h
  | succ n ih =>
    intro a k h
    cases k with
    | zero => simp [Memory.readBytes]
    | succ k => simp [Memory.readBytes, ih, Nat.add_assoc, Nat.add_comm 1 k]

/-- What is written at `a` is what reading as many bytes there gives. -/
theorem Memory.readBytes_writeBytes (m : Memory) (a : Nat) (bs : List Byte) :
    (m.writeBytes a bs).readBytes a bs.length = bs := by
  apply List.ext_getElem (by simp)
  intro k h1 h2
  rw [Memory.readBytes_getElem, Memory.read_writeBytes, dif_pos (by omega)]
  simp

/-- Bytes elsewhere read as before. -/
theorem Memory.readBytes_writeBytes_apart (m : Memory) (a : Nat) (bs : List Byte) (b n : Nat)
    (h : b + n ≤ a ∨ a + bs.length ≤ b) : (m.writeBytes a bs).readBytes b n = m.readBytes b n := by
  apply List.ext_getElem (by simp)
  intro k h1 h2
  simp only [Memory.readBytes_length] at h1
  rw [Memory.readBytes_getElem, Memory.readBytes_getElem, Memory.read_writeBytes_outside _ _ _ _ (by omega)]

/-! ### The canonical form -/

/-- The canonical form in terms of the whole list: no entry reads as an unlisted byte does, and the addresses rise. -/
theorem Memory.wf_iff (m : Memory) :
    m.wf = true ↔ (∀ c ∈ m, c.2 ≠ unlistedByte) ∧ m.Pairwise (fun c d => c.1 < d.1) := by
  induction m with
  | nil => simp [Memory.wf]
  | cons c rest ih =>
    cases rest with
    | nil => simp [Memory.wf]
    | cons d rest =>
      simp only [Memory.wf, Bool.and_eq_true, bne_iff_ne, decide_eq_true_eq, ih]
      constructor
      · rintro ⟨⟨h1, h2⟩, h3, h4⟩
        refine ⟨by simpa using ⟨h1, by simpa using h3⟩, List.pairwise_cons.2 ⟨?_, h4⟩⟩
        intro e he
        rcases List.mem_cons.1 he with rfl | he
        · exact h2
        · exact Nat.lt_trans h2 ((List.pairwise_cons.1 h4).1 e he)
      · rintro ⟨h1, h2⟩
        have h3 := List.pairwise_cons.1 h2
        exact ⟨⟨h1 c (by simp), h3.1 d (by simp)⟩, fun e he => h1 e (by simp [he]), h3.2⟩

theorem Memory.mem_insert (a : Nat) (v : Byte) (m : Memory) (c : Host.Cell) :
    c ∈ Memory.insert a v m ↔ c = (a, v) ∨ c ∈ m := by
  induction m with
  | nil => simp [Memory.insert]
  | cons d rest ih =>
    by_cases h : a < d.1
    · simp [Memory.insert, h]
    · simp only [Memory.insert, h, if_false, List.mem_cons, ih]
      tauto

theorem Memory.insert_pairwise (a : Nat) (v : Byte) (m : Memory) (h : ∀ c ∈ m, c.1 ≠ a)
    (hm : m.Pairwise (fun c d => c.1 < d.1)) : (Memory.insert a v m).Pairwise (fun c d => c.1 < d.1) := by
  induction m with
  | nil => simp [Memory.insert]
  | cons d rest ih =>
    have hd := List.pairwise_cons.1 hm
    by_cases hlt : a < d.1
    · simp only [Memory.insert, hlt, if_true]
      refine List.pairwise_cons.2 ⟨?_, hm⟩
      intro c hc
      rcases List.mem_cons.1 hc with rfl | hc
      · exact hlt
      · exact Nat.lt_trans hlt (hd.1 c hc)
    · simp only [Memory.insert, hlt, if_false]
      refine List.pairwise_cons.2 ⟨?_, ih (fun c hc => h c (by simp [hc])) hd.2⟩
      intro c hc
      rcases (Memory.mem_insert a v rest c).1 hc with rfl | hc
      · have := h d (by simp)
        show d.1 < a
        omega
      · exact hd.1 c hc

/-- A write keeps the canonical form. -/
theorem Memory.wf_write (m : Memory) (a : Nat) (v : Byte) (h : m.wf = true) : (m.write a v).wf = true := by
  rw [Memory.wf_iff] at h ⊢
  have h1 : ∀ c ∈ m.filter (fun c => c.1 != a), c.2 ≠ unlistedByte := fun c hc => h.1 c (List.mem_filter.1 hc).1
  have h2 : (m.filter (fun c => c.1 != a)).Pairwise (fun c d => c.1 < d.1) := h.2.filter _
  unfold Memory.write
  by_cases hv : v = unlistedByte
  · simp only [hv, if_true]
    exact ⟨h1, h2⟩
  · simp only [hv, if_false]
    refine ⟨?_, Memory.insert_pairwise a v _ (by simp) h2⟩
    intro c hc
    rcases (Memory.mem_insert a v _ c).1 hc with rfl | hc
    · exact hv
    · exact h1 c hc

theorem Memory.wf_writeBytes (bs : List Byte) : ∀ (m : Memory) (a : Nat), m.wf = true → (m.writeBytes a bs).wf = true := by
  induction bs with
  | nil => intro m a h; exact h
  | cons b bs ih => intro m a h; exact ih _ _ (Memory.wf_write m a b h)

/-- A write adds no address but its own. -/
theorem Memory.mem_write (m : Memory) (a : Nat) (v : Byte) (c : Host.Cell) (h : c ∈ m.write a v) : c.1 = a ∨ c ∈ m := by
  unfold Memory.write at h
  by_cases hv : v = unlistedByte
  · simp only [hv, if_true] at h
    exact .inr (List.mem_filter.1 h).1
  · simp only [hv, if_false] at h
    rcases (Memory.mem_insert a v _ c).1 h with rfl | h
    · exact .inl rfl
    · exact .inr (List.mem_filter.1 h).1

theorem Memory.range_writeBytes (top : Nat) (bs : List Byte) : ∀ (m : Memory) (a : Nat), a + bs.length ≤ top →
    (∀ c ∈ m, c.1 < top) → ∀ c ∈ m.writeBytes a bs, c.1 < top := by
  induction bs with
  | nil => intro m a _ h; exact h
  | cons b bs ih =>
    intro m a ha h
    simp only [List.length_cons] at ha
    refine ih _ (a + 1) (by omega) ?_
    intro c hc
    rcases Memory.mem_write m a b c hc with h' | h'
    · omega
    · exact h c h'

/-- The reset machine's memory is canonical. -/
theorem Memory.wf_reset : State.reset.mach.mem.wf = true := rfl

/-! ### Bytes and numbers -/

@[simp] theorem bytesOfNat_length (n : Nat) : ∀ v, (bytesOfNat n v).length = n := by
  induction n with
  | zero => intro v; rfl
  | succ n ih => intro v; simp [bytesOfNat, ih]

@[simp] theorem order_length (e : Endian) (bs : List Byte) : (e.order bs).length = bs.length := by
  cases e <;> simp [Endian.order]

@[simp] theorem order_order (e : Endian) (bs : List Byte) : e.order (e.order bs) = bs := by
  cases e <;> simp [Endian.order]

theorem natOfBytes_lt (bs : List Byte) : natOfBytes bs < 256 ^ bs.length := by
  induction bs with
  | nil => simp [natOfBytes]
  | cons b bs ih =>
    have hb := b.isLt
    have h2 : 256 ^ (bs.length + 1) = 256 * 256 ^ bs.length := by ring
    simp only [natOfBytes, List.length_cons, h2]
    omega

theorem natOfBytes_bytesOfNat (n : Nat) : ∀ v, natOfBytes (bytesOfNat n v) = v % 256 ^ n := by
  induction n with
  | zero => intro v; simp [bytesOfNat, natOfBytes, Nat.mod_one]
  | succ n ih =>
    intro v
    have h2 : 256 ^ (n + 1) = 256 * 256 ^ n := by ring
    simp only [bytesOfNat, natOfBytes, ih, h2, Nat.mod_mul, BitVec.toNat_ofNat]

/-- Bit `k` of the number is bit `k mod 8` of byte `k / 8`. -/
theorem natOfBytes_testBit (bs : List Byte) : ∀ k, (natOfBytes bs).testBit k = (bs.getD (k / 8) 0#8).getLsbD (k % 8) := by
  induction bs with
  | nil => intro k; simp [natOfBytes]
  | cons b bs ih =>
    intro k
    have h : natOfBytes (b :: bs) = 2 ^ 8 * natOfBytes bs + b.toNat := by simp [natOfBytes]; omega
    rw [h, Nat.testBit_two_pow_mul_add _ b.isLt]
    by_cases hk : k < 8
    · simp [hk, Nat.div_eq_of_lt hk, Nat.mod_eq_of_lt hk, BitVec.testBit_toNat]
    · have h1 : k / 8 = (k - 8) / 8 + 1 := by omega
      have h2 : k % 8 = (k - 8) % 8 := by omega
      simp [hk, ih, h1, h2]

@[simp] theorem dataBytes_length {W : Nat} (e : Endian) (v : BitVec W) : (dataBytes e v).length = W / 8 := by
  simp [dataBytes]

@[simp] theorem bytesOfWord_length (e : Endian) (w : InstrWord) : (bytesOfWord e w).length = 4 := by
  simp [bytesOfWord]

/-- The four bytes of a word, put together again, are the word. -/
theorem word_of_bytesOfWord (e : Endian) (w : InstrWord) :
    BitVec.ofNat 32 (natOfBytes (e.order (bytesOfWord e w))) = w := by
  apply BitVec.eq_of_toNat_eq
  have := w.isLt
  simp only [bytesOfWord, order_order, natOfBytes_bytesOfNat, BitVec.toNat_ofNat]
  omega

end Sys2Proof.Machine
end

