-- ==== Sys2Proof/Laws/Decode.lean ====
section
/-! SUPPORT. The fields of a word put together and taken apart (30_encoding R81), words under a mask, and words in
bytes. -/

namespace Sys2Proof

open Sys2Proof.Machine

/-- The fields of a word made of fields are those fields. -/
@[simp] theorem fieldsOf_wordOf (f : Fields) : fieldsOf (wordOf f) = f := by
  rcases f with ⟨op, dst, src, imm⟩
  simp only [fieldsOf, wordOf, Fields.mk.injEq]
  refine ⟨?_, ?_, ?_, ?_⟩ <;> apply BitVec.eq_of_getLsbD_eq <;> intro k hk <;>
    simp only [BitVec.getLsbD_extractLsb', BitVec.getLsbD_append] <;> simp [hk] <;> grind

/-- A word is made of its fields. -/
@[simp] theorem wordOf_fieldsOf (w : InstrWord) : wordOf (fieldsOf w) = w := by
  apply BitVec.eq_of_getLsbD_eq
  intro k hk
  simp only [fieldsOf, wordOf, BitVec.getLsbD_extractLsb', BitVec.getLsbD_append]
  grind

/-- A mask works part by part. -/
theorem append_and (n k : Nat) (a b : BitVec n) (c d : BitVec k) : (a ++ c) &&& (b ++ d) = (a &&& b) ++ (c &&& d) :=
  BitVec.and_append

/-- A mask works field by field. -/
theorem wordOf_and (f : Fields) (mi : Halfword) (ms md : BitVec 4) (mo : Byte) :
    wordOf f &&& (mi ++ ms ++ md ++ mo) = (f.imm &&& mi) ++ (f.src &&& ms) ++ (f.dst &&& md) ++ (f.op &&& mo) := by
  refine (append_and _ _ (f.imm ++ f.src ++ f.dst) (mi ++ ms ++ md) f.op mo).trans ?_
  rw [append_and _ _ (f.imm ++ f.src) (mi ++ ms) f.dst md, append_and _ _ f.imm mi f.src ms]

/-- Equal concatenations have equal parts. -/
theorem append_inj {n k : Nat} {a b : BitVec n} {c d : BitVec k} (h : a ++ c = b ++ d) : a = b ∧ c = d := by
  constructor <;> apply BitVec.eq_of_getLsbD_eq <;> intro j hj
  · simpa [BitVec.getLsbD_append] using congrArg (fun v => v.getLsbD (j + k)) h
  · simpa [BitVec.getLsbD_append, hj] using congrArg (fun v => v.getLsbD j) h

/-- A row of the opcode map, whose mask leaves `dst` free and fixes `op`, read field by field. -/
theorem and_row_eq_iff (w : InstrWord) (mi vi : Halfword) (ms vs : BitVec 4) (op : Byte) :
    w &&& (mi ++ ms ++ 0#4 ++ 0xFF#8) = vi ++ vs ++ 0#4 ++ op ↔
      (fieldsOf w).imm &&& mi = vi ∧ (fieldsOf w).src &&& ms = vs ∧ (fieldsOf w).op = op := by
  conv_lhs => rw [← wordOf_fieldsOf w, wordOf_and]
  rw [show (fieldsOf w).op &&& 0xFF#8 = (fieldsOf w).op from BitVec.and_allOnes, BitVec.and_zero]
  constructor
  · intro h
    obtain ⟨h, hop⟩ := append_inj h
    obtain ⟨h, _⟩ := append_inj h
    exact ⟨(append_inj h).1, (append_inj h).2, hop⟩
  · rintro ⟨h1, h2, h3⟩
    rw [h1, h2, h3]

/-- `imm16` is made of its top nibble, its ID and its low byte. -/
theorem imm_eq_parts (i : Halfword) : i = topOf i ++ idOf i ++ low8Of i := by
  apply BitVec.eq_of_getLsbD_eq
  intro k hk
  simp only [topOf, idOf, low8Of, BitVec.getLsbD_append, BitVec.getLsbD_extractLsb']
  grind

/-- Every instruction belongs to a row of the opcode map (30_encoding R101). -/
theorem opcodeRow_mem_opcodeMap (i : Instr) : ∃ r ∈ opcodeMap, opcodeRow i = (r.mask, r.value) := by
  have h : ∀ p : InstrWord × InstrWord, p ∈ opcodeMap.map (fun r => (r.mask, r.value)) →
      ∃ r ∈ opcodeMap, p = (r.mask, r.value) := by
    intro p hp
    obtain ⟨r, hr, he⟩ := List.mem_map.1 hp
    exact ⟨r, hr, he.symm⟩
  apply h
  cases i with
  | ldr d a m => rcases m with ⟨_ | _, _⟩ | _ <;> simp only [opcodeRow] <;> decide
  | ldx f => cases f <;> simp only [opcodeRow] <;> decide
  | _ => simp only [opcodeRow]; decide

/-! ### Words in bytes -/

theorem list_of_length_four (bs : List Byte) (h : bs.length = 4) : ∃ a b c d, bs = [a, b, c, d] := by
  match bs, h with
  | [a, b, c, d], _ => exact ⟨a, b, c, d, rfl⟩

/-- The word at the front of a list that begins with a word's bytes. -/
@[simp] theorem takeWord_bytesOfWord (e : Endian) (w : InstrWord) (rest : List Byte) :
    takeWord e (bytesOfWord e w ++ rest) = some (w, rest) := by
  obtain ⟨a, b, c, d, h⟩ := list_of_length_four (bytesOfWord e w) (by simp)
  have hw := word_of_bytesOfWord e w
  rw [h] at hw ⊢
  simp [takeWord, hw]

/-- A word is taken from the front of a list of four bytes or more, and takes four of them. -/
theorem takeWord_some {e : Endian} {bs rest : List Byte} {w : InstrWord} (h : takeWord e bs = some (w, rest)) :
    bs.length = 4 + rest.length := by
  match bs, h with
  | a :: b :: c :: d :: tl, h =>
    simp only [takeWord, Option.some.injEq, Prod.mk.injEq] at h
    simp only [List.length_cons, h.2]
    omega

/-- The extension data at the front of a list takes the bytes of its kind. -/
theorem takeExt_some {e : Endian} {pad : Bool} {k : ExtKind} {bs rest : List Byte} {v : Longword}
    (h : takeExt e pad k bs = some (v, rest)) :
    bs.length = (match k with | .none => 0 | .word => 4 | .long => if pad then 12 else 8) + rest.length := by
  have hl : ∀ {bs}, takeLong e bs = some (v, rest) → bs.length = 8 + rest.length := by
    intro bs h
    unfold takeLong at h
    split at h
    · cases h
    · rename_i lo bs' h1
      split at h
      · cases h
      · rename_i hi r h2
        cases h
        have := takeWord_some h1
        have := takeWord_some h2
        omega
  cases k with
  | none => simp [takeExt] at h; simp [h]
  | word =>
    simp only [takeExt, Option.map_eq_some_iff] at h
    obtain ⟨⟨w, r⟩, h1, h2⟩ := h
    cases h2
    exact takeWord_some h1
  | long =>
    cases pad with
    | false =>
      have := hl (show takeLong e bs = some (v, rest) by simpa [takeExt] using h)
      simpa using this
    | true =>
      simp only [takeExt, if_true] at h
      split at h
      · cases h
      · rename_i w bs' h1
        have := takeWord_some h1
        have := hl h
        simp only [if_true]
        omega

/-! ### What filling in the extension data keeps -/

@[simp] theorem fillDisp_isSome (d : Option (BitVec 32)) (e : Longword) : (fillDisp d e).isSome = d.isSome := by
  cases d <;> rfl

@[simp] theorem fillDisp_eq_none (d : Option (BitVec 32)) (e : Longword) : fillDisp d e = none ↔ d = none := by
  cases d <;> simp [fillDisp]

theorem extKind_withExt (i : Instr) (e : Longword) : (i.withExt e).extKind = i.extKind := by
  cases i with
  | ldx f => cases f <;> simp [Instr.withExt, Instr.extKind]
  | _ => simp [Instr.withExt, Instr.extKind]

theorem check_withExt (x : Xlen) (i : Instr) (e : Longword) : (i.withExt e).check x = i.check x := by
  cases i with
  | ldx f => cases f <;> rfl
  | ldr d a m => cases m <;> rfl
  | _ => rfl

/-- An instruction filled with the extension data it carries is itself. -/
theorem withExt_extValue (i : Instr) : i.withExt i.extValue = i := by
  have h : ∀ o : Option (BitVec 32), fillDisp o ((o.getD 0#32).setWidth 64) = o := by
    intro o
    cases o <;> simp [fillDisp]
  cases i with
  | ldx f => cases f <;> simp [Instr.withExt, Instr.extValue, h]
  | _ => simp [Instr.withExt, Instr.extValue, h]

end Sys2Proof
end

