-- ==== Sys2Proof/Laws/State.lean ====
section
/-! SUPPORT. One lemma per field per update of the machine, and what a register reads as after each update. -/

namespace Sys2Proof.Machine

variable {W : Nat}

/-! ### `advance` -/

@[simp] theorem Mach.advance_cfg (m : Mach W) (n : Nat) : (m.advance n).cfg = m.cfg := rfl

@[simp] theorem Mach.advance_gpr (m : Mach W) (n : Nat) : (m.advance n).gpr = m.gpr := rfl

@[simp] theorem Mach.advance_pc (m : Mach W) (n : Nat) : (m.advance n).pc = m.pc + BitVec.ofNat W n := rfl

@[simp] theorem Mach.advance_flags (m : Mach W) (n : Nat) : (m.advance n).flags = m.flags := rfl

@[simp] theorem Mach.advance_mem (m : Mach W) (n : Nat) : (m.advance n).mem = m.mem := rfl

@[simp] theorem Mach.advance_status (m : Mach W) (n : Nat) : (m.advance n).status = m.status := rfl

@[simp] theorem Mach.advance_freeDraws (m : Mach W) (n : Nat) : (m.advance n).freeDraws = m.freeDraws := rfl

/-! ### `setFlags` -/

@[simp] theorem Mach.setFlags_cfg (m : Mach W) (f : Flags) : (m.setFlags f).cfg = m.cfg := rfl

@[simp] theorem Mach.setFlags_gpr (m : Mach W) (f : Flags) : (m.setFlags f).gpr = m.gpr := rfl

@[simp] theorem Mach.setFlags_pc (m : Mach W) (f : Flags) : (m.setFlags f).pc = m.pc := rfl

@[simp] theorem Mach.setFlags_flags (m : Mach W) (f : Flags) : (m.setFlags f).flags = f := rfl

@[simp] theorem Mach.setFlags_mem (m : Mach W) (f : Flags) : (m.setFlags f).mem = m.mem := rfl

@[simp] theorem Mach.setFlags_status (m : Mach W) (f : Flags) : (m.setFlags f).status = m.status := rfl

@[simp] theorem Mach.setFlags_freeDraws (m : Mach W) (f : Flags) : (m.setFlags f).freeDraws = m.freeDraws := rfl

/-! ### `raise` -/

@[simp] theorem Mach.raise_cfg (m : Mach W) (f : Fault) : (m.raise f).cfg = m.cfg := rfl

@[simp] theorem Mach.raise_gpr (m : Mach W) (f : Fault) : (m.raise f).gpr = m.gpr := rfl

@[simp] theorem Mach.raise_pc (m : Mach W) (f : Fault) : (m.raise f).pc = m.pc := rfl

@[simp] theorem Mach.raise_flags (m : Mach W) (f : Fault) : (m.raise f).flags = m.flags := rfl

@[simp] theorem Mach.raise_mem (m : Mach W) (f : Fault) : (m.raise f).mem = m.mem := rfl

@[simp] theorem Mach.raise_status (m : Mach W) (f : Fault) : (m.raise f).status = .faulted f m.pc.toNat := rfl

@[simp] theorem Mach.raise_freeDraws (m : Mach W) (f : Fault) : (m.raise f).freeDraws = m.freeDraws := rfl

/-! ### `writeReg` -/

@[simp] theorem Mach.writeReg_cfg (m : Mach W) (r : RegNum) (v : BitVec W) : (m.writeReg r v).cfg = m.cfg := by
  unfold Mach.writeReg; split <;> rfl

@[simp] theorem Mach.writeReg_pc (m : Mach W) (r : RegNum) (v : BitVec W) : (m.writeReg r v).pc = m.pc := by
  unfold Mach.writeReg; split <;> rfl

@[simp] theorem Mach.writeReg_flags (m : Mach W) (r : RegNum) (v : BitVec W) : (m.writeReg r v).flags = m.flags := by
  unfold Mach.writeReg; split <;> rfl

@[simp] theorem Mach.writeReg_mem (m : Mach W) (r : RegNum) (v : BitVec W) : (m.writeReg r v).mem = m.mem := by
  unfold Mach.writeReg; split <;> rfl

@[simp] theorem Mach.writeReg_status (m : Mach W) (r : RegNum) (v : BitVec W) : (m.writeReg r v).status = m.status := by
  unfold Mach.writeReg; split <;> rfl

@[simp] theorem Mach.writeReg_freeDraws (m : Mach W) (r : RegNum) (v : BitVec W) : (m.writeReg r v).freeDraws = m.freeDraws := by
  unfold Mach.writeReg; split <;> rfl

/-! ### `setCarry`, `setFreeCarry` -/

@[simp] theorem Mach.setCarry_cfg (m : Mach W) (mu : ArithBits) (c : CarryOverflow) : (m.setCarry mu c).cfg = m.cfg := by
  unfold Mach.setCarry; split <;> rfl

@[simp] theorem Mach.setCarry_gpr (m : Mach W) (mu : ArithBits) (c : CarryOverflow) : (m.setCarry mu c).gpr = m.gpr := by
  unfold Mach.setCarry; split <;> rfl

@[simp] theorem Mach.setCarry_pc (m : Mach W) (mu : ArithBits) (c : CarryOverflow) : (m.setCarry mu c).pc = m.pc := by
  unfold Mach.setCarry; split <;> rfl

@[simp] theorem Mach.setCarry_mem (m : Mach W) (mu : ArithBits) (c : CarryOverflow) : (m.setCarry mu c).mem = m.mem := by
  unfold Mach.setCarry; split <;> rfl

@[simp] theorem Mach.setCarry_status (m : Mach W) (mu : ArithBits) (c : CarryOverflow) : (m.setCarry mu c).status = m.status := by
  unfold Mach.setCarry; split <;> rfl

@[simp] theorem Mach.setCarry_freeDraws (m : Mach W) (mu : ArithBits) (c : CarryOverflow) : (m.setCarry mu c).freeDraws = m.freeDraws := by
  unfold Mach.setCarry; split <;> rfl

@[simp] theorem Mach.setFreeCarry_cfg (m : Mach W) (mu : ArithBits) : (m.setFreeCarry mu).cfg = m.cfg := by
  unfold Mach.setFreeCarry; split <;> rfl

@[simp] theorem Mach.setFreeCarry_gpr (m : Mach W) (mu : ArithBits) : (m.setFreeCarry mu).gpr = m.gpr := by
  unfold Mach.setFreeCarry; split <;> rfl

@[simp] theorem Mach.setFreeCarry_pc (m : Mach W) (mu : ArithBits) : (m.setFreeCarry mu).pc = m.pc := by
  unfold Mach.setFreeCarry; split <;> rfl

@[simp] theorem Mach.setFreeCarry_mem (m : Mach W) (mu : ArithBits) : (m.setFreeCarry mu).mem = m.mem := by
  unfold Mach.setFreeCarry; split <;> rfl

@[simp] theorem Mach.setFreeCarry_status (m : Mach W) (mu : ArithBits) : (m.setFreeCarry mu).status = m.status := by
  unfold Mach.setFreeCarry; split <;> rfl

/-- The flags after the M-bit: CF and OF when it is 1, none when it is 0 (43_arithmetic R150). -/
theorem Mach.setCarry_flags (m : Mach W) (mu : ArithBits) (c : CarryOverflow) :
    (m.setCarry mu c).flags = if mu.M then { m.flags with CF := c.CF, OF := c.OF } else m.flags := by
  unfold Mach.setCarry; split <;> rfl

@[simp] theorem Mach.setFreeCarry_ZF (m : Mach W) (mu : ArithBits) : (m.setFreeCarry mu).flags.ZF = m.flags.ZF := by
  unfold Mach.setFreeCarry; split <;> rfl

@[simp] theorem Mach.setFreeCarry_LT (m : Mach W) (mu : ArithBits) : (m.setFreeCarry mu).flags.LT = m.flags.LT := by
  unfold Mach.setFreeCarry; split <;> rfl

/-- With M = 0 nothing is drawn and nothing changes. -/
theorem Mach.setFreeCarry_off (m : Mach W) (mu : ArithBits) (h : mu.M = false) : m.setFreeCarry mu = m := by
  simp [Mach.setFreeCarry, h]

/-! ### Registers -/

@[simp] theorem Mach.reg_zero (m : Mach W) : m.reg 0#4 = 0#W := rfl

/-- A register reads from the register file alone. -/
theorem Mach.reg_congr {m m' : Mach W} (h : m'.gpr = m.gpr) (r : RegNum) : m'.reg r = m.reg r := by
  simp [Mach.reg, h]

@[simp] theorem Mach.reg_advance (m : Mach W) (n : Nat) (r : RegNum) : (m.advance n).reg r = m.reg r := rfl

@[simp] theorem Mach.reg_setFlags (m : Mach W) (f : Flags) (r : RegNum) : (m.setFlags f).reg r = m.reg r := rfl

@[simp] theorem Mach.reg_raise (m : Mach W) (f : Fault) (r : RegNum) : (m.raise f).reg r = m.reg r := rfl

@[simp] theorem Mach.reg_setCarry (m : Mach W) (mu : ArithBits) (c : CarryOverflow) (r : RegNum) :
    (m.setCarry mu c).reg r = m.reg r :=
  Mach.reg_congr (m.setCarry_gpr mu c) r

@[simp] theorem Mach.reg_setFreeCarry (m : Mach W) (mu : ArithBits) (r : RegNum) :
    (m.setFreeCarry mu).reg r = m.reg r :=
  Mach.reg_congr (m.setFreeCarry_gpr mu) r

/-- Register `d` holds what was written to it, unless it is register 0; every other register holds what it did
(10_state R22). -/
theorem Mach.reg_writeReg (m : Mach W) (d : RegNum) (v : BitVec W) (r : RegNum) :
    (m.writeReg d v).reg r = if r = d ∧ d ≠ 0#4 then v else m.reg r := by
  unfold Mach.writeReg Mach.reg
  by_cases hd : d = 0#4
  · simp [hd]
  · by_cases hr : r = 0#4
    · have : ¬ r = d := fun h => hd (h ▸ hr)
      simp [hr, hd, Ne.symm hd]
    · by_cases hrd : r = d
      · subst hrd; simp [hr]
      · have hn : ¬ d.toNat = r.toNat := fun h => hrd (BitVec.eq_of_toNat_eq h.symm)
        simp [hr, hd, hrd, hn]

/-- The write to entry 0 that no instruction makes (10_state R22). -/
@[simp] theorem Mach.writeReg_gpr_zero (m : Mach W) (r : RegNum) (v : BitVec W) : (m.writeReg r v).gpr[0] = m.gpr[0] := by
  unfold Mach.writeReg
  split
  · rfl
  · rename_i h
    have hn : ¬ r.toNat = 0 := fun h' => h (BitVec.eq_of_toNat_eq (by simpa using h'))
    simp [hn]

end Sys2Proof.Machine
end

