-- ==== Sys2Proof/Laws/Ops.lean ====
section
/-! SUPPORT. For each named operation over registers, system registers, memory and fetch, one lemma that says when it
answers and with what. -/

namespace Sys2Proof.Machine

variable {W : Nat}

/-! ### Widths -/

theorem xlen_bits_cases (x : Xlen) : x.bits = 32 ∨ x.bits = 64 := by
  cases x <;> simp [Xlen.bits]

/-- The bytes of a register hold exactly its values. -/
theorem xlen_bytes_pow (x : Xlen) : 256 ^ (x.bits / 8) = 2 ^ x.bits := by
  cases x <;> rfl

/-! ### The end of an instruction -/

@[simp] theorem Mach.orRaise_ok (m m' : Mach W) : m.orRaise (.ok m') = m' := rfl

@[simp] theorem Mach.orRaise_error (m : Mach W) (f : Fault) : m.orRaise (.error f) = m.raise f := rfl

/-- Raising changes the run status and nothing else (60_exceptions R262). -/
theorem Mach.raise_faults (m : Mach W) (f : Fault) : Faults m (m.raise f) f := rfl

/-! ### System registers -/

theorem Mach.readSys_msw (m : Mach W) : m.readSys m.cfg.mswIndex = .ok (mswValue W m.flags) := by
  simp [Mach.readSys]

theorem Mach.readSys_reserved (m : Mach W) (n : RegNum) (h : n ≠ m.cfg.mswIndex) :
    m.readSys n = .error (.reservedSystemRegister n) := by
  simp [Mach.readSys, h]

theorem Mach.writeSys_msw (m : Mach W) (v : BitVec W) :
    m.writeSys m.cfg.mswIndex v = .ok (m.setFlags (flagsOfMsw v)) := by
  simp [Mach.writeSys]

theorem Mach.writeSys_reserved (m : Mach W) (n : RegNum) (v : BitVec W) (h : n ≠ m.cfg.mswIndex) :
    m.writeSys n v = .error (.reservedSystemRegister n) := by
  simp [Mach.writeSys, h]

/-- The bits of MSW (10_state R27, R31). -/
theorem mswValue_getLsbD (x : Xlen) (f : Flags) (k : Nat) : (mswValue x.bits f).getLsbD k =
    if k = 0 then f.ZF else if k = 1 then f.LT else if k = 2 then f.CF else if k = 3 then f.OF else false := by
  rcases f with ⟨z, l, c, o⟩
  by_cases hk : k < 4
  · have : k = 0 ∨ k = 1 ∨ k = 2 ∨ k = 3 := by omega
    rcases this with rfl | rfl | rfl | rfl <;> cases x <;> revert z l c o <;> decide
  · rw [mswValue, BitVec.getLsbD_setWidth, BitVec.getLsbD_of_ge _ k (by omega)]
    simp [show k ≠ 0 by omega, show k ≠ 1 by omega, show k ≠ 2 by omega, show k ≠ 3 by omega]

/-- Reading MSW and writing it back changes no flag. -/
theorem flagsOfMsw_mswValue (x : Xlen) (f : Flags) : flagsOfMsw (mswValue x.bits f) = f := by
  simp [flagsOfMsw, mswValue_getLsbD]

/-! ### Data access -/

theorem validRange_iff (cfg : Params W) (n : Nat) : ∀ a,
    validRange cfg a n = true ↔ ∀ k < n, cfg.valid (a + k) = true := by
  induction n with
  | zero => intro a; simp [validRange]
  | succ n ih =>
    intro a
    simp only [validRange, Bool.and_eq_true, ih]
    constructor
    · rintro ⟨h0, h⟩ k hk
      cases k with
      | zero => simpa using h0
      | succ k => simpa [Nat.add_assoc, Nat.add_comm 1 k] using h k (by omega)
    · intro h
      refine ⟨by simpa using h 0 (by omega), fun k hk => ?_⟩
      simpa [Nat.add_assoc, Nat.add_comm 1 k] using h (k + 1) (by omega)

theorem validRange_false_iff (cfg : Params W) (n a : Nat) :
    validRange cfg a n = false ↔ ∃ k < n, cfg.valid (a + k) = false := by
  rw [← Bool.not_eq_true, validRange_iff]
  simp

/-- MemRead and MemWrite pass their checks exactly at the accessible addresses (20_memory R52, R54). -/
theorem Mach.checkData_ok_iff (m : Mach W) (a : BitVec W) : m.checkData a = .ok () ↔ Accessible m a := by
  unfold Mach.checkData Accessible
  rw [← validRange_iff]
  by_cases h : a.toNat % (W / 8) = 0 <;> simp [h]

theorem Mach.checkData_misaligned (m : Mach W) (a : BitVec W) (h : a.toNat % (W / 8) ≠ 0) :
    m.checkData a = .error (.misalignedAccess a.toNat) := by
  simp [Mach.checkData, h]

theorem Mach.checkData_unmapped (m : Mach W) (a : BitVec W) (h : a.toNat % (W / 8) = 0)
    (hv : ∃ k < W / 8, m.cfg.valid (a.toNat + k) = false) : m.checkData a = .error (.accessFault a.toNat) := by
  simp [Mach.checkData, h, (validRange_false_iff m.cfg (W / 8) a.toNat).2 hv]

/-- MemRead answers with the memory-word exactly at the accessible addresses. -/
theorem Mach.memRead_ok_iff (m : Mach W) (a v : BitVec W) :
    m.memRead a = .ok v ↔ Accessible m a ∧ v = m.wordAt a.toNat := by
  rw [← Mach.checkData_ok_iff]
  unfold Mach.memRead
  cases h : m.checkData a with
  | error f => simp
  | ok u => simp [eq_comm]

theorem Mach.memRead_misaligned (m : Mach W) (a : BitVec W) (h : a.toNat % (W / 8) ≠ 0) :
    m.memRead a = .error (.misalignedAccess a.toNat) := by
  simp [Mach.memRead, Mach.checkData_misaligned m a h]

theorem Mach.memRead_unmapped (m : Mach W) (a : BitVec W) (h : a.toNat % (W / 8) = 0)
    (hv : ∃ k < W / 8, m.cfg.valid (a.toNat + k) = false) : m.memRead a = .error (.accessFault a.toNat) := by
  simp [Mach.memRead, Mach.checkData_unmapped m a h hv]

/-- MemWrite changes memory alone, and only at the accessible addresses. -/
theorem Mach.memWrite_ok_iff (m : Mach W) (a v : BitVec W) (m' : Mach W) : m.memWrite a v = .ok m' ↔
    Accessible m a ∧ m' = { m with mem := m.mem.writeBytes a.toNat (dataBytes m.cfg.endian v) } := by
  rw [← Mach.checkData_ok_iff]
  unfold Mach.memWrite
  cases h : m.checkData a with
  | error f => simp
  | ok u => simp [eq_comm]

/-- The memory-word just written is the value written (20_memory R52). -/
theorem wordAt_writeBytes (x : Xlen) (m : Mach x.bits) (a : Nat) (v : BitVec x.bits) :
    Mach.wordAt { m with mem := m.mem.writeBytes a (dataBytes m.cfg.endian v) } a = v := by
  have h := Memory.readBytes_writeBytes m.mem a (dataBytes m.cfg.endian v)
  rw [dataBytes_length] at h
  apply BitVec.eq_of_toNat_eq
  simp only [Mach.wordAt, h]
  simp only [dataBytes, order_order, natOfBytes_bytesOfNat, xlen_bytes_pow, BitVec.toNat_ofNat, Nat.mod_mod]
  exact Nat.mod_eq_of_lt v.isLt

/-- Writing the word that is there leaves every byte as it reads. -/
theorem wordAt_congr {m m' : Mach W} (hc : m'.cfg.endian = m.cfg.endian) (hm : ∀ a, m'.mem.read a = m.mem.read a)
    (a : Nat) : m'.wordAt a = m.wordAt a := by
  have : m'.mem.readBytes a (W / 8) = m.mem.readBytes a (W / 8) := by
    apply List.ext_getElem (by simp)
    intro k h1 h2
    rw [Memory.readBytes_getElem, Memory.readBytes_getElem, hm]
  simp [Mach.wordAt, hc, this]

/-! ### Instruction fetch -/

/-- FetchWord answers with the four bytes, in byte order, exactly at the aligned addresses in MEM_VALID (20_memory
R56). -/
theorem Mach.fetchWord_ok_iff (m : Mach W) (a : BitVec W) (w : InstrWord) : m.fetchWord a = .ok w ↔
    a.toNat % 4 = 0 ∧ (∀ k < 4, m.cfg.valid (a.toNat + k) = true) ∧
      w = BitVec.ofNat 32 (natOfBytes (m.cfg.endian.order (m.mem.readBytes a.toNat 4))) := by
  unfold Mach.fetchWord
  rw [← validRange_iff]
  by_cases h : a.toNat % 4 = 0
  · cases hv : validRange m.cfg a.toNat 4 <;> simp [h, eq_comm]
  · simp [h]

theorem Mach.fetchWord_misaligned (m : Mach W) (a : BitVec W) (h : a.toNat % 4 ≠ 0) :
    m.fetchWord a = .error (.misalignedFetch a.toNat) := by
  simp [Mach.fetchWord, h]

theorem Mach.fetchWord_unmapped (m : Mach W) (a : BitVec W) (h : a.toNat % 4 = 0)
    (hv : ∃ k < 4, m.cfg.valid (a.toNat + k) = false) : m.fetchWord a = .error (.accessFault a.toNat) := by
  simp [Mach.fetchWord, h, (validRange_false_iff m.cfg 4 a.toNat).2 hv]

/-- A multiple of 4 further on is a multiple of 4, with the wrap at 2^W (20_memory R55). -/
theorem aligned_add (x : Xlen) (a : BitVec x.bits) (n : Nat) (h : a.toNat % 4 = 0) (hn : n % 4 = 0) :
    (a + BitVec.ofNat x.bits n).toNat % 4 = 0 := by
  rw [BitVec.toNat_add, BitVec.toNat_ofNat]
  cases x <;> simp only [Xlen.bits] at a h ⊢ <;> omega

/-! ### Operands -/

/-- The count or position operand is its value modulo W (41_shift_rotate R131). -/
theorem countOf_eq (x : Xlen) (m : Mach x.bits) (c : Count) : m.countOf c = countAmount m c := by
  cases c with
  | imm n => rfl
  | reg r => cases x <;> rfl

theorem countOf_lt (x : Xlen) (m : Mach x.bits) (c : Count) : m.countOf c < x.bits := by
  rw [countOf_eq]
  have hx : 0 < x.bits := by rcases xlen_bits_cases x with h | h <;> omega
  cases c <;> exact Nat.mod_lt _ hx

theorem countOf_congr {m m' : Mach W} (c : Count) (h : ∀ r, c = .reg r → m'.reg r = m.reg r) :
    m'.countOf c = m.countOf c := by
  cases c with
  | imm n => rfl
  | reg r => simp [Mach.countOf, h r rfl]

theorem lenOf_eq (d : Option (BitVec 32)) : lenOf d = if d = none then 4 else 8 := by
  cases d <;> rfl

end Sys2Proof.Machine
end

