-- ==== Sys2Proof/Laws/PerInstr.lean ====
section
/-! SUPPORT. The per-instruction family `OpcodeMap`: the word of a well-formed instruction matches its row of the opcode
map (30_encoding R101). -/

namespace Sys2Proof.Laws

open Sys2Proof

/-- "Mask and match are over the instruction word w: a word w selects the row when w & mask = match" (R101), for the
words the encoder writes. -/
def OpcodeMap.Statement (i : Instr) : Prop :=
  ∀ x : Xlen, WellFormed x i → encodeWord i &&& (opcodeRow i).1 = (opcodeRow i).2

/-- The word of fields under a mask, all four fields of the match at once. -/
theorem wordOf_row (op : Byte) (d s : RegNum) (imm mi : Halfword) (ms : BitVec 4) (mask m : InstrWord)
    (hmask : mask = mi ++ ms ++ 0#4 ++ 0xFF#8) (hm : m = (imm &&& mi) ++ (s &&& ms) ++ 0#4 ++ op) :
    wordOf ⟨op, d, s, imm⟩ &&& mask = m := by
  have h1 : d &&& 0#4 = 0#4 := by simp
  have h2 : op &&& 0xFF#8 = op := BitVec.and_allOnes
  rw [hmask, wordOf_and, hm, h1, h2]

/-! ### `imm16` under the masks of the opcode map -/

theorem and_shift (id : BitVec 4) (n : BitVec 7) :
    (0#4 ++ id ++ 0#1 ++ n : Halfword) &&& 0xFF80#16 = 0#4 ++ id ++ 0#8 := by
  have h : (0#4 ++ id ++ 0#1 ++ n) &&& (0x1FF#9 ++ 0#7) = (0#4 ++ id ++ 0#1) ++ 0#7 := by
    rw [append_and, show (0#4 ++ id ++ 0#1) &&& 0x1FF#9 = 0#4 ++ id ++ 0#1 from BitVec.and_allOnes]
    simp
  refine Eq.trans h ?_
  clear h
  revert id
  decide

theorem and_memBits (r id : BitVec 4) (b : BitVec 1) (n : BitVec 7) :
    (r ++ id ++ b ++ n : Halfword) &&& 0x0F00#16 = 0#4 ++ id ++ 0#8 := by
  have h : (r ++ id ++ b ++ n) &&& (0#4 ++ 0xF#4 ++ 0#1 ++ 0#7) = 0#4 ++ id ++ 0#1 ++ 0#7 := by
    rw [append_and, append_and, append_and, show id &&& 0xF#4 = id from BitVec.and_allOnes]
    simp
  refine Eq.trans h ?_
  clear h
  revert id
  decide

theorem and_addr (hi mh : Byte) (s : Bool) (a : AddrOperand) (ms : BitVec 1) :
    (hi ++ addrBits s a : Halfword) &&& (mh ++ (ms ++ 0#1 ++ 0#1 ++ 0#1 ++ 0#4)) =
      (hi &&& mh) ++ ((BitVec.ofBool s &&& ms) ++ 0#7 : Byte) := by
  rw [append_and, addrBits, append_and, append_and, append_and, append_and]
  simp only [BitVec.and_zero]
  congr 1
  revert s ms
  decide

/-- The word of a memory-form load (R93) under a mask whose low byte has at most bit 7. -/
theorem wordLoad_row (top mt : BitVec 4) (ss sh : Bool) (d : RegNum) (a : AddrOperand) (ms : BitVec 1)
    (mm : BitVec 4) (mask m : InstrWord)
    (hmask : mask = ((mt ++ mm) ++ (ms ++ 0#1 ++ 0#1 ++ 0#1 ++ 0#4) : Halfword) ++ 0#4 ++ 0#4 ++ 0xFF#8)
    (hm : m = ((top ++ BitVec.ofBool ss ++ 0#3) &&& (mt ++ mm)) ++ ((BitVec.ofBool sh &&& ms) ++ 0#7 : Byte) ++
      0#4 ++ 0#4 ++ 8#8) :
    wordLoad top ss sh d a &&& mask = m := by
  refine wordOf_row _ _ _ _ _ _ _ _ hmask ?_
  rw [hm, and_addr, BitVec.and_zero]

/-! ### One lemma per constructor -/

theorem OpcodeMap.not (d : RegNum) : OpcodeMap.Statement (.not d) := fun _ _ =>
  wordOf_row _ _ _ _ 0xFFFF#16 0xF#4 _ _ rfl rfl

theorem OpcodeMap.or (d s : RegNum) : OpcodeMap.Statement (.or d s) := fun _ _ =>
  wordOf_row _ _ _ _ 0xFFFF#16 0#4 _ _ rfl (by rw [BitVec.and_zero]; rfl)

theorem OpcodeMap.and (d s : RegNum) : OpcodeMap.Statement (.and d s) := fun _ _ =>
  wordOf_row _ _ _ _ 0xFFFF#16 0#4 _ _ rfl (by rw [BitVec.and_zero]; rfl)

theorem OpcodeMap.xor (d s : RegNum) : OpcodeMap.Statement (.xor d s) := fun _ _ =>
  wordOf_row _ _ _ _ 0xFFFF#16 0#4 _ _ rfl (by rw [BitVec.and_zero]; rfl)

theorem OpcodeMap.nor (d s : RegNum) : OpcodeMap.Statement (.nor d s) := fun _ _ =>
  wordOf_row _ _ _ _ 0xFFFF#16 0#4 _ _ rfl (by rw [BitVec.and_zero]; rfl)

theorem OpcodeMap.xnor (d s : RegNum) : OpcodeMap.Statement (.xnor d s) := fun _ _ =>
  wordOf_row _ _ _ _ 0xFFFF#16 0#4 _ _ rfl (by rw [BitVec.and_zero]; rfl)

theorem OpcodeMap.nand (d s : RegNum) : OpcodeMap.Statement (.nand d s) := fun _ _ =>
  wordOf_row _ _ _ _ 0xFFFF#16 0#4 _ _ rfl (by rw [BitVec.and_zero]; rfl)

theorem OpcodeMap.cmp (d s : RegNum) : OpcodeMap.Statement (.cmp d s) := fun _ _ =>
  wordOf_row _ _ _ _ 0xFFFF#16 0#4 _ _ rfl (by rw [BitVec.and_zero]; rfl)

theorem OpcodeMap.bsf (d s : RegNum) : OpcodeMap.Statement (.bsf d s) := fun _ _ =>
  wordOf_row _ _ _ _ 0xFFFF#16 0#4 _ _ rfl (by rw [BitVec.and_zero]; rfl)

theorem OpcodeMap.bsr (d s : RegNum) : OpcodeMap.Statement (.bsr d s) := fun _ _ =>
  wordOf_row _ _ _ _ 0xFFFF#16 0#4 _ _ rfl (by rw [BitVec.and_zero]; rfl)

theorem OpcodeMap.ham (d s : RegNum) : OpcodeMap.Statement (.ham d s) := fun _ _ =>
  wordOf_row _ _ _ _ 0xFFFF#16 0#4 _ _ rfl (by rw [BitVec.and_zero]; rfl)

theorem OpcodeMap.par (d s : RegNum) : OpcodeMap.Statement (.par d s) := fun _ _ =>
  wordOf_row _ _ _ _ 0xFFFF#16 0#4 _ _ rfl (by rw [BitVec.and_zero]; rfl)

theorem OpcodeMap.bex (d s : RegNum) : OpcodeMap.Statement (.bex d s) := fun _ _ =>
  wordOf_row _ _ _ _ 0xFFFF#16 0#4 _ _ rfl (by rw [BitVec.and_zero]; rfl)

theorem OpcodeMap.bdp (d s : RegNum) : OpcodeMap.Statement (.bdp d s) := fun _ _ =>
  wordOf_row _ _ _ _ 0xFFFF#16 0#4 _ _ rfl (by rw [BitVec.and_zero]; rfl)

theorem OpcodeMap.sll (d : RegNum) (c : Count) : OpcodeMap.Statement (.sll d c) := fun _ _ =>
  wordOf_row _ _ _ _ 0xFF80#16 0#4 _ _ rfl (by rw [BitVec.and_zero, and_shift]; rfl)

theorem OpcodeMap.srl (d : RegNum) (c : Count) : OpcodeMap.Statement (.srl d c) := fun _ _ =>
  wordOf_row _ _ _ _ 0xFF80#16 0#4 _ _ rfl (by rw [BitVec.and_zero, and_shift]; rfl)

theorem OpcodeMap.sar (d : RegNum) (c : Count) : OpcodeMap.Statement (.sar d c) := fun _ _ =>
  wordOf_row _ _ _ _ 0xFF80#16 0#4 _ _ rfl (by rw [BitVec.and_zero, and_shift]; rfl)

theorem OpcodeMap.rol (d : RegNum) (c : Count) : OpcodeMap.Statement (.rol d c) := fun _ _ =>
  wordOf_row _ _ _ _ 0xFF80#16 0#4 _ _ rfl (by rw [BitVec.and_zero, and_shift]; rfl)

theorem OpcodeMap.ror (d : RegNum) (c : Count) : OpcodeMap.Statement (.ror d c) := fun _ _ =>
  wordOf_row _ _ _ _ 0xFF80#16 0#4 _ _ rfl (by rw [BitVec.and_zero, and_shift]; rfl)

theorem OpcodeMap.rcl (d : RegNum) (c : Count) : OpcodeMap.Statement (.rcl d c) := fun _ _ =>
  wordOf_row _ _ _ _ 0xFF80#16 0#4 _ _ rfl (by rw [BitVec.and_zero, and_shift]; rfl)

theorem OpcodeMap.rcr (d : RegNum) (c : Count) : OpcodeMap.Statement (.rcr d c) := fun _ _ =>
  wordOf_row _ _ _ _ 0xFF80#16 0#4 _ _ rfl (by rw [BitVec.and_zero, and_shift]; rfl)

theorem OpcodeMap.inc (d s : RegNum) (mu : ArithBits) : OpcodeMap.Statement (.inc d s mu) := fun _ _ =>
  wordOf_row _ _ _ _ 0xFFFC#16 0#4 _ _ rfl (by rw [BitVec.and_zero]; rcases mu with ⟨_ | _, _ | _⟩ <;> rfl)

theorem OpcodeMap.dec (d s : RegNum) (mu : ArithBits) : OpcodeMap.Statement (.dec d s mu) := fun _ _ =>
  wordOf_row _ _ _ _ 0xFFFC#16 0#4 _ _ rfl (by rw [BitVec.and_zero]; rcases mu with ⟨_ | _, _ | _⟩ <;> rfl)

theorem OpcodeMap.add (d s : RegNum) (mu : ArithBits) : OpcodeMap.Statement (.add d s mu) := fun _ _ =>
  wordOf_row _ _ _ _ 0xFFFC#16 0#4 _ _ rfl (by rw [BitVec.and_zero]; rcases mu with ⟨_ | _, _ | _⟩ <;> rfl)

theorem OpcodeMap.sub (d s : RegNum) (mu : ArithBits) : OpcodeMap.Statement (.sub d s mu) := fun _ _ =>
  wordOf_row _ _ _ _ 0xFFFC#16 0#4 _ _ rfl (by rw [BitVec.and_zero]; rcases mu with ⟨_ | _, _ | _⟩ <;> rfl)

theorem OpcodeMap.mul (d s : RegNum) (mu : ArithBits) : OpcodeMap.Statement (.mul d s mu) := fun _ _ =>
  wordOf_row _ _ _ _ 0xFFFC#16 0#4 _ _ rfl (by rw [BitVec.and_zero]; rcases mu with ⟨_ | _, _ | _⟩ <;> rfl)

theorem OpcodeMap.mhi (d s : RegNum) (mu : ArithBits) : OpcodeMap.Statement (.mhi d s mu) := fun _ _ =>
  wordOf_row _ _ _ _ 0xFFFC#16 0#4 _ _ rfl (by rw [BitVec.and_zero]; rcases mu with ⟨_ | _, _ | _⟩ <;> rfl)

theorem OpcodeMap.irp (d s : RegNum) (mu : ArithBits) : OpcodeMap.Statement (.irp d s mu) := fun _ _ =>
  wordOf_row _ _ _ _ 0xFFFC#16 0#4 _ _ rfl (by rw [BitVec.and_zero]; rcases mu with ⟨_ | _, _ | _⟩ <;> rfl)

theorem OpcodeMap.div (d s : RegNum) (mu : ArithBits) : OpcodeMap.Statement (.div d s mu) := fun _ _ =>
  wordOf_row _ _ _ _ 0xFFFC#16 0#4 _ _ rfl (by rw [BitVec.and_zero]; rcases mu with ⟨_ | _, _ | _⟩ <;> rfl)

theorem OpcodeMap.rem (d s : RegNum) (mu : ArithBits) : OpcodeMap.Statement (.rem d s mu) := fun _ _ =>
  wordOf_row _ _ _ _ 0xFFFC#16 0#4 _ _ rfl (by rw [BitVec.and_zero]; rcases mu with ⟨_ | _, _ | _⟩ <;> rfl)

theorem OpcodeMap.lea (d : RegNum) (a : AddrOperand) (s : Option (BitVec 4)) :
    OpcodeMap.Statement (.lea d a s) := fun _ _ =>
  wordOf_row _ _ _ _ (0x0F#8 ++ (0#1 ++ 0#1 ++ 0#1 ++ 0#1 ++ 0#4)) 0#4 _ _ rfl (by
    rw [and_addr, BitVec.and_zero, BitVec.and_zero,
      show (s.getD 0#4 ++ 0#4 : Byte) &&& 0x0F#8 = 0#8 by generalize s.getD 0#4 = n; revert n; decide]; rfl)

theorem OpcodeMap.bst (d : RegNum) (p : Count) (o : Option (BitVec 32)) (r : RegNum) :
    OpcodeMap.Statement (.bst d p o r) := fun _ _ =>
  wordOf_row _ _ _ _ 0x0F00#16 0#4 _ _ rfl (by rw [BitVec.and_zero, and_memBits]; rfl)

theorem OpcodeMap.bcl (d : RegNum) (p : Count) (o : Option (BitVec 32)) (r : RegNum) :
    OpcodeMap.Statement (.bcl d p o r) := fun _ _ =>
  wordOf_row _ _ _ _ 0x0F00#16 0#4 _ _ rfl (by rw [BitVec.and_zero, and_memBits]; rfl)

theorem OpcodeMap.bfl (d : RegNum) (p : Count) (o : Option (BitVec 32)) (r : RegNum) :
    OpcodeMap.Statement (.bfl d p o r) := fun _ _ =>
  wordOf_row _ _ _ _ 0x0F00#16 0#4 _ _ rfl (by rw [BitVec.and_zero, and_memBits]; rfl)

theorem OpcodeMap.bts (d : RegNum) (p : Count) (o : Option (BitVec 32)) (r : RegNum) :
    OpcodeMap.Statement (.bts d p o r) := fun _ _ =>
  wordOf_row _ _ _ _ 0x0F00#16 0#4 _ _ rfl (by rw [BitVec.and_zero, and_memBits]; rfl)

theorem OpcodeMap.btc (d : RegNum) (p : Count) (o : Option (BitVec 32)) (r : RegNum) :
    OpcodeMap.Statement (.btc d p o r) := fun _ _ =>
  wordOf_row _ _ _ _ 0x0F00#16 0#4 _ _ rfl (by rw [BitVec.and_zero, and_memBits]; rfl)

theorem OpcodeMap.btf (d : RegNum) (p : Count) (o : Option (BitVec 32)) (r : RegNum) :
    OpcodeMap.Statement (.btf d p o r) := fun _ _ =>
  wordOf_row _ _ _ _ 0x0F00#16 0#4 _ _ rfl (by rw [BitVec.and_zero, and_memBits]; rfl)

theorem OpcodeMap.ldh (d : RegNum) (h : Halfword) : OpcodeMap.Statement (.ldh d h) := fun _ _ =>
  wordOf_row _ _ _ _ 0#16 0xF#4 _ _ rfl (by rw [BitVec.and_zero]; rfl)

theorem OpcodeMap.ldb (d : RegNum) (b : Byte) : OpcodeMap.Statement (.ldb d b) := fun _ _ =>
  wordOf_row _ _ _ _ (0xFF#8 ++ 0#8) 0xF#4 _ _ rfl (by rw [append_and, BitVec.and_zero]; rfl)

theorem OpcodeMap.ldi (d : RegNum) (v : BitVec 32) : OpcodeMap.Statement (.ldi d v) := fun _ _ =>
  wordOf_row _ _ _ _ 0xFFFF#16 0xF#4 _ _ rfl rfl

theorem OpcodeMap.ldl (d : RegNum) (v : Longword) : OpcodeMap.Statement (.ldl d v) := fun _ _ =>
  wordOf_row _ _ _ _ 0xFFFF#16 0xF#4 _ _ rfl rfl

theorem OpcodeMap.lnt (d : RegNum) (a : AddrOperand) : OpcodeMap.Statement (.lnt d a) := fun _ _ =>
  wordLoad_row _ 0xF#4 _ _ _ _ 1#1 0xF#4 _ _ rfl rfl

theorem OpcodeMap.ldr (d : RegNum) (a : AddrOperand) (m : LdrMode) : OpcodeMap.Statement (.ldr d a m) := fun _ hw => by
  rcases m with ⟨l1, l2⟩ | n
  · cases l1 with
    | true => exact wordLoad_row _ 0xB#4 _ _ _ _ 1#1 0xF#4 _ _ rfl (by cases l2 <;> rfl)
    | false =>
      cases l2 with
      | true => exact wordLoad_row _ 0xF#4 _ _ _ _ 1#1 0xF#4 _ _ rfl rfl
      | false => cases hw
  · exact wordLoad_row _ 0#4 _ _ _ _ 1#1 0xF#4 _ _ rfl (by
      rw [show (n ++ BitVec.ofBool false ++ 0#3 : Byte) &&& (0#4 ++ 0xF#4) = 0#8 by clear hw; revert n; decide]; rfl)

theorem OpcodeMap.ldx (f : LdxForm) : OpcodeMap.Statement (.ldx f) := fun _ _ => by
  rcases f with ⟨s, d⟩ | ⟨s, d⟩ | ⟨a, l1, l2, d⟩
  · exact wordOf_row _ _ _ _ 0xEFFF#16 0#4 _ _ rfl (by rw [BitVec.and_zero]; rfl)
  · exact wordOf_row _ _ _ _ 0xEFFF#16 0#4 _ _ rfl (by rw [BitVec.and_zero]; rfl)
  · exact wordLoad_row _ 0x9#4 _ _ _ _ 1#1 0xF#4 _ _ rfl (by cases l1 <;> cases l2 <;> rfl)

end Sys2Proof.Laws
end

