-- ==== Sys2Proof/Laws/Shapes.lean ====
section
/-! SUPPORT. For each shape that a family's meanings share, one lemma that says everything it does. -/

namespace Sys2Proof.Machine

variable {W : Nat}

/-- Every meaning answers a next state, at the same width. -/
theorem exec_goto (i : Instr) (s : State) : ∃ m', exec i s = s.goto m' := by
  cases i with
  | ldx f => cases f <;> exact ⟨_, rfl⟩
  | _ => exact ⟨_, rfl⟩

/-! ### Register instructions -/

theorem logical_effect (m : Mach W) (d r : RegNum) (f : BitVec W → BitVec W → BitVec W) :
    Effect m (logical m d r f) d (f (m.reg d) (m.reg r)) m.flags 4 := by
  constructor <;> simp [logical, Mach.reg_writeReg]

theorem shiftPlain_effect (m : Mach W) (d : RegNum) (c : Count) (f : BitVec W → Nat → BitVec W) :
    Effect m (shiftPlain m d c f) d (f (m.reg d) (m.countOf c)) m.flags 4 := by
  constructor <;> simp [shiftPlain, Mach.reg_writeReg]

theorem shiftCarry_effect (m : Mach W) (d : RegNum) (c : Count) (f : BitVec (W + 1) → Nat → BitVec (W + 1)) :
    Effect m (shiftCarry m d c f) d ((f (withCarry m.flags.CF (m.reg d)) (m.countOf c)).setWidth W)
      { m.flags with CF := (f (withCarry m.flags.CF (m.reg d)) (m.countOf c)).getLsbD W } 4 := by
  constructor <;> simp [shiftCarry, Mach.reg_writeReg]

theorem arith_effect (m : Mach W) (d : RegNum) (mu : ArithBits) (v : BitVec W) (c : CarryOverflow) :
    Effect m (arith m d mu v c) d v (if mu.M then { m.flags with CF := c.CF, OF := c.OF } else m.flags) 4 := by
  constructor <;> simp [arith, Mach.reg_writeReg, Mach.setCarry_flags]

theorem arithFree_effect (m : Mach W) (d : RegNum) (mu : ArithBits) (v : BitVec W) :
    FreeEffect m (arithFree m d mu v) d v mu.M := by
  constructor <;> simp +contextual [arithFree, Mach.reg_writeReg, Mach.setFreeCarry_off]

/-- A zero divisor raises; any other gives the result (43_arithmetic R158, R159). -/
theorem divide_zero (m : Mach W) (d r : RegNum) (mu : ArithBits) (f : Bool → BitVec W → BitVec W → BitVec W)
    (h : m.reg r = 0#W) : divide m d r mu f = m.raise (.divideByZero m.pc.toNat) := by
  simp [divide, h]

theorem divide_nonzero (m : Mach W) (d r : RegNum) (mu : ArithBits) (f : Bool → BitVec W → BitVec W → BitVec W)
    (h : m.reg r ≠ 0#W) : divide m d r mu f = arithFree m d mu (f mu.U (m.reg d) (m.reg r)) := by
  simp [divide, h]

theorem bitOp_effect (m : Mach W) (d : RegNum) (v : BitVec W) : Effect m (bitOp m d v) d v m.flags 4 := by
  constructor <;> simp [bitOp, Mach.reg_writeReg]

theorem loadImm_effect (m : Mach W) (d : RegNum) (v : BitVec W) (n : Nat) :
    Effect m (loadImm m d v n) d v m.flags n := by
  constructor <;> simp [loadImm, Mach.reg_writeReg]

/-- The end of LEA and of a memory load (45_lea R186, 47_loads R225). -/
theorem writeReg_advance_effect (m : Mach W) (d : RegNum) (v : BitVec W) (n : Nat) :
    Effect m ((m.writeReg d v).advance n) d v m.flags n :=
  loadImm_effect m d v n

/-! ### Memory instructions -/

theorem loadMem_accessible (m : Mach W) (d : RegNum) (a : AddrOperand) (k : Nat) (h : Accessible m (m.effAddr a k)) :
    loadMem m d a k = (m.writeReg d (m.wordAt (m.effAddr a k).toNat)).advance (lenOf a.disp) := by
  simp [loadMem, (Mach.memRead_ok_iff m _ _).2 ⟨h, rfl⟩]

theorem loadMem_error (m : Mach W) (d : RegNum) (a : AddrOperand) (k : Nat) (f : Fault)
    (h : m.memRead (m.effAddr a k) = .error f) : loadMem m d a k = m.raise f := by
  simp [loadMem, h]

theorem memBits_error (m : Mach W) (d : RegNum) (p : Count) (o : Option (BitVec 32)) (ret : RegNum)
    (f : BitVec W → BitVec W → BitVec W × Bool) (e : Fault) (h : m.memRead (m.bitAddr d o) = .error e) :
    memBits m d p o ret f = m.raise e := by
  simp [memBits, h]

/-- On an accessible word an op 6 instruction writes the new word, or leaves it where it is told not to write, and returns
the old one (46_bit_manipulation R207). -/
theorem memBits_effect (x : Xlen) (m : Mach x.bits) (d : RegNum) (p : Count) (o : Option (BitVec 32)) (ret : RegNum)
    (f : BitVec x.bits → BitVec x.bits → BitVec x.bits × Bool) (h : Accessible m (m.bitAddr d o)) :
    let old := m.wordAt (m.bitAddr d o).toNat
    let r := f old (m.bitOf p)
    StoreEffect m (memBits m d p o ret f) (m.bitAddr d o) (if r.2 then r.1 else old) ret old (lenOf o) := by
  intro old r
  have hr : m.memRead (m.bitAddr d o) = .ok old := (Mach.memRead_ok_iff m _ _).2 ⟨h, rfl⟩
  cases hw : r.2 with
  | false =>
    have hm : memBits m d p o ret f = (m.writeReg ret old).advance (lenOf o) := by
      simp only [memBits, hr]
      simp [show (f old (m.bitOf p)).2 = false from hw]
    rw [hm]
    constructor <;> simp [Mach.reg_writeReg]
    exact wordAt_congr (by simp) (by simp) _
  | true =>
    let m1 : Mach x.bits := { m with mem := m.mem.writeBytes (m.bitAddr d o).toNat (dataBytes m.cfg.endian r.1) }
    have hm : memBits m d p o ret f = (m1.writeReg ret old).advance (lenOf o) := by
      simp only [memBits, hr]
      simp [show (f old (m.bitOf p)).2 = true from hw, (Mach.memWrite_ok_iff m _ _ _).2 ⟨h, rfl⟩, r, m1]
    rw [hm]
    constructor
    · intro q
      rw [Mach.reg_advance, Mach.reg_writeReg]
      rfl
    · rw [if_pos rfl, ← wordAt_writeBytes x m (m.bitAddr d o).toNat r.1]
      exact wordAt_congr (by simp [m1]) (by simp [m1]) _
    · intro a ha
      simp only [Mach.advance_mem, Mach.writeReg_mem]
      exact Memory.read_writeBytes_outside _ _ _ _ (by simpa using ha)
    all_goals simp [m1]

/-! ### System registers -/

theorem sysToReg_msw (m : Mach W) (d : RegNum) :
    sysToReg m m.cfg.mswIndex d = (m.writeReg d (mswValue W m.flags)).advance 4 := by
  simp [sysToReg, Mach.readSys_msw]

theorem sysToReg_reserved (m : Mach W) (n d : RegNum) (h : n ≠ m.cfg.mswIndex) :
    sysToReg m n d = m.raise (.reservedSystemRegister n) := by
  simp [sysToReg, Mach.readSys_reserved m n h]

theorem sysToSys_src_reserved (m : Mach W) (n d : RegNum) (h : n ≠ m.cfg.mswIndex) :
    sysToSys m n d = m.raise (.reservedSystemRegister n) := by
  simp [sysToSys, Mach.readSys_reserved m n h]

theorem sysToSys_dst_reserved (m : Mach W) (d : RegNum) (h : d ≠ m.cfg.mswIndex) :
    sysToSys m m.cfg.mswIndex d = m.raise (.reservedSystemRegister d) := by
  simp [sysToSys, Mach.readSys_msw, Mach.writeSys_reserved m d _ h]

theorem sysToSys_msw (x : Xlen) (m : Mach x.bits) :
    sysToSys m m.cfg.mswIndex m.cfg.mswIndex = m.advance 4 := by
  simp [sysToSys, Mach.readSys_msw, Mach.writeSys_msw, flagsOfMsw_mswValue, Mach.setFlags]

theorem memToSys_reserved (m : Mach W) (a : AddrOperand) (d : RegNum) (h : d ≠ m.cfg.mswIndex) :
    memToSys m a d = m.raise (.reservedSystemRegister d) := by
  simp [memToSys, h]

theorem memToSys_error (m : Mach W) (a : AddrOperand) (f : Fault) (h : m.memRead (m.effAddr a 0) = .error f) :
    memToSys m a m.cfg.mswIndex = m.raise f := by
  simp [memToSys, h]

theorem memToSys_accessible (m : Mach W) (a : AddrOperand) (h : Accessible m (m.effAddr a 0)) :
    memToSys m a m.cfg.mswIndex =
      (m.setFlags (flagsOfMsw (m.wordAt (m.effAddr a 0).toNat))).advance (lenOf a.disp) := by
  simp [memToSys, (Mach.memRead_ok_iff m _ _).2 ⟨h, rfl⟩, Mach.writeSys_msw]

end Sys2Proof.Machine
end

