-- ==== Sys2Proof/Laws/Step.lean ====
section
/-! SUPPORT. What a step of a running machine does, by what its fetch gives (60_exceptions R285). -/

namespace Sys2Proof.Machine

/-- A fault of the fetch or of the decoding is raised. -/
theorem step_of_fetch_error {x : Xlen} {m : Mach x.bits} {f : Fault} (hr : m.status = .running)
    (he : m.cfg.endPc ≠ some m.pc) (h : m.fetchInstr x = .error f) : step ⟨x, m⟩ = .next ⟨x, m.raise f⟩ := by
  have ha : m.atEnd = false := by simp [Mach.atEnd, he]
  simp [step, hr, ha, h, State.goto]

/-- A word that the decoder refuses is an illegal instruction, whatever stands after it (60_exceptions R265). -/
theorem Mach.fetchInstr_illegal {x : Xlen} {m : Mach x.bits} {w : InstrWord} {e : Reject}
    (hf : m.fetchWord m.pc = .ok w) (hd : decodeWord x m.cfg.strictReserved w = .error e) :
    m.fetchInstr x = .error (.illegalInstruction m.pc.toNat w) := by
  simp [Mach.fetchInstr, hf, hd]

/-- The instruction that was fetched and decoded is executed. -/
theorem step_of_fetch_ok {x : Xlen} {m : Mach x.bits} {i : Instr} (hr : m.status = .running)
    (he : m.cfg.endPc ≠ some m.pc) (h : m.fetchInstr x = .ok i) : step ⟨x, m⟩ = exec i ⟨x, m⟩ := by
  have ha : m.atEnd = false := by simp [Mach.atEnd, he]
  simp [step, hr, ha, h]

/-- A run of `k + 1` steps is a step and a run of `k`. -/
theorem run_succ {s t : State} (h : step s = .next t) (k : Nat) :
    Host.Core.run Sys2Proof.core (k + 1) s = Host.Core.run Sys2Proof.core k t := by
  have h' : Sys2Proof.core.step s = .next t := h
  simp only [Host.Core.run]
  rw [h']

end Sys2Proof.Machine
end

