-- ==== Sys2Proof/Tests/Slice0.lean ====
section
/-! SUPPORT. Tests: what WellFormed refuses, the decoding of every constructor from words written out from the encoding
tables, steps with the results that spec/95_test_vectors.md gives, and for every obligation with hypotheses a state and
operands that meet them. -/

namespace Sys2Proof.Tests

open Sys2Proof Sys2Proof.Machine

/-! ### WellFormed refuses what the encoding does not admit -/

/-- "1-15" for dst (30_encoding R97 item 2). -/
theorem test_refuses_dst_zero :
    (Instr.or 0 3).check .x64 = .error .dstZero ∧ (Instr.sll 0 (.imm 1)).check .x64 = .error .dstZero ∧
    (Instr.lnt 0 ⟨none, none, none⟩).check .x64 = .error .dstZero := by decide

/-- A count register of 0 (R97 item 2). -/
theorem test_refuses_count_register_zero :
    (Instr.sll 2 (.reg 0)).check .x64 = .error .countRegZero ∧
    (Instr.bst 1 (.reg 0) none 4).check .x64 = .error .countRegZero := by decide

/-- A base register of 0 with R = 1 (R97 item 2). -/
theorem test_refuses_base_zero :
    (Instr.lnt 2 ⟨some 0, none, none⟩).check .x64 = .error .baseZero ∧
    (Instr.ldx (.memToSys ⟨some 0, none, none⟩ false false 0)).check .x64 = .error .baseZero := by decide

/-- An immediate count of 32 at XLEN = 32 (R97 item 4); 31 is the last that fits, and at XLEN = 64 all six bits do. -/
theorem test_refuses_count_too_wide :
    (Instr.sll 2 (.imm 32)).check .x32 = .error .countTooWide ∧ (Instr.sll 2 (.imm 31)).check .x32 = .ok () ∧
    (Instr.sll 2 (.imm 63)).check .x64 = .ok () := by decide

/-- LDL at XLEN = 32 (R97 item 6). -/
theorem test_refuses_longword_at_32 :
    (Instr.ldl 2 5).check .x32 = .error .longwordAt32 ∧ (Instr.ldl 2 5).check .x64 = .ok () := by decide

/-- An LDR with neither cache bit: the word would be an LNT's (47_loads R215). -/
theorem test_refuses_no_cache_bit :
    (Instr.ldr 2 ⟨some 3, none, none⟩ (.cached false false)).check .x64 = .error .noCacheBit := by decide

/-! ### Every constructor from a word of the encoding tables (30_encoding R81, R92, R93, R101)

A word is `imm16 ++ src ++ dst ++ op`, so in hexadecimal IIII S D OO. -/

theorem test_decode_not : decodeWord .x64 true 0x00000200#32 = .ok (.not 2) := by decide
theorem test_decode_or : decodeWord .x64 true 0x01003200#32 = .ok (.or 2 3) := by decide
theorem test_decode_and : decodeWord .x64 true 0x0200F100#32 = .ok (.and 1 15) := by decide
theorem test_decode_xor : decodeWord .x64 true 0x03002F00#32 = .ok (.xor 15 2) := by decide
theorem test_decode_nor : decodeWord .x64 true 0x04000200#32 = .ok (.nor 2 0) := by decide
theorem test_decode_xnor : decodeWord .x64 true 0x05003200#32 = .ok (.xnor 2 3) := by decide
theorem test_decode_nand : decodeWord .x64 true 0x06003200#32 = .ok (.nand 2 3) := by decide
theorem test_decode_sll : decodeWord .x64 true 0x00440201#32 = .ok (.sll 2 (.imm 4)) := by decide
theorem test_decode_srl : decodeWord .x64 true 0x01003201#32 = .ok (.srl 2 (.reg 3)) := by decide
theorem test_decode_sar : decodeWord .x64 true 0x027F0201#32 = .ok (.sar 2 (.imm 63)) := by decide
theorem test_decode_rol : decodeWord .x32 true 0x035F0201#32 = .ok (.rol 2 (.imm 31)) := by decide
theorem test_decode_ror : decodeWord .x64 true 0x04003201#32 = .ok (.ror 2 (.reg 3)) := by decide
theorem test_decode_rcl : decodeWord .x64 true 0x05410201#32 = .ok (.rcl 2 (.imm 1)) := by decide
theorem test_decode_rcr : decodeWord .x64 true 0x0600E701#32 = .ok (.rcr 7 (.reg 14)) := by decide
theorem test_decode_cmp : decodeWord .x64 true 0x00003202#32 = .ok (.cmp 2 3) := by decide
theorem test_decode_inc : decodeWord .x64 true 0x00013203#32 = .ok (.inc 2 3 ⟨true, false⟩) := by decide
theorem test_decode_dec : decodeWord .x64 true 0x01023203#32 = .ok (.dec 2 3 ⟨false, true⟩) := by decide
theorem test_decode_add : decodeWord .x64 true 0x02033203#32 = .ok (.add 2 3 ⟨true, true⟩) := by decide
theorem test_decode_sub : decodeWord .x64 true 0x03003203#32 = .ok (.sub 2 3 ⟨false, false⟩) := by decide
theorem test_decode_mul : decodeWord .x64 true 0x04023203#32 = .ok (.mul 2 3 ⟨false, true⟩) := by decide
theorem test_decode_mhi : decodeWord .x64 true 0x05033203#32 = .ok (.mhi 2 3 ⟨true, true⟩) := by decide
theorem test_decode_irp : decodeWord .x64 true 0x06003203#32 = .ok (.irp 2 3 ⟨false, false⟩) := by decide
theorem test_decode_div : decodeWord .x64 true 0x07023203#32 = .ok (.div 2 3 ⟨false, true⟩) := by decide
theorem test_decode_rem : decodeWord .x64 true 0x08013203#32 = .ok (.rem 2 3 ⟨true, false⟩) := by decide
theorem test_decode_bsf : decodeWord .x64 true 0x03003204#32 = .ok (.bsf 2 3) := by decide
theorem test_decode_bsr : decodeWord .x64 true 0x04003204#32 = .ok (.bsr 2 3) := by decide
theorem test_decode_ham : decodeWord .x64 true 0x05003204#32 = .ok (.ham 2 3) := by decide
theorem test_decode_par : decodeWord .x64 true 0x06003204#32 = .ok (.par 2 3) := by decide
theorem test_decode_bex : decodeWord .x64 true 0x0A003204#32 = .ok (.bex 2 3) := by decide
theorem test_decode_bdp : decodeWord .x64 true 0x0B003204#32 = .ok (.bdp 2 3) := by decide

/-- The position from a register, with `src` read; the position from `imm16[5:0]`, with `src` ignored. -/
theorem test_decode_bst : decodeWord .x64 true 0x40003106#32 = .ok (.bst 1 (.reg 3) none 4) := by decide
theorem test_decode_bcl : decodeWord .x64 true 0x017F3106#32 = .ok (.bcl 1 (.imm 63) none 0) := by decide
theorem test_decode_bfl : decodeWord .x64 true 0x42400106#32 = .ok (.bfl 1 (.imm 0) none 4) := by decide
theorem test_decode_bts : decodeWord .x64 true 0xF3003206#32 = .ok (.bts 2 (.reg 3) none 15) := by decide
theorem test_decode_btc : decodeWord .x32 true 0x145F0206#32 = .ok (.btc 2 (.imm 31) none 1) := by decide
theorem test_decode_btf : decodeWord .x64 true 0x95410206#32 = .ok (.btf 2 (.imm 1) none 9) := by decide
theorem test_decode_ldh : decodeWord .x64 true 0x12340207#32 = .ok (.ldh 2 0x1234) := by decide
theorem test_decode_ldb : decodeWord .x64 true 0x02AB0208#32 = .ok (.ldb 2 0xAB) := by decide

/-- No field of an LNT selected but the base; then `ofsreg` alone. -/
theorem test_decode_lnt :
    decodeWord .x64 true 0x00103208#32 = .ok (.lnt 2 ⟨some 3, none, none⟩) ∧
    decodeWord .x64 true 0x00243208#32 = .ok (.lnt 2 ⟨none, some 4, none⟩) := by decide

/-- L1, L2, and SH with its count. -/
theorem test_decode_ldr :
    decodeWord .x64 true 0x20103208#32 = .ok (.ldr 2 ⟨some 3, none, none⟩ (.cached true false)) ∧
    decodeWord .x64 true 0x40103208#32 = .ok (.ldr 2 ⟨some 3, none, none⟩ (.cached false true)) ∧
    decodeWord .x64 true 0xF0B43208#32 = .ok (.ldr 2 ⟨some 3, some 4, none⟩ (.scaled 15)) := by decide

theorem test_decode_ldx :
    decodeWord .x64 true 0x08003208#32 = .ok (.ldx (.sysToReg 3 2)) ∧
    decodeWord .x64 true 0x18000508#32 = .ok (.ldx (.sysToSys 0 5)) ∧
    decodeWord .x64 true 0x70243508#32 = .ok (.ldx (.memToSys ⟨none, some 4, none⟩ true true 5)) := by decide

/-- LEA with every part: base r3, offset r4 shifted by 3, `imm32` = -8 in the word after it (R92, R85). -/
theorem test_decode_lea :
    decodeBytes .x64 true .little true
      [0x05, 0x32, 0xF4, 0x30, 0xF8, 0xFF, 0xFF, 0xFF] =
      .ok (.lea 2 ⟨some 3, some 4, some 0xFFFFFFF8#32⟩ (some 3), []) := by decide

/-- LDI in either byte order (20_memory R51, R56). -/
theorem test_decode_ldi :
    decodeBytes .x32 true .little true [0x08, 0x02, 0x00, 0x01, 0xEF, 0xBE, 0xAD, 0xDE, 0x77] =
      .ok (.ldi 2 0xDEADBEEF#32, [0x77]) ∧
    decodeBytes .x32 true .big true [0x01, 0x00, 0x02, 0x08, 0xDE, 0xAD, 0xBE, 0xEF] =
      .ok (.ldi 2 0xDEADBEEF#32, []) := by decide

/-- LDL with and without its pad word; its low word first in either byte order (R86, D11). -/
theorem test_decode_ldl :
    decodeBytes .x64 true .little true
      [0x08, 0x02, 0x00, 0x04, 0, 0, 0, 0, 0xEF, 0xCD, 0xAB, 0x89, 0x67, 0x45, 0x23, 0x01] =
      .ok (.ldl 2 0x0123456789ABCDEF#64, []) ∧
    decodeBytes .x64 true .big false
      [0x04, 0x00, 0x02, 0x08, 0x89, 0xAB, 0xCD, 0xEF, 0x01, 0x23, 0x45, 0x67] =
      .ok (.ldl 2 0x0123456789ABCDEF#64, []) := by decide

/-- Reserved words, each refused by its reason (R96, R97). -/
theorem test_reserved_words :
    decodeWord .x64 true 0x00000009#32 = .error .reservedOp ∧ decodeWord .x64 true 0x07003200#32 = .error .reservedId ∧
    decodeWord .x64 true 0x01003000#32 = .error .dstZero ∧ decodeWord .x64 true 0x00000201#32 = .error .srcZero ∧
    decodeWord .x64 true 0x00003200#32 = .error .notApplicable ∧
    decodeWord .x64 true 0x02043203#32 = .error .mustBeZero ∧ decodeWord .x32 true 0x00600201#32 = .error .mustBeZero ∧
    decodeWord .x64 true 0x03000208#32 = .error .loadBits ∧ decodeWord .x64 true 0x08800208#32 = .error .loadForm ∧
    decodeWord .x32 true 0x04000208#32 = .error .longwordAt32 := by decide

/-- With STRICT_RESERVED = false the "must be 0" bits and "N/A" fields are ignored, and nothing else is (R97). -/
theorem test_relaxed_words :
    decodeWord .x64 false 0x02043203#32 = .ok (.add 2 3 ⟨false, false⟩) ∧
    decodeWord .x64 false 0x00003200#32 = .ok (.not 2) ∧ decodeWord .x64 false 0x01003000#32 = .error .dstZero ∧
    decodeWord .x64 false 0x07003200#32 = .error .reservedId := by decide

/-! ### Steps

The machine of spec/95_test_vectors.md: MEM_VALID is [0x1000, 0x3000), `pc` and the words stored there, some registers,
the flags, some memory-words. -/

/-- The machine of the vectors. -/
def benchMach (x : Xlen) (pc : Nat) (words : List InstrWord) (regs : List (RegNum × Nat)) (f : Flags)
    (mem : List (Nat × Nat)) : Mach x.bits :=
  let cfg : Params x.bits := { Params.default x.bits with memValid := [⟨0x1000, 0x2000⟩] }
  let image := mem.foldl (fun m p => Memory.writeBytes m p.1 (bytesOfNat (x.bits / 8) p.2)) []
  let code := Memory.writeBytes image pc (words.flatMap (bytesOfWord .little))
  let start : Mach x.bits := { Mach.reset cfg code with pc := BitVec.ofNat x.bits pc, flags := f }
  regs.foldl (fun m p => m.writeReg p.1 (BitVec.ofNat x.bits p.2)) start

def bench (x : Xlen) (pc : Nat) (words : List InstrWord) (regs : List (RegNum × Nat)) (f : Flags)
    (mem : List (Nat × Nat)) : State :=
  ⟨x, benchMach x pc words regs f mem⟩

def noFlags : Flags := ⟨false, false, false, false⟩

/-- What one step leaves in a register, in the flags, in `pc`, in a memory-word and in the run status. -/
def regAfter (s : State) (r : RegNum) : Option Nat :=
  match step s with
  | .next t => some (t.mach.reg r).toNat
  | _ => none

def flagsAfter (s : State) : Option Flags :=
  match step s with
  | .next t => some t.mach.flags
  | _ => none

def pcAfter (s : State) : Option Nat :=
  match step s with
  | .next t => some t.mach.pc.toNat
  | _ => none

def wordAfter (s : State) (a : Nat) : Option Nat :=
  match step s with
  | .next t => some (t.mach.wordAt a).toNat
  | _ => none

def statusAfter (s : State) : Option RunStatus :=
  match step s with
  | .next t => some t.mach.status
  | _ => none

/-- VA1: NOT r2, XLEN = 64. -/
theorem test_not_VA1 :
    let s := bench .x64 0x1000 [0x00000200] [(2, 0xff00ff00ff00ff)] noFlags []
    regAfter s 2 = some 0xff00ff00ff00ff00 ∧ pcAfter s = some 0x1004 := by
  decide

/-- VA2: NOT r2, XLEN = 32. -/
theorem test_not_VA2 :
    let s := bench .x32 0x1000 [0x00000200] [(2, 0)] noFlags []
    regAfter s 2 = some 0xffffffff ∧ pcAfter s = some 0x1004 := by
  decide

/-- VA3: OR r3, r2, XLEN = 64. -/
theorem test_or_VA3 :
    let s := bench .x64 0x1000 [0x01003200] [(2, 0xf0), (3, 0xf)] noFlags []
    regAfter s 2 = some 0xff ∧ pcAfter s = some 0x1004 := by
  decide

/-- VA4: AND r3, r2, XLEN = 64. -/
theorem test_and_VA4 :
    let s := bench .x64 0x1000 [0x02003200] [(2, 0xff00), (3, 0xff0)] noFlags []
    regAfter s 2 = some 0xf00 ∧ pcAfter s = some 0x1004 := by
  decide

/-- VA9: AND r3, r2, XLEN = 64. -/
theorem test_and_VA9 :
    let s := bench .x64 0x1000 [0x02003200] [(2, 1), (3, 2)] ⟨false, true, true, false⟩ []
    regAfter s 2 = some 0 ∧ flagsAfter s = some ⟨false, true, true, false⟩ ∧ pcAfter s = some 0x1004 := by
  decide

/-- VA5: XOR r2, r2, XLEN = 64. -/
theorem test_xor_VA5 :
    let s := bench .x64 0x1000 [0x03002200] [(2, 0x1234)] noFlags []
    regAfter s 2 = some 0 ∧ pcAfter s = some 0x1004 := by
  decide

/-- VA6: NOR r0, r2, XLEN = 64. -/
theorem test_nor_VA6 :
    let s := bench .x64 0x1000 [0x04000200] [(2, 0xff)] noFlags []
    regAfter s 2 = some 0xffffffffffffff00 ∧ pcAfter s = some 0x1004 := by
  decide

/-- VA7: XNOR r3, r2, XLEN = 64. -/
theorem test_xnor_VA7 :
    let s := bench .x64 0x1000 [0x05003200] [(2, 0xff00), (3, 0xff0)] noFlags []
    regAfter s 2 = some 0xffffffffffff0f0f ∧ pcAfter s = some 0x1004 := by
  decide

/-- VA8: NAND r3, r2, XLEN = 32. -/
theorem test_nand_VA8 :
    let s := bench .x32 0x1000 [0x06003200] [(2, 0xffffffff), (3, 0xffffffff)] noFlags []
    regAfter s 2 = some 0 ∧ pcAfter s = some 0x1004 := by
  decide

/-- VB3: SLL $63, r2, XLEN = 64. -/
theorem test_sll_VB3 :
    let s := bench .x64 0x1000 [0x007F0201] [(2, 3)] noFlags []
    regAfter s 2 = some 0x8000000000000000 ∧ pcAfter s = some 0x1004 := by
  decide

/-- VB12: SLL r2, r2, XLEN = 64. -/
theorem test_sll_VB12 :
    let s := bench .x64 0x1000 [0x00002201] [(2, 3)] noFlags []
    regAfter s 2 = some 0x18 ∧ pcAfter s = some 0x1004 := by
  decide

/-- VB10: SRL r3, r2, XLEN = 64. -/
theorem test_srl_VB10 :
    let s := bench .x64 0x1000 [0x01003201] [(2, 0x100), (3, 0x48)] noFlags []
    regAfter s 2 = some 1 ∧ pcAfter s = some 0x1004 := by
  decide

/-- VB11: SRL r3, r2, XLEN = 32. -/
theorem test_srl_VB11 :
    let s := bench .x32 0x1000 [0x01003201] [(2, 0x100), (3, 0x48)] noFlags []
    regAfter s 2 = some 1 ∧ pcAfter s = some 0x1004 := by
  decide

/-- VB7: SAR $4, r2, XLEN = 64. -/
theorem test_sar_VB7 :
    let s := bench .x64 0x1000 [0x02440201] [(2, 0xf00000000000000f)] noFlags []
    regAfter s 2 = some 0xff00000000000000 ∧ pcAfter s = some 0x1004 := by
  decide

/-- VB8: SAR $63, r2, XLEN = 64. -/
theorem test_sar_VB8 :
    let s := bench .x64 0x1000 [0x027F0201] [(2, 0x8000000000000000)] noFlags []
    regAfter s 2 = some 0xffffffffffffffff ∧ pcAfter s = some 0x1004 := by
  decide

/-- VB14: ROL $8, r2, XLEN = 64. -/
theorem test_rol_VB14 :
    let s := bench .x64 0x1000 [0x03480201] [(2, 0xab00000000000001)] noFlags []
    regAfter s 2 = some 0x1ab ∧ pcAfter s = some 0x1004 := by
  decide

/-- VB17: ROL $1, r2, XLEN = 32. -/
theorem test_rol_VB17 :
    let s := bench .x32 0x1000 [0x03410201] [(2, 0x80000001)] noFlags []
    regAfter s 2 = some 3 ∧ pcAfter s = some 0x1004 := by
  decide

/-- VB15: ROR $8, r2, XLEN = 64. -/
theorem test_ror_VB15 :
    let s := bench .x64 0x1000 [0x04480201] [(2, 0xab00000000000001)] noFlags []
    regAfter s 2 = some 0x1ab000000000000 ∧ pcAfter s = some 0x1004 := by
  decide

/-- VB18: RCL $1, r2, XLEN = 64. -/
theorem test_rcl_VB18 :
    let s := bench .x64 0x1000 [0x05410201] [(2, 0x8000000000000001)] noFlags []
    regAfter s 2 = some 2 ∧ flagsAfter s = some ⟨false, false, true, false⟩ ∧ pcAfter s = some 0x1004 := by
  decide

/-- VB23: RCL $63, r2, XLEN = 64. -/
theorem test_rcl_VB23 :
    let s := bench .x64 0x1000 [0x057F0201] [(2, 1)] ⟨false, false, true, false⟩ []
    regAfter s 2 = some 0xc000000000000000 ∧ flagsAfter s = some ⟨false, false, false, false⟩ ∧ pcAfter s = some 0x1004 := by
  decide

/-- VB21: RCR $1, r2, XLEN = 64. -/
theorem test_rcr_VB21 :
    let s := bench .x64 0x1000 [0x06410201] [(2, 2)] ⟨false, false, true, false⟩ []
    regAfter s 2 = some 0x8000000000000001 ∧ flagsAfter s = some ⟨false, false, false, false⟩ ∧ pcAfter s = some 0x1004 := by
  decide

/-- VB24: RCR $4, r2, XLEN = 32. -/
theorem test_rcr_VB24 :
    let s := bench .x32 0x1000 [0x06440201] [(2, 0x12345678)] ⟨false, false, true, false⟩ []
    regAfter s 2 = some 0x11234567 ∧ flagsAfter s = some ⟨false, false, true, false⟩ ∧ pcAfter s = some 0x1004 := by
  decide

/-- VC4: CMP r3, r2, XLEN = 64. -/
theorem test_cmp_VC4 :
    let s := bench .x64 0x1000 [0x00003202] [(2, 1), (3, 0xffffffffffffffff)] noFlags []
    flagsAfter s = some ⟨false, true, false, false⟩ ∧ pcAfter s = some 0x1004 := by
  decide

/-- VC6: CMP r3, r2, XLEN = 64. -/
theorem test_cmp_VC6 :
    let s := bench .x64 0x1000 [0x00003202] [(2, 0x7fffffffffffffff), (3, 0x8000000000000000)] noFlags []
    flagsAfter s = some ⟨false, true, false, true⟩ ∧ pcAfter s = some 0x1004 := by
  decide

/-- VD2: INC r3, r2, XLEN = 64. -/
theorem test_inc_VD2 :
    let s := bench .x64 0x1000 [0x00003203] [(2, 0), (3, 0x29)] noFlags []
    regAfter s 2 = some 0x2a ∧ pcAfter s = some 0x1004 := by
  decide

/-- VD4: INC.M r2, r2, XLEN = 64. -/
theorem test_inc_VD4 :
    let s := bench .x64 0x1000 [0x00012203] [(2, 0x7fffffffffffffff)] noFlags []
    regAfter s 2 = some 0x8000000000000000 ∧ flagsAfter s = some ⟨false, false, false, true⟩ ∧ pcAfter s = some 0x1004 := by
  decide

/-- VD6: DEC.M r2, r2, XLEN = 64. -/
theorem test_dec_VD6 :
    let s := bench .x64 0x1000 [0x01012203] [(2, 0)] noFlags []
    regAfter s 2 = some 0xffffffffffffffff ∧ flagsAfter s = some ⟨false, false, true, false⟩ ∧ pcAfter s = some 0x1004 := by
  decide

/-- VD7: DEC.M r2, r2, XLEN = 64. -/
theorem test_dec_VD7 :
    let s := bench .x64 0x1000 [0x01012203] [(2, 0x8000000000000000)] noFlags []
    regAfter s 2 = some 0x7fffffffffffffff ∧ flagsAfter s = some ⟨false, false, false, true⟩ ∧ pcAfter s = some 0x1004 := by
  decide

/-- VD10: ADD r3, r2, XLEN = 64. -/
theorem test_add_VD10 :
    let s := bench .x64 0x1000 [0x02003203] [(2, 0xffffffffffffffff), (3, 1)] noFlags []
    regAfter s 2 = some 0 ∧ pcAfter s = some 0x1004 := by
  decide

/-- VD13: ADD.M r3, r2, XLEN = 64. -/
theorem test_add_VD13 :
    let s := bench .x64 0x1000 [0x02013203] [(2, 0x8000000000000000), (3, 0x8000000000000000)] noFlags []
    regAfter s 2 = some 0 ∧ flagsAfter s = some ⟨false, false, true, true⟩ ∧ pcAfter s = some 0x1004 := by
  decide

/-- VD18: SUB.M r3, r2, XLEN = 64. -/
theorem test_sub_VD18 :
    let s := bench .x64 0x1000 [0x03013203] [(2, 3), (3, 0xa)] noFlags []
    regAfter s 2 = some 0xfffffffffffffff9 ∧ flagsAfter s = some ⟨false, false, true, false⟩ ∧ pcAfter s = some 0x1004 := by
  decide

/-- VD19: SUB.M r3, r2, XLEN = 64. -/
theorem test_sub_VD19 :
    let s := bench .x64 0x1000 [0x03013203] [(2, 0x8000000000000000), (3, 1)] noFlags []
    regAfter s 2 = some 0x7fffffffffffffff ∧ flagsAfter s = some ⟨false, false, false, true⟩ ∧ pcAfter s = some 0x1004 := by
  decide

/-- VD24: MUL.M r3, r2, XLEN = 64. -/
theorem test_mul_VD24 :
    let s := bench .x64 0x1000 [0x04013203] [(2, 0xffffffffffffffff), (3, 0xffffffffffffffff)] noFlags []
    regAfter s 2 = some 1 ∧ flagsAfter s = some ⟨false, false, false, false⟩ ∧ pcAfter s = some 0x1004 := by
  decide

/-- VD25: MUL.MU r3, r2, XLEN = 64. -/
theorem test_mul_VD25 :
    let s := bench .x64 0x1000 [0x04033203] [(2, 0xffffffffffffffff), (3, 0xffffffffffffffff)] noFlags []
    regAfter s 2 = some 1 ∧ flagsAfter s = some ⟨false, false, true, true⟩ ∧ pcAfter s = some 0x1004 := by
  decide

/-- VD30: MHI.U r3, r2, XLEN = 64. -/
theorem test_mhi_VD30 :
    let s := bench .x64 0x1000 [0x05023203] [(2, 0xffffffffffffffff), (3, 0xffffffffffffffff)] noFlags []
    regAfter s 2 = some 0xfffffffffffffffe ∧ pcAfter s = some 0x1004 := by
  decide

/-- VD32: MHI r3, r2, XLEN = 64. -/
theorem test_mhi_VD32 :
    let s := bench .x64 0x1000 [0x05003203] [(2, 2), (3, 0x8000000000000000)] noFlags []
    regAfter s 2 = some 0xffffffffffffffff ∧ pcAfter s = some 0x1004 := by
  decide

/-- VD35: IRP r3, r2, XLEN = 64. -/
theorem test_irp_VD35 :
    let s := bench .x64 0x1000 [0x06003203] [(2, 9), (3, 7)] noFlags []
    pcAfter s = some 0x1004 := by
  decide

/-- VD37: DIV r3, r2, XLEN = 64. -/
theorem test_div_VD37 :
    let s := bench .x64 0x1000 [0x07003203] [(2, 0xffffffffffffff9c), (3, 7)] noFlags []
    regAfter s 2 = some 0xfffffffffffffff2 ∧ pcAfter s = some 0x1004 := by
  decide

/-- VD38: DIV.U r3, r2, XLEN = 64. -/
theorem test_div_VD38 :
    let s := bench .x64 0x1000 [0x07023203] [(2, 0xffffffffffffff9c), (3, 7)] noFlags []
    regAfter s 2 = some 0x2492492492492484 ∧ pcAfter s = some 0x1004 := by
  decide

/-- VD45: REM r3, r2, XLEN = 64. -/
theorem test_rem_VD45 :
    let s := bench .x64 0x1000 [0x08003203] [(2, 0xffffffffffffff9c), (3, 7)] noFlags []
    regAfter s 2 = some 0xfffffffffffffffe ∧ pcAfter s = some 0x1004 := by
  decide

/-- VD49: REM r3, r2, XLEN = 64. -/
theorem test_rem_VD49 :
    let s := bench .x64 0x1000 [0x08003203] [(2, 5), (3, 0)] noFlags []
    statusAfter s = some (.faulted (.divideByZero 0x1000) 0x1000) := by
  decide

/-- VE3: BSF r3, r2, XLEN = 64. -/
theorem test_bsf_VE3 :
    let s := bench .x64 0x1000 [0x03003204] [(2, 0), (3, 0)] noFlags []
    regAfter s 2 = some 0x40 ∧ pcAfter s = some 0x1004 := by
  decide

/-- VE5: BSF r3, r2, XLEN = 64. -/
theorem test_bsf_VE5 :
    let s := bench .x64 0x1000 [0x03003204] [(2, 0xf00), (3, 0x50)] noFlags []
    regAfter s 2 = some 4 ∧ pcAfter s = some 0x1004 := by
  decide

/-- VE6: BSR r3, r2, XLEN = 64. -/
theorem test_bsr_VE6 :
    let s := bench .x64 0x1000 [0x04003204] [(2, 0), (3, 1)] noFlags []
    regAfter s 2 = some 0x3f ∧ pcAfter s = some 0x1004 := by
  decide

/-- VE8: BSR r3, r2, XLEN = 64. -/
theorem test_bsr_VE8 :
    let s := bench .x64 0x1000 [0x04003204] [(2, 0), (3, 0)] noFlags []
    regAfter s 2 = some 0x40 ∧ pcAfter s = some 0x1004 := by
  decide

/-- VE12: HAM r3, r2, XLEN = 64. -/
theorem test_ham_VE12 :
    let s := bench .x64 0x1000 [0x05003204] [(2, 0xffff), (3, 0xf0f0)] noFlags []
    regAfter s 2 = some 8 ∧ pcAfter s = some 0x1004 := by
  decide

/-- VE13: PAR r3, r2, XLEN = 64. -/
theorem test_par_VE13 :
    let s := bench .x64 0x1000 [0x06003204] [(2, 0), (3, 7)] noFlags []
    regAfter s 2 = some 1 ∧ pcAfter s = some 0x1004 := by
  decide

/-- VE15: PAR r3, r2, XLEN = 64. -/
theorem test_par_VE15 :
    let s := bench .x64 0x1000 [0x06003204] [(2, 0), (3, 0x103)] noFlags []
    pcAfter s = some 0x1004 := by
  decide

/-- VE17: BEX r3, r2, XLEN = 32. -/
theorem test_bex_VE17 :
    let s := bench .x32 0x1000 [0x0A003204] [(2, 0x12345678), (3, 0xff00fff0)] noFlags []
    regAfter s 2 = some 0x12567 ∧ pcAfter s = some 0x1004 := by
  decide

/-- VE25: BEX r2, r2, XLEN = 64. -/
theorem test_bex_VE25 :
    let s := bench .x64 0x1000 [0x0A002204] [(2, 0xf0)] noFlags []
    regAfter s 2 = some 0xf ∧ pcAfter s = some 0x1004 := by
  decide

/-- VE18: BDP r3, r2, XLEN = 32. -/
theorem test_bdp_VE18 :
    let s := bench .x32 0x1000 [0x0B003204] [(2, 0x12567), (3, 0xff00fff0)] noFlags []
    regAfter s 2 = some 0x12005670 ∧ pcAfter s = some 0x1004 := by
  decide

/-- VE24: BDP r3, r2, XLEN = 64. -/
theorem test_bdp_VE24 :
    let s := bench .x64 0x1000 [0x0B003204] [(2, 3), (3, 0x8000000000000001)] noFlags []
    regAfter s 2 = some 0x8000000000000001 ∧ pcAfter s = some 0x1004 := by
  decide

/-- VF9: LEA -8(r3, r4, 3), r2, XLEN = 64. -/
theorem test_lea_VF9 :
    let s := bench .x64 0x1000 [0x30F43205, 0xFFFFFFF8] [(3, 0x1000), (4, 0x20)] noFlags []
    regAfter s 2 = some 0x10f8 ∧ pcAfter s = some 0x1008 := by
  decide

/-- VF12: LEA (r2, r2, 1), r2, XLEN = 64. -/
theorem test_lea_VF12 :
    let s := bench .x64 0x1000 [0x10B22205] [(2, 5)] noFlags []
    regAfter s 2 = some 0xf ∧ pcAfter s = some 0x1004 := by
  decide

/-- VG18: BST $1, (r1), r1, XLEN = 64. -/
theorem test_bst_VG18 :
    let s := bench .x64 0x1000 [0x10410106] [(1, 0x2000)] noFlags [(0x2000, 0)]
    regAfter s 1 = some 0 ∧ wordAfter s 0x2000 = some 2 ∧ pcAfter s = some 0x1004 := by
  decide

/-- VG20: BST $1, -8(r1), r4, XLEN = 64. -/
theorem test_bst_VG20 :
    let s := bench .x64 0x1000 [0x40C10106, 0xFFFFFFF8] [(1, 0x2000)] noFlags [(0x1ff8, 0x100)]
    regAfter s 4 = some 0x100 ∧ wordAfter s 0x1ff8 = some 0x102 ∧ pcAfter s = some 0x1008 := by
  decide

/-- VG6: BCL $4, (r1), r4, XLEN = 64. -/
theorem test_bcl_VG6 :
    let s := bench .x64 0x1000 [0x41440106] [(1, 0x2000)] noFlags [(0x2000, 0xf0)]
    regAfter s 4 = some 0xf0 ∧ wordAfter s 0x2000 = some 0xe0 ∧ pcAfter s = some 0x1004 := by
  decide

/-- VG9: BFL $0, (r1), r4, XLEN = 64. -/
theorem test_bfl_VG9 :
    let s := bench .x64 0x1000 [0x42400106] [(1, 0x2000)] noFlags [(0x2000, 0xf0)]
    regAfter s 4 = some 0xf0 ∧ wordAfter s 0x2000 = some 0xf1 ∧ pcAfter s = some 0x1004 := by
  decide

/-- VG10: BTS $4, (r1), r4, XLEN = 64. -/
theorem test_bts_VG10 :
    let s := bench .x64 0x1000 [0x43440106] [(1, 0x2000)] noFlags [(0x2000, 0xf0)]
    regAfter s 4 = some 0xf0 ∧ wordAfter s 0x2000 = some 0xf0 ∧ pcAfter s = some 0x1004 := by
  decide

/-- VG11: BTS $0, (r1), r4, XLEN = 64. -/
theorem test_bts_VG11 :
    let s := bench .x64 0x1000 [0x43400106] [(1, 0x2000)] noFlags [(0x2000, 0xf0)]
    regAfter s 4 = some 0xf0 ∧ wordAfter s 0x2000 = some 0xf1 ∧ pcAfter s = some 0x1004 := by
  decide

/-- VG12: BTC $4, (r1), r4, XLEN = 64. -/
theorem test_btc_VG12 :
    let s := bench .x64 0x1000 [0x44440106] [(1, 0x2000)] noFlags [(0x2000, 0xf0)]
    regAfter s 4 = some 0xf0 ∧ wordAfter s 0x2000 = some 0xe0 ∧ pcAfter s = some 0x1004 := by
  decide

/-- VG13: BTC $0, (r1), r4, XLEN = 64. -/
theorem test_btc_VG13 :
    let s := bench .x64 0x1000 [0x44400106] [(1, 0x2000)] noFlags [(0x2000, 0xf0)]
    regAfter s 4 = some 0xf0 ∧ wordAfter s 0x2000 = some 0xf0 ∧ pcAfter s = some 0x1004 := by
  decide

/-- VG15: BTF $0, (r1), r4, XLEN = 64. -/
theorem test_btf_VG15 :
    let s := bench .x64 0x1000 [0x45400106] [(1, 0x2000)] noFlags [(0x2000, 0xf0)]
    regAfter s 4 = some 0xf0 ∧ wordAfter s 0x2000 = some 0xf1 ∧ pcAfter s = some 0x1004 := by
  decide

/-- VH2: LDH $0xFFFF, r2, XLEN = 64. -/
theorem test_ldh_VH2 :
    let s := bench .x64 0x1000 [0xFFFF0207] [] noFlags []
    regAfter s 2 = some 0xffff ∧ pcAfter s = some 0x1004 := by
  decide

/-- VH8: LDB $0xFF, r2, XLEN = 64. -/
theorem test_ldb_VH8 :
    let s := bench .x64 0x1000 [0x02FF0208] [(2, 0xffffffffffffffff)] noFlags []
    regAfter s 2 = some 0xff ∧ pcAfter s = some 0x1004 := by
  decide

/-- VH10: LDI $0xDEADBEEF, r2, XLEN = 64. -/
theorem test_ldi_VH10 :
    let s := bench .x64 0x1000 [0x01000208, 0xDEADBEEF] [] noFlags []
    regAfter s 2 = some 0xdeadbeef ∧ pcAfter s = some 0x1008 := by
  decide

/-- VH15: LDL $0x0123456789ABCDEF, r2, XLEN = 64. -/
theorem test_ldl_VH15 :
    let s := bench .x64 0x1000 [0x04000208, 0x00000000, 0x89ABCDEF, 0x01234567] [] noFlags []
    regAfter s 2 = some 0x123456789abcdef ∧ pcAfter s = some 0x1010 := by
  decide

/-- VH16: LDL $0x0123456789ABCDEF, r2, XLEN = 64. -/
theorem test_ldl_VH16 :
    let s := bench .x64 0x1004 [0x04000208, 0x89ABCDEF, 0x01234567] [] noFlags []
    regAfter s 2 = some 0x123456789abcdef ∧ pcAfter s = some 0x1010 := by
  decide

/-- VI3: LNT 4(r3), r2, XLEN = 32. -/
theorem test_lnt_VI3 :
    let s := bench .x32 0x1000 [0x00503208, 0x00000004] [(3, 0x2000)] noFlags [(0x2000, 0x55667788), (0x2004, 0x11223344)]
    regAfter s 2 = some 0x11223344 ∧ pcAfter s = some 0x1008 := by
  decide

/-- VI11: LNT (r2), r2, XLEN = 64. -/
theorem test_lnt_VI11 :
    let s := bench .x64 0x1000 [0x00102208] [(2, 0x2000)] noFlags [(0x2000, 0x1122334455667788), (0x2008, 0x99aabbccddeeff00), (0x2040, 0x40)]
    regAfter s 2 = some 0x1122334455667788 ∧ pcAfter s = some 0x1004 := by
  decide

/-- VI7: LDR (r3, r4, 3), r2, XLEN = 64. -/
theorem test_ldr_VI7 :
    let s := bench .x64 0x1000 [0x30B43208] [(3, 0x2000), (4, 8)] noFlags [(0x2000, 0x1122334455667788), (0x2008, 0x99aabbccddeeff00), (0x2040, 0x40)]
    regAfter s 2 = some 0x40 ∧ pcAfter s = some 0x1004 := by
  decide

/-- VI8: LDR.L1 (r3), r2, XLEN = 64. -/
theorem test_ldr_VI8 :
    let s := bench .x64 0x1000 [0x20103208] [(3, 0x2000)] noFlags [(0x2000, 0x1122334455667788), (0x2008, 0x99aabbccddeeff00), (0x2040, 0x40)]
    regAfter s 2 = some 0x1122334455667788 ∧ pcAfter s = some 0x1004 := by
  decide

/-- VI24: LDX (r3), msw, XLEN = 64. -/
theorem test_ldx_VI24 :
    let s := bench .x64 0x1000 [0x10103008] [(3, 0x2000)] noFlags [(0x2000, 0xfffffffffffffff5)]
    flagsAfter s = some ⟨true, false, true, false⟩ ∧ pcAfter s = some 0x1004 := by
  decide

/-- VI26: LDX (r3), s2, XLEN = 64. -/
theorem test_ldx_VI26 :
    let s := bench .x64 0x1000 [0x10103208] [(3, 0x2000)] noFlags [(0x2000, 0xa)]
    statusAfter s = some (.faulted (.reservedSystemRegister 2) 0x1000) := by
  decide

/-- VJ4: fetch at pc = 0x1002, XLEN = 64. -/
theorem test_fetch_VJ4 :
    let s := bench .x64 0x1002 [0x00000000] [] noFlags []
    statusAfter s = some (.faulted (.misalignedFetch 0x1002) 0x1002) := by
  decide

/-- VJ5: fetch at pc = 0x3000, XLEN = 64. -/
theorem test_fetch_VJ5 :
    let s := bench .x64 0x3000 [] [] noFlags []
    statusAfter s = some (.faulted (.accessFault 0x3000) 0x3000) := by
  decide

/-- VG21: BST $1, 4(r1), r4, XLEN = 64. -/
theorem test_access_VG21 :
    let s := bench .x64 0x1000 [0x40C10106, 0x00000004] [(1, 0x2000)] noFlags [(0x2000, 0)]
    statusAfter s = some (.faulted (.misalignedAccess 0x2004) 0x1000) := by
  decide

/-- VG23: BST $1, 0x1000(r1), r4, XLEN = 64. -/
theorem test_access_VG23 :
    let s := bench .x64 0x1000 [0x40C10106, 0x00001000] [(1, 0x2000)] noFlags [(0x2000, 0)]
    statusAfter s = some (.faulted (.accessFault 0x3000) 0x1000) := by
  decide

/-! ### Witnesses

For every obligation with hypotheses, a machine and operands that meet all of them together; for each of its clauses where
it has several, at a boundary of the clause's range. -/

/-- Counts at the top of their range at either width. -/
theorem witness_EncodedInstructionDecodesToItself :
    WellFormed .x32 (.sll 1 (.imm 31)) ∧ WellFormed .x64 (.sll 15 (.imm 63)) ∧ WellFormed .x64 (.ldl 1 (-1)) := by
  refine ⟨?_, ?_, ?_⟩ <;> rfl

/-- Four bytes exactly, and sixteen bytes with one after them. -/
theorem witness_DecodedInstructionIsWellFormed :
    decodeBytes .x32 true .big true [0x01, 0x00, 0x32, 0x00] = .ok (.or 2 3, []) ∧
    decodeBytes .x64 false .little true [0x08, 0x02, 0x00, 0x04, 1, 1, 1, 1, 2, 0, 0, 0, 3, 0, 0, 0, 9] =
      .ok (.ldl 2 0x0000000300000002#64, [9]) := by decide

/-- The first and the last row of the map, the last with a gated-off `src`, and what they decode to. -/
theorem witness_DecodedWordMatchesItsOpcodeRow :
    decodeWord .x32 true 0x06003200#32 = .ok (.nand 2 3) ∧
    (∃ r ∈ opcodeMap, r.selects .x32 0x00000F00#32 = true ∧ r.value = 0x00000000#32) ∧
    (∃ r ∈ opcodeMap, r.selects .x64 0x7040F008#32 = true ∧ r.value = 0x10000008#32) := by decide

/-- Words that differ in every bit of the fields that are gated off, in each family that has such fields: SLL by an
immediate and by a register, LEA with R, O and S at 0, BST with B at 1, LNT with R and O at 0; and two refused words. -/
theorem witness_GatedFieldsAreIgnored :
    (∀ p ∈ [(0x00440201, 0x0044F201), (0x00003201, 0x003F3201), (0x00400205, 0xF04FF205), (0x10400206, 0x1040F206),
        (0x00400208, 0x004FF208)],
      let w := BitVec.ofNat 32 p.1
      let v := BitVec.ofNat 32 p.2
      (w ^^^ v) &&& ~~~gatedOff w = 0#32 ∧ ∃ i ∈ (decodeWord .x64 true w).toOption, decodeWord .x64 true w = .ok i) ∧
    (0x07440201#32 ^^^ 0x0744F201#32) &&& ~~~gatedOff 0x07440201#32 = 0#32 ∧
    decodeWord .x64 true 0x07440201#32 = .error .reservedId := by decide

theorem witness_RelaxedDecoderKeepsStrictDecodings :
    decodeWord .x64 true 0x20103208#32 = .ok (.ldr 2 ⟨some 3, none, none⟩ (.cached true false)) := by decide

/-- What the statement asks of the machine that fetches `w`, with and without STRICT_RESERVED. -/
def fetches (x : Xlen) (strict : Bool) (w : InstrWord) : Prop :=
  let m0 := benchMach x 0x1000 [w] [] noFlags []
  let m := { m0 with cfg := { m0.cfg with strictReserved := strict } }
  m.status = .running ∧ m.cfg.endPc ≠ some m.pc ∧ m.fetchWord m.pc = .ok w

/-- The lowest and the highest value of each range of unassigned numbers. -/
theorem witness_UnassignedEncodingsRaiseIllegalInstruction :
    ∀ v ∈ [0x00000009, 0xFFFFFFFF, 0x07003200, 0x0F003200, 0x07410201, 0x0F410201, 0x09003203,
        0x0F003203, 0x00003204, 0x02003204, 0x07003204, 0x09003204, 0x0C003204, 0x0F003204,
        0x01103205, 0x0F103205, 0x46410106, 0x4F410106],
      let w := BitVec.ofNat 32 v
      fetches .x32 false w ∧ fetches .x32 true w ∧
      (let op := (w.extractLsb' 0 8).toNat
       let id := (w.extractLsb' 24 4).toNat
       9 ≤ op ∨ (op = 0 ∧ 7 ≤ id) ∨ (op = 1 ∧ 7 ≤ id) ∨ (op = 3 ∧ 9 ≤ id) ∨
         (op = 4 ∧ id ∉ [3, 4, 5, 6, 10, 11]) ∨ (op = 5 ∧ 1 ≤ id) ∨ (op = 6 ∧ 6 ≤ id)) := by
  unfold fetches
  decide

/-- R97 item 2 and item 6, under either setting: `dst = 0` of OR, of LDH, of LNT and of a scaled LDR with bit 12 set;
`src = 0` of SLL, of BST and of LNT; LDL at XLEN = 32. -/
theorem witness_UnassignedEncodings_always :
    ∀ v ∈ [0x01003000, 0x12340007, 0x00103008, 0x10B43008, 0x00000201, 0x50000206, 0x00100208, 0x04000208],
      let w := BitVec.ofNat 32 v
      fetches .x32 false w ∧ fetches .x32 true w ∧ reservedAlways .x32 w = true ∧
      ∃ e ∈ [Reject.dstZero, .srcZero, .longwordAt32], decodeWord .x32 false w = .error e := by
  unfold fetches
  decide

/-- R97 items 3, 4 and 5 and R229, with STRICT_RESERVED: `src` of NOT, LDH and LDB; `imm16` of CMP; a must-be-0 bit of op
0, 1, 3, 4 and 8; bit 5 of a count and of a position at XLEN = 32; I and B together, LDB with bit 12, LDI with a byte, a
system source with an offset register, with a cache bit and with SH. And words of several families that are not
reserved. -/
theorem witness_UnassignedEncodings_strict :
    (∀ v ∈ [0x00003200, 0x12341207, 0x02AB1208, 0x00013202, 0x01013200, 0x10440201, 0x00843201, 0x00043203, 0x03803204,
        0x80103208, 0x00600201, 0x50600206, 0x03000208, 0x12AB0208, 0x01010208, 0x08200208, 0x28000208, 0x08800208],
      let w := BitVec.ofNat 32 v
      fetches .x32 true w ∧ reservedWord .x32 w = true) ∧
    (∀ v ∈ [0x00000200, 0x02AB0208, 0x005F0201, 0x00033203, 0x70B43208, 0x18000008, 0x60103208],
      let w := BitVec.ofNat 32 v
      fetches .x32 true w ∧ reservedWord .x32 w = false) := by
  unfold fetches
  decide

/-- An LDL whose pad word is outside MEM_VALID, and every byte that is fetched inside it. -/
def paddedLdl : Mach Xlen.x64.bits :=
  let m := benchMach .x64 0x1000 [0x04000208#32, 0xFFFFFFFF#32, 0x89ABCDEF#32, 0x01234567#32] [] noFlags []
  { m with cfg := { m.cfg with memValid := [⟨0x1000, 4⟩, ⟨0x1008, 8⟩] } }

theorem witness_StepRunsTheDecodedInstruction :
    let m := paddedLdl
    let i : Instr := .ldl 2 0x0123456789ABCDEF
    m.status = .running ∧ m.cfg.endPc ≠ some m.pc ∧ m.pc.toNat % 4 = 0 ∧
    decodeBytes .x64 m.cfg.strictReserved m.cfg.endian (ldlPad m.cfg m.pc) (m.codeBytes 16) = .ok (i, []) ∧
    (∀ k < i.len (ldlPad m.cfg m.pc),
      (i.extKind = .long ∧ ldlPad m.cfg m.pc = true ∧ 4 ≤ k ∧ k < 8) ∨
        m.cfg.valid ((m.pc.toNat + k) % 2 ^ Xlen.x64.bits) = true) := by decide

theorem witness_PlacedInstructionRunsFirstAfterReset :
    decodeTableWord 32 0x01003200 = some (.or 2 3) ∧ decodeTableWord 32 0x04000208 = some (.ldl 2 0) := by decide

theorem witness_AlignedRunsStayAligned :
    (∀ pc ∈ [0x1001, 0x1002, 0x1003], let m := benchMach .x64 pc [] [] noFlags []
      m.status = .running ∧ m.cfg.endPc ≠ some m.pc ∧ m.pc.toNat % 4 ≠ 0) ∧
    (let m := benchMach .x64 0x1000 [0x01003200#32] [] noFlags []
     m.pc.toNat % 4 = 0 ∧ ∃ m' : Mach Xlen.x64.bits,
       Host.Core.run core 0 (⟨.x64, m⟩ : State) = .next (⟨.x64, m'⟩ : State)) ∧
    (let m := benchMach .x32 0x1000 [0x01000208#32, 0xDEADBEEF#32] [] noFlags []
     m.fetchWord (m.pc + 4#_) = .ok 0xDEADBEEF#32) :=
  ⟨by decide, ⟨by decide, _, rfl⟩, by decide⟩

/-- `pc` just outside MEM_VALID; `imm32` there; each word of LDL's longword there. -/
theorem witness_UnmappedFetchRaisesAccessFault :
    (let m := benchMach .x64 0x3000 [] [] noFlags []
     m.status = .running ∧ m.cfg.endPc ≠ some m.pc ∧ m.pc.toNat % 4 = 0 ∧
     ∃ k < 4, m.cfg.valid (m.pc.toNat + k) = false) ∧
    (let m := benchMach .x64 0x2ffc [0x01000208#32] [] noFlags []
     m.status = .running ∧ m.cfg.endPc ≠ some m.pc ∧ m.pc.toNat % 4 = 0 ∧ m.fetchWord m.pc = .ok 0x01000208#32 ∧
     decodeWord .x64 m.cfg.strictReserved 0x01000208#32 = .ok (.ldi 2 0) ∧ (Instr.ldi 2 0).extKind = .word ∧
     ∃ k < 4, m.cfg.valid ((m.pc + 4#_).toNat + k) = false) ∧
    (let m := benchMach .x64 0x2ff8 [0x04000208#32] [] noFlags []
     m.status = .running ∧ m.cfg.endPc ≠ some m.pc ∧ m.pc.toNat % 4 = 0 ∧ m.fetchWord m.pc = .ok 0x04000208#32 ∧
     decodeWord .x64 m.cfg.strictReserved 0x04000208#32 = .ok (.ldl 2 0) ∧ (Instr.ldl 2 0).extKind = .long ∧
     ∃ k < 4, m.cfg.valid ((ldlAddr m.cfg m.pc).toNat + k) = false) ∧
    (let m : Mach Xlen.x64.bits :=
       { paddedLdl with cfg := { paddedLdl.cfg with memValid := [⟨0x1000, 0xC⟩] } }
     m.status = .running ∧ m.cfg.endPc ≠ some m.pc ∧ m.pc.toNat % 4 = 0 ∧ m.fetchWord m.pc = .ok 0x04000208#32 ∧
     decodeWord .x64 m.cfg.strictReserved 0x04000208#32 = .ok (.ldl 2 0) ∧ (Instr.ldl 2 0).extKind = .long ∧
     (∀ k < 4, m.cfg.valid ((ldlAddr m.cfg m.pc).toNat + k) = true) ∧
     ∃ k < 4, m.cfg.valid ((ldlAddr m.cfg m.pc + 4#_).toNat + k) = false) := by decide

/-- A machine that has faulted, one that has ended, and one that stands at END_PC. -/
def atItsEnd : Mach Xlen.x32.bits :=
  let m := benchMach .x32 0x1000 [] [] noFlags []
  { m with cfg := { m.cfg with endPc := some 0x1000#32 } }

theorem witness_RunStatusDecidesTheStep :
    ({ atItsEnd with status := .ended }.status ≠ .running) ∧
    ({ atItsEnd with status := .faulted (.divideByZero 0x1000) 0x1000 }.status ≠ .running) ∧
    (atItsEnd.status = .running ∧ atItsEnd.cfg.endPc = some atItsEnd.pc) := by decide

/-- A DIV by register 0. -/
def zeroDivisor : Mach Xlen.x64.bits := benchMach .x64 0x1000 [0x07000203#32] [(2, 5)] noFlags []

theorem witness_FaultsArePrecise :
    zeroDivisor.status = .running ∧
    ∃ m' : Mach Xlen.x64.bits, step ⟨.x64, zeroDivisor⟩ = .next ⟨.x64, m'⟩ ∧
      m'.status = .faulted (.divideByZero 0x1000) 0x1000 := by
  refine ⟨by decide, zeroDivisor.raise (.divideByZero 0x1000), ?_, by decide⟩
  rw [step_of_fetch_ok (i := .div 2 0 ⟨false, false⟩) (by decide) (by decide) (by decide)]
  rfl

theorem witness_StepKeepsTheInvariant : State.reset.Inv ∧ ∃ t, step State.reset = .next t := by
  refine ⟨⟨rfl, (fun c hc => by cases hc), rfl, rfl, rfl, (fun f p h => by cases h), (fun h => by cases h)⟩,
    ⟨⟨.x64, State.reset.mach.raise (.illegalInstruction 0 0#32)⟩, ?_⟩⟩
  exact step_of_fetch_error (by decide) (by decide) (by decide)

/-- An image that ends at the top of the address space. -/
theorem witness_BootMeetsTheInvariant :
    (Params.default Xlen.x32.bits).wf = true ∧
    ∀ im ∈ [(0x1000, [0x00, 0x02, 0x00, 0x00]), (0xFFFFFFFF, [(0x07 : Byte)])],
      im.1 + im.2.length ≤ 2 ^ Xlen.x32.bits := by decide

/-- The registers 2 and 3 of the witnesses below. -/
def pair (x : Xlen) (a b : Nat) : Mach x.bits :=
  benchMach x 0x1000 [] [(1, 0x2000), (2, a), (3, b)] ⟨true, false, true, false⟩ [(0x2000, 0xF0)]

/-- The lowest and the highest of MSW's bits W-1:4. -/
theorem witness_ResetLeavesTheSpecifiedState : ∀ k ∈ [4, 63], 4 ≤ k ∧ k < Xlen.x64.bits := by decide

theorem witness_OnlyBitInstructionsWriteMemory :
    isMemBits (.lnt 2 ⟨some 1, none, none⟩) = false ∧ ∃ m' : Mach Xlen.x64.bits,
      exec (.lnt 2 ⟨some 1, none, none⟩) ⟨.x64, pair .x64 5 7⟩ = .next ⟨.x64, m'⟩ := ⟨rfl, _, rfl⟩

/-- An instruction that writes none of the four flags, and one that writes CF alone. -/
theorem witness_OnlyListedFlagsAreWritten :
    (∃ m' : Mach Xlen.x64.bits, exec (.or 2 3) ⟨.x64, pair .x64 5 7⟩ = .next ⟨.x64, m'⟩) ∧
    flagsWritten (.or 2 3) = noFlags ∧
    (∃ m' : Mach Xlen.x32.bits, exec (.rcl 2 (.imm 31)) ⟨.x32, pair .x32 5 7⟩ = .next ⟨.x32, m'⟩) ∧
    flagsWritten (.rcl 2 (.imm 31)) = ⟨false, false, true, false⟩ := ⟨⟨_, rfl⟩, rfl, ⟨_, rfl⟩, rfl⟩

/-- RCL reads CF alone: the other machine has the other ZF, LT and OF. -/
theorem witness_UnreadFlagsDoNotInfluence :
    let m := pair .x64 5 7
    let f : Flags := ⟨false, true, true, true⟩
    let i : Instr := .rcl 2 (.imm 1)
    (((flagsRead i).ZF = true → f.ZF = m.flags.ZF) ∧ ((flagsRead i).LT = true → f.LT = m.flags.LT) ∧
      ((flagsRead i).CF = true → f.CF = m.flags.CF) ∧ ((flagsRead i).OF = true → f.OF = m.flags.OF)) ∧
    (∃ m1 : Mach Xlen.x64.bits, exec i ⟨.x64, m⟩ = .next ⟨.x64, m1⟩) ∧
    (∃ m2 : Mach Xlen.x64.bits, exec i ⟨.x64, { m with flags := f }⟩ = .next ⟨.x64, m2⟩) :=
  ⟨by decide, ⟨_, rfl⟩, ⟨_, rfl⟩⟩

/-- A register next to the one that is written. -/
theorem witness_OnlyTheListedRegisterIsWritten :
    (∃ m' : Mach Xlen.x64.bits, exec (.add 2 3 ⟨true, false⟩) ⟨.x64, pair .x64 5 7⟩ = .next ⟨.x64, m'⟩) ∧
    (3 : RegNum) ≠ regWritten (.add 2 3 ⟨true, false⟩) := ⟨⟨_, rfl⟩, by decide⟩

/-- ROR then ROL by the last count, RCL then RCR by a register. -/
theorem witness_RotationsUndoEachOther :
    ((Count.imm 63) ≠ .reg 2 ∧ ∃ m1 m2 : Mach Xlen.x64.bits,
      exec (.ror 2 (.imm 63)) ⟨.x64, pair .x64 5 7⟩ = .next ⟨.x64, m1⟩ ∧
      exec (.rol 2 (.imm 63)) ⟨.x64, m1⟩ = .next ⟨.x64, m2⟩) ∧
    ((Count.reg 3) ≠ .reg 2 ∧ ∃ m1 m2 : Mach Xlen.x64.bits,
      exec (.rcl 2 (.reg 3)) ⟨.x64, pair .x64 5 7⟩ = .next ⟨.x64, m1⟩ ∧
      exec (.rcr 2 (.reg 3)) ⟨.x64, m1⟩ = .next ⟨.x64, m2⟩) ∧ (2 : RegNum) ≠ 0#4 :=
  ⟨⟨by decide, _, _, rfl, rfl⟩, ⟨by decide, _, _, rfl, rfl⟩, by decide⟩

/-- A divisor of 1, and the one quotient that does not fit. -/
theorem witness_DivisionResults :
    (pair .x64 5 1).reg 3 ≠ 0#_ ∧
    ((pair .x32 0x80000000 0xFFFFFFFF).reg 3 ≠ 0#_ ∧
      ((pair .x32 0x80000000 0xFFFFFFFF).reg 2).toInt = -(2 ^ 31) ∧
      ((pair .x32 0x80000000 0xFFFFFFFF).reg 3).toInt = -1) := by decide

theorem witness_QuotientAndRemainderRecombine :
    (2 : RegNum) ≠ 0#4 ∧ (pair .x64 100 7).reg 3 ≠ 0#_ ∧
    (∃ m1 : Mach Xlen.x64.bits, exec (.div 2 3 ⟨false, false⟩) ⟨.x64, pair .x64 100 7⟩ = .next ⟨.x64, m1⟩) ∧
    (∃ m2 : Mach Xlen.x64.bits, exec (.rem 2 3 ⟨false, false⟩) ⟨.x64, pair .x64 100 7⟩ = .next ⟨.x64, m2⟩) :=
  ⟨by decide, by decide, ⟨_, rfl⟩, ⟨_, rfl⟩⟩

/-- A zero divisor, and the most negative value by -1. -/
theorem witness_ZeroDivisorRaises :
    (pair .x64 5 0).reg 3 = 0#_ ∧
    (((pair .x64 0x8000000000000000 0xFFFFFFFFFFFFFFFF).reg 2).toInt = -(2 ^ 63) ∧
      ((pair .x64 0x8000000000000000 0xFFFFFFFFFFFFFFFF).reg 3).toInt = -1) := by decide

/-- A system register next to MSW. -/
theorem witness_HintsOnlyAdvancePc : (1 : RegNum) ≠ (pair .x64 0 0).cfg.mswIndex := by decide

/-- Sources 0, 1 and the top bit alone: each clause of the scans, none of its places left out. -/
theorem witness_BitScanResults :
    ctz ((pair .x64 5 0).reg 3) = 64 ∧ ctz ((pair .x64 5 1).reg 3) = 0 ∧
    clz ((pair .x32 5 0).reg 3) = 32 ∧ clz ((pair .x32 5 0x80000000).reg 3) = 0 := by decide

/-- A mask with its lowest and its highest bit. -/
theorem witness_ExtractAndDepositResults :
    let k := (pair .x64 5 0x8000000000000001).reg 3
    k.getLsbD 0 = true ∧ k.getLsbD 63 = true ∧ k.getLsbD 1 = false ∧ countBelow 64 k.getLsbD ≤ 2 := by decide

theorem witness_DepositUndoesExtract :
    (2 : RegNum) ≠ 0#4 ∧ (3 : RegNum) ≠ 2 ∧ ∃ m1 m2 : Mach Xlen.x64.bits,
      exec (.bex 2 3) ⟨.x64, pair .x64 0x12345678 0xFF00FFF0⟩ = .next ⟨.x64, m1⟩ ∧
      exec (.bdp 2 3) ⟨.x64, m1⟩ = .next ⟨.x64, m2⟩ := ⟨by decide, by decide, _, _, rfl, rfl⟩

/-- The first memory-word of MEM_VALID, and the last. -/
theorem witness_BitManipulationResults :
    Accessible (pair .x64 5 7) ((pair .x64 5 7).bitAddr 1 (some 0xFFFFF000#32)) ∧
    Accessible (pair .x32 5 7) ((pair .x32 5 7).bitAddr 1 (some 0x00000FFC#32)) := by
  unfold Accessible
  decide

theorem witness_ImmediateLoadResults : Xlen.x64 = .x64 := rfl

/-- The last memory-word of MEM_VALID without a scale, and a scaled offset register. -/
theorem witness_MemoryLoadResults :
    Accessible (pair .x64 0x2FF8 2) ((pair .x64 0x2FF8 2).effAddr ⟨some 2, none, none⟩ 0) ∧
    Accessible (pair .x64 0x2FF8 2) ((pair .x64 0x2FF8 2).effAddr ⟨some 1, some 3, none⟩ (2 : BitVec 4).toNat) := by
  unfold Accessible
  decide

/-- A scaled offset register, and no scale, with each load that has no shift count. -/
theorem witness_LeaComputesTheLoadAddress :
    let m := pair .x64 5 2
    let a : AddrOperand := ⟨some 1, some 3, none⟩
    let b : AddrOperand := ⟨some 1, none, none⟩
    let given (a : AddrOperand) (s : Option (BitVec 4)) (i : Instr) : Prop :=
      ∃ m1 m2 : Mach Xlen.x64.bits,
        exec (.lea 4 a s) ⟨.x64, m⟩ = .next ⟨.x64, m1⟩ ∧ Accessible m (m1.reg 4) ∧
        exec i ⟨.x64, m⟩ = .next ⟨.x64, m2⟩
    (2 : RegNum) ≠ 0#4 ∧ (4 : RegNum) ≠ 0#4 ∧ given a (some 2) (.ldr 2 a (.scaled 2)) ∧ given b none (.lnt 2 b) ∧
    given b none (.ldr 2 b (.cached true false)) ∧ given b none (.ldx (.memToSys b false true m.cfg.mswIndex)) := by
  refine ⟨by decide, by decide, ⟨_, _, rfl, ?_, rfl⟩, ⟨_, _, rfl, ?_, rfl⟩, ⟨_, _, rfl, ?_, rfl⟩, ⟨_, _, rfl, ?_, rfl⟩⟩ <;>
    unfold Accessible <;> decide

theorem witness_LdxResults :
    Accessible (pair .x64 5 7) ((pair .x64 5 7).effAddr ⟨some 1, none, none⟩ 0) := by
  unfold Accessible
  decide

/-- MSW's own number, and the numbers at both ends of the others. -/
theorem witness_SystemRegisterAccess :
    (0 : RegNum) = (pair .x64 5 7).cfg.mswIndex ∧ (1 : RegNum) ≠ (pair .x64 5 7).cfg.mswIndex ∧
    (15 : RegNum) ≠ (pair .x64 5 7).cfg.mswIndex := by decide

theorem witness_ReservedSystemRegisterRaises :
    (1 : RegNum) ≠ (pair .x64 5 7).cfg.mswIndex ∧ (15 : RegNum) ≠ (pair .x64 5 7).cfg.mswIndex := by decide

/-- One byte above an aligned address and one below, by each kind of address. -/
theorem witness_MisalignedDataAccessRaises :
    let m := pair .x64 0x2001 0x2007
    (m.effAddr ⟨some 2, none, none⟩ 0).toNat % (Xlen.x64.bits / 8) ≠ 0 ∧
    (m.effAddr ⟨some 3, none, none⟩ 0).toNat % (Xlen.x64.bits / 8) ≠ 0 ∧
    (m.effAddr ⟨some 1, some 2, none⟩ (2 : BitVec 4).toNat).toNat % (Xlen.x64.bits / 8) ≠ 0 ∧
    (m.bitAddr 2 none).toNat % (Xlen.x64.bits / 8) ≠ 0 := by decide

/-- The aligned address just above MEM_VALID and the one just below. -/
theorem witness_UnmappedDataAccessRaises :
    let m := pair .x64 0x3000 0x0FF8
    ((m.effAddr ⟨some 2, none, none⟩ 0).toNat % (Xlen.x64.bits / 8) = 0 ∧
      ∃ k < Xlen.x64.bits / 8, m.cfg.valid ((m.effAddr ⟨some 2, none, none⟩ 0).toNat + k) = false) ∧
    ((m.effAddr ⟨some 2, some 0, none⟩ (15 : BitVec 4).toNat).toNat % (Xlen.x64.bits / 8) = 0 ∧
      ∃ k < Xlen.x64.bits / 8, m.cfg.valid
        ((m.effAddr ⟨some 2, some 0, none⟩ (15 : BitVec 4).toNat).toNat + k) = false) ∧
    ((m.bitAddr 3 none).toNat % (Xlen.x64.bits / 8) = 0 ∧
      ∃ k < Xlen.x64.bits / 8, m.cfg.valid ((m.bitAddr 3 none).toNat + k) = false) := by decide

/-- The last bit of a word, in a little-endian and in a big-endian machine. -/
theorem witness_MemoryWordByteOrder :
    (pair .x64 5 7).cfg.endian = .little ∧ 63 < Xlen.x64.bits ∧
    ({ (pair .x32 5 7).cfg with endian := .big } : Params 32).endian = .big ∧ 31 < Xlen.x32.bits := by decide

theorem witness_WrittenWordReadsBack :
    let m := pair .x64 5 7
    (∃ m' : Mach Xlen.x64.bits, m.memWrite 0x2FF8#64 1#64 = .ok m') ∧
    (0x2FF7 < (0x2FF8#64).toNat ∧ (0x2FF8#64).toNat + Xlen.x64.bits / 8 ≤ 0x3000) := by
  refine ⟨⟨_, (Mach.memWrite_ok_iff _ _ _ _).2 ⟨?_, rfl⟩⟩, by decide⟩
  unfold Accessible
  decide

theorem witness_MemoryWordIsTwoFetchWords :
    (pair .x64 5 7).cfg.endian = .little ∧ (pair .x64 5 7).memRead 0x2000#64 = .ok 0xF0#64 := by decide

/-- The last memory-word of the address space, and a `pc` on its last word, in a machine with memory everywhere. -/
theorem witness_AlignedAccessesDoNotWrap :
    let m := State.reset.mach
    let p : Mach Xlen.x32.bits := { Mach.reset (Params.default 32) [] with pc := 0xFFFFFFFC#32 }
    m.memRead 0xFFFFFFFFFFFFFFF8#64 = .ok 0#64 ∧
    (∃ m', m.memWrite 0xFFFFFFFFFFFFFFF8#64 1#64 = .ok m') ∧
    p.pc.toNat = 2 ^ Xlen.x32.bits - 4 ∧ (∀ k < 4, p.cfg.valid (p.pc.toNat + k) = true) ∧
    (∀ k < 4, p.cfg.valid k = true) := by
  refine ⟨by decide, ⟨_, (Mach.memWrite_ok_iff _ _ _ _).2 ⟨?_, rfl⟩⟩, by decide⟩
  unfold Accessible
  decide

/-- The same bytes written in two orders. -/
theorem witness_CanonicalMemoriesAreEqualWhenTheyReadAlike :
    let p := (Memory.write [] 5 1).write 3 2
    let q := (Memory.write [] 3 2).write 5 1
    p.wf = true ∧ q.wf = true ∧ ∀ a, p.read a = q.read a := by
  refine ⟨by decide, by decide, fun a => ?_⟩
  simp only [Memory.read_write]
  by_cases h : a = 3 <;> by_cases h' : a = 5 <;> simp [h, h']

/-- Memory that ends sixteen bytes below the top of the address space. -/
theorem witness_EveryRunEnds :
    let m : Mach Xlen.x32.bits :=
      { pair .x32 5 7 with cfg := { (pair .x32 5 7).cfg with memValid := [⟨0, 0xFFFFFFF0⟩] } }
    (∀ a, m.cfg.valid a = true → a < 0xFFFFFFF0) ∧ 0xFFFFFFF0 + 16 ≤ 2 ^ Xlen.x32.bits := by
  refine ⟨fun a h => ?_, by decide⟩
  simp [Params.valid, Region.contains] at h
  exact h

/-- One step of an OR. -/
theorem witness_PcGrowsAlongARun :
    let m := benchMach .x64 0x1000 [0x01003200#32] [(2, 5), (3, 7)] noFlags []
    (∃ m' : Mach Xlen.x64.bits,
      Host.Core.run core 1 (⟨.x64, m⟩ : State) = .next (⟨.x64, m'⟩ : State) ∧ m'.status = .running) ∧
    m.pc.toNat + 16 * 1 < 2 ^ Xlen.x64.bits := by
  intro m
  have h : step ⟨.x64, m⟩ = .next ⟨.x64, logical m 2 3 (fun a b => a ||| b)⟩ :=
    step_of_fetch_ok (i := .or 2 3) (by decide) (by decide) (by decide)
  exact ⟨⟨_, run_succ h 0, by decide⟩, by decide⟩


end Sys2Proof.Tests
end

section
/-! PROOF. The statements of 10_state: what an instruction may change of the state, what reads the flags, and that every
step keeps the invariant. -/

namespace Sys2Proof.Machine

variable {W : Nat}

/-! ### What an instruction may change -/

/-- What an instruction of `len` bytes that completes may do to `m`: it writes at most general register `d`, the flags
listed in `w` and, when `stores` holds, one accessible memory-word; `pc` moves by `len` (10_state R22, R23, R26, R28). -/
structure Completes (m m' : Mach W) (d : RegNum) (w : Flags) (len : Nat) (stores : Bool) : Prop where
  regs : ∀ r, r ≠ d → m'.reg r = m.reg r
  entry_zero : m'.gpr[0] = m.gpr[0]
  zf : w.ZF = false → m'.flags.ZF = m.flags.ZF
  lt : w.LT = false → m'.flags.LT = m.flags.LT
  cf : w.CF = false → m'.flags.CF = m.flags.CF
  of : w.OF = false → m'.flags.OF = m.flags.OF
  mem : m'.mem = m.mem ∨ stores = true ∧ ∃ a v : BitVec W, Accessible m a ∧
    m'.mem = m.mem.writeBytes a.toNat (dataBytes m.cfg.endian v)
  pc : m'.pc = m.pc + BitVec.ofNat W len
  status : m'.status = m.status
  cfg : m'.cfg = m.cfg

/-- An instruction completes within those bounds, or raises and does nothing else (60_exceptions R262). -/
def CompletesOrFaults (m m' : Mach W) (d : RegNum) (w : Flags) (len : Nat) (stores : Bool) : Prop :=
  Completes m m' d w len stores ∨ ∃ f, Faults m m' f

theorem raise_completesOrFaults (m : Mach W) (f : Fault) (d : RegNum) (w : Flags) (n : Nat) (b : Bool) :
    CompletesOrFaults m (m.raise f) d w n b :=
  .inr ⟨f, m.raise_faults f⟩

/-! ### The shapes of the meanings -/

theorem advance_completes (m : Mach W) (d : RegNum) (w : Flags) (n : Nat) (b : Bool) :
    Completes m (m.advance n) d w n b := by
  constructor <;> simp

theorem writeReg_advance_completes (m : Mach W) (d : RegNum) (v : BitVec W) (w : Flags) (n : Nat) (b : Bool) :
    Completes m ((m.writeReg d v).advance n) d w n b := by
  constructor <;> simp +contextual [Mach.reg_writeReg]

theorem setFlags_advance_completes (m : Mach W) (f : Flags) (d : RegNum) (n : Nat) (b : Bool) :
    Completes m ((m.setFlags f).advance n) d ⟨true, true, true, true⟩ n b := by
  constructor <;> simp

/-- A register write after a store of one memory-word, or after none. -/
theorem store_completes (m : Mach W) (mem : Memory)
    (hmem : mem = m.mem ∨ ∃ a v : BitVec W, Accessible m a ∧
      mem = m.mem.writeBytes a.toNat (dataBytes m.cfg.endian v))
    (d : RegNum) (v : BitVec W) (w : Flags) (n : Nat) :
    Completes m ((Mach.writeReg { m with mem := mem } d v).advance n) d w n true :=
  { writeReg_advance_completes { m with mem := mem } d v w n true with mem := by simpa using hmem }

theorem shiftCarry_completes (m : Mach W) (d : RegNum) (c : Count) (f : BitVec (W + 1) → Nat → BitVec (W + 1))
    (b : Bool) : Completes m (shiftCarry m d c f) d ⟨false, false, true, false⟩ 4 b := by
  constructor <;> simp +contextual [shiftCarry, Mach.reg_writeReg]

theorem arith_completes (m : Mach W) (d : RegNum) (mu : ArithBits) (v : BitVec W) (c : CarryOverflow) (b : Bool) :
    Completes m (arith m d mu v c) d ⟨false, false, mu.M, mu.M⟩ 4 b := by
  constructor <;> simp +contextual [arith, Mach.reg_writeReg, Mach.setCarry_flags, apply_ite]

theorem arithFree_completes (m : Mach W) (d : RegNum) (mu : ArithBits) (v : BitVec W) (b : Bool) :
    Completes m (arithFree m d mu v) d ⟨false, false, mu.M, mu.M⟩ 4 b := by
  constructor <;> simp +contextual [arithFree, Mach.reg_writeReg, Mach.setFreeCarry_off]

theorem divide_completesOrFaults (m : Mach W) (d r : RegNum) (mu : ArithBits)
    (f : Bool → BitVec W → BitVec W → BitVec W) (b : Bool) :
    CompletesOrFaults m (divide m d r mu f) d ⟨false, false, mu.M, mu.M⟩ 4 b := by
  by_cases h : m.reg r = 0#W
  · rw [divide_zero m d r mu f h]
    exact raise_completesOrFaults ..
  · rw [divide_nonzero m d r mu f h]
    exact .inl (arithFree_completes ..)

theorem loadMem_completesOrFaults (m : Mach W) (d : RegNum) (a : AddrOperand) (k : Nat) (w : Flags) (b : Bool) :
    CompletesOrFaults m (loadMem m d a k) d w (lenOf a.disp) b := by
  cases h : m.memRead (m.effAddr a k) with
  | error e =>
    rw [loadMem_error m d a k e h]
    exact raise_completesOrFaults ..
  | ok v =>
    rw [loadMem_accessible m d a k ((Mach.memRead_ok_iff m _ _).1 h).1]
    exact .inl (writeReg_advance_completes ..)

/-- An op 6 instruction on an accessible word: the word is stored, or not, and the old one goes to `ret`
(46_bit_manipulation R207). -/
theorem memBits_accessible (m : Mach W) (d : RegNum) (p : Count) (o : Option (BitVec 32)) (ret : RegNum)
    (f : BitVec W → BitVec W → BitVec W × Bool) (h : Accessible m (m.bitAddr d o)) :
    memBits m d p o ret f =
      let ea := m.bitAddr d o
      let old := m.wordAt ea.toNat
      let r := f old (m.bitOf p)
      let mem := if r.2 then m.mem.writeBytes ea.toNat (dataBytes m.cfg.endian r.1) else m.mem
      (Mach.writeReg { m with mem := mem } ret old).advance (lenOf o) := by
  have hr := (Mach.memRead_ok_iff m _ _).2 ⟨h, rfl⟩
  cases hw : (f (m.wordAt (m.bitAddr d o).toNat) (m.bitOf p)).2 with
  | false => simp [memBits, hr, hw]
  | true => simp [memBits, hr, hw, (Mach.memWrite_ok_iff m _ _ _).2 ⟨h, rfl⟩]

theorem memBits_completesOrFaults (m : Mach W) (d : RegNum) (p : Count) (o : Option (BitVec 32)) (ret : RegNum)
    (f : BitVec W → BitVec W → BitVec W × Bool) (w : Flags) :
    CompletesOrFaults m (memBits m d p o ret f) ret w (lenOf o) true := by
  cases h : m.memRead (m.bitAddr d o) with
  | error e =>
    rw [memBits_error m d p o ret f e h]
    exact raise_completesOrFaults ..
  | ok old =>
    have ha := ((Mach.memRead_ok_iff m _ _).1 h).1
    rw [memBits_accessible m d p o ret f ha]
    refine .inl (store_completes m _ ?_ ret _ w _)
    split
    · exact .inr ⟨_, _, ha, rfl⟩
    · exact .inl rfl

theorem sysToReg_completesOrFaults (m : Mach W) (n d : RegNum) (w : Flags) (b : Bool) :
    CompletesOrFaults m (sysToReg m n d) d w 4 b := by
  by_cases h : n = m.cfg.mswIndex
  · rw [h, sysToReg_msw]
    exact .inl (writeReg_advance_completes ..)
  · rw [sysToReg_reserved m n d h]
    exact raise_completesOrFaults ..

theorem sysToSys_completesOrFaults (x : Xlen) (m : Mach x.bits) (n d r : RegNum) (w : Flags) (b : Bool) :
    CompletesOrFaults m (sysToSys m n d) r w 4 b := by
  by_cases hn : n = m.cfg.mswIndex
  · by_cases hd : d = m.cfg.mswIndex
    · rw [hn, hd, sysToSys_msw]
      exact .inl (advance_completes ..)
    · rw [hn, sysToSys_dst_reserved m d hd]
      exact raise_completesOrFaults ..
  · rw [sysToSys_src_reserved m n d hn]
    exact raise_completesOrFaults ..

theorem memToSys_completesOrFaults (m : Mach W) (a : AddrOperand) (d r : RegNum) (b : Bool) :
    CompletesOrFaults m (memToSys m a d) r ⟨true, true, true, true⟩ (lenOf a.disp) b := by
  by_cases hd : d = m.cfg.mswIndex
  · cases h : m.memRead (m.effAddr a 0) with
    | error e =>
      rw [hd, memToSys_error m a e h]
      exact raise_completesOrFaults ..
    | ok v =>
      rw [hd, memToSys_accessible m a ((Mach.memRead_ok_iff m _ _).1 h).1]
      exact .inl (setFlags_advance_completes ..)
  · rw [memToSys_reserved m a d hd]
    exact raise_completesOrFaults ..

/-! ### Every instruction -/

/-- An instruction with an optional `imm32` has the length of its meaning (30_encoding R88). -/
theorem len_of_extKind {i : Instr} {o : Option (BitVec 32)}
    (h : i.extKind = if o.isSome then .word else .none) (pad : Bool) : i.len pad = lenOf o := by
  cases o <;> simp [Instr.len, h, lenOf]

/-- The lengths of 10_state R26. -/
theorem len_cases (i : Instr) (pad : Bool) :
    i.len pad = 4 ∨ i.len pad = 8 ∨ i.len pad = 12 ∨ i.len pad = 16 := by
  unfold Instr.len
  cases i.extKind <;> cases pad <;> simp

/-- Every instruction answers a next state, and completes within the bounds of 10_state R23, R26 and R28, op 6 alone
with a store, or raises. -/
theorem exec_completesOrFaults (x : Xlen) (m : Mach x.bits) (i : Instr) :
    ∃ m', exec i ⟨x, m⟩ = .next ⟨x, m'⟩ ∧
      CompletesOrFaults m m' (regWritten i) (flagsWritten i) (i.len (ldlPad m.cfg m.pc)) (isMemBits i) := by
  cases i with
  | not d | or d r | and d r | xor d r | nor d r | xnor d r | nand d r =>
    exact ⟨_, rfl, .inl (writeReg_advance_completes ..)⟩
  | sll d c | srl d c | sar d c | rol d c | ror d c => exact ⟨_, rfl, .inl (writeReg_advance_completes ..)⟩
  | rcl d c | rcr d c => exact ⟨_, rfl, .inl (shiftCarry_completes ..)⟩
  | cmp d r => exact ⟨_, rfl, .inl (setFlags_advance_completes ..)⟩
  | inc d r mu | dec d r mu | add d r mu | sub d r mu | mul d r mu =>
    exact ⟨_, rfl, .inl (arith_completes ..)⟩
  | mhi d r mu => exact ⟨_, rfl, .inl (arithFree_completes ..)⟩
  | irp d r mu => exact ⟨_, rfl, .inl (advance_completes ..)⟩
  | div d r mu | rem d r mu => exact ⟨_, rfl, divide_completesOrFaults ..⟩
  | bsf d r | bsr d r | ham d r | par d r | bex d r | bdp d r =>
    exact ⟨_, rfl, .inl (writeReg_advance_completes ..)⟩
  | lea d a k =>
    rw [len_of_extKind (i := .lea d a k) (o := a.disp) rfl]
    exact ⟨_, rfl, .inl (writeReg_advance_completes ..)⟩
  | bst d p o r | bcl d p o r | bfl d p o r | bts d p o r | btc d p o r | btf d p o r =>
    rw [len_of_extKind (o := o) rfl]
    exact ⟨_, rfl, memBits_completesOrFaults ..⟩
  | ldh d h | ldb d b | ldi d v | ldl d v => exact ⟨_, rfl, .inl (writeReg_advance_completes ..)⟩
  | lnt d a | ldr d a md =>
    rw [len_of_extKind (o := a.disp) rfl]
    exact ⟨_, rfl, loadMem_completesOrFaults ..⟩
  | ldx form =>
    cases form with
    | sysToReg r d => exact ⟨_, rfl, sysToReg_completesOrFaults ..⟩
    | sysToSys r d => exact ⟨_, rfl, sysToSys_completesOrFaults ..⟩
    | memToSys a l1 l2 d =>
      rw [len_of_extKind (o := a.disp) rfl]
      exact ⟨_, rfl, memToSys_completesOrFaults ..⟩

/-- The same of an answer already at hand. -/
theorem completesOrFaults_of_exec {x : Xlen} {m m' : Mach x.bits} {i : Instr} (h : exec i ⟨x, m⟩ = .next ⟨x, m'⟩) :
    CompletesOrFaults m m' (regWritten i) (flagsWritten i) (i.len (ldlPad m.cfg m.pc)) (isMemBits i) := by
  obtain ⟨m₀, h₀, hc⟩ := exec_completesOrFaults x m i
  rw [h] at h₀
  cases h₀
  exact hc

/-! ### What a step can do -/

/-- The four ways of a step (60_exceptions R285): nothing once the run has stopped, the end at END_PC, a fault of the
fetch or of the decoding, an instruction. -/
inductive StepCase {x : Xlen} (m : Mach x.bits) : Mach x.bits → Prop where
  | stopped (hr : m.status ≠ .running) : StepCase m m
  | ended (hr : m.status = .running) (he : m.cfg.endPc = some m.pc) : StepCase m { m with status := .ended }
  | fetchFault (f : Fault) (hr : m.status = .running) (he : m.cfg.endPc ≠ some m.pc)
      (hf : m.fetchInstr x = .error f) : StepCase m (m.raise f)
  | executed (i : Instr) (m' : Mach x.bits) (hr : m.status = .running) (he : m.cfg.endPc ≠ some m.pc)
      (hf : m.fetchInstr x = .ok i) (h : exec i ⟨x, m⟩ = .next ⟨x, m'⟩) : StepCase m m'

theorem step_of_stopped {x : Xlen} {m : Mach x.bits} (hr : m.status ≠ .running) : step ⟨x, m⟩ = .next ⟨x, m⟩ := by
  cases h : m.status with
  | running => exact absurd h hr
  | faulted f p => simp [step, h]
  | ended => simp [step, h]

theorem step_of_atEnd {x : Xlen} {m : Mach x.bits} (hr : m.status = .running) (he : m.cfg.endPc = some m.pc) :
    step ⟨x, m⟩ = .next ⟨x, { m with status := .ended }⟩ := by
  have ha : m.atEnd = true := by simp [Mach.atEnd, he]
  simp [step, hr, ha, State.goto]

/-- Every step answers a next state, in one of those four ways. -/
theorem step_cases (x : Xlen) (m : Mach x.bits) : ∃ m', step ⟨x, m⟩ = .next ⟨x, m'⟩ ∧ StepCase m m' := by
  by_cases hr : m.status = .running
  · by_cases he : m.cfg.endPc = some m.pc
    · exact ⟨_, step_of_atEnd hr he, .ended hr he⟩
    · cases hf : m.fetchInstr x with
      | error f => exact ⟨_, step_of_fetch_error hr he hf, .fetchFault f hr he hf⟩
      | ok i =>
        obtain ⟨m', hm, -⟩ := exec_completesOrFaults x m i
        exact ⟨m', (step_of_fetch_ok hr he hf).trans hm, .executed i m' hr he hf hm⟩
  · exact ⟨m, step_of_stopped hr, .stopped hr⟩

/-! ### The invariant -/

/-- The bytes of an aligned memory-word lie inside the address space (20_memory R54, R63). -/
theorem aligned_word_fits (x : Xlen) (a : BitVec x.bits) (h : a.toNat % (x.bits / 8) = 0) :
    a.toNat + x.bits / 8 ≤ 2 ^ x.bits := by
  have ha := a.isLt
  cases x <;> simp only [Xlen.bits] at a h ha ⊢ <;> omega

theorem Mach.Inv.raise {m : Mach W} (h : m.Inv) (f : Fault) : (m.raise f).Inv where
  mem_wf := h.mem_wf
  mem_range := h.mem_range
  reg_zero := h.reg_zero
  pc_aligned := h.pc_aligned
  cfg_wf := h.cfg_wf
  faulted_pc := by rintro _ _ ⟨⟩; rfl
  ended_pc := by rintro ⟨⟩

theorem Mach.Inv.ended {m : Mach W} (h : m.Inv) (he : m.cfg.endPc = some m.pc) :
    Mach.Inv { m with status := .ended } where
  mem_wf := h.mem_wf
  mem_range := h.mem_range
  reg_zero := h.reg_zero
  pc_aligned := h.pc_aligned
  cfg_wf := h.cfg_wf
  faulted_pc := by rintro _ _ ⟨⟩
  ended_pc := fun _ => he

/-- An instruction that completes keeps the invariant of a running machine: its one store goes to an aligned word, and its
length is a multiple of 4. -/
theorem Completes.inv {x : Xlen} {m m' : Mach x.bits} {d : RegNum} {w : Flags} {n : Nat} {b : Bool}
    (hc : Completes m m' d w n b) (h : m.Inv) (hr : m.status = .running) (hn : n % 4 = 0) : m'.Inv := by
  have hrun : m'.status = .running := hc.status.trans hr
  have hmem : m'.mem.wf = true ∧ ∀ c ∈ m'.mem, c.1 < 2 ^ x.bits := by
    rcases hc.mem with he | ⟨-, a, v, ⟨ha, -⟩, he⟩
    · rw [he]
      exact ⟨h.mem_wf, h.mem_range⟩
    · rw [he]
      refine ⟨Memory.wf_writeBytes _ _ _ h.mem_wf, Memory.range_writeBytes _ _ _ _ ?_ h.mem_range⟩
      rw [dataBytes_length]
      exact aligned_word_fits x a ha
  exact {
    mem_wf := hmem.1
    mem_range := hmem.2
    reg_zero := hc.entry_zero.trans h.reg_zero
    pc_aligned := by rw [hc.pc]; exact aligned_add x m.pc n h.pc_aligned hn
    cfg_wf := by rw [hc.cfg]; exact h.cfg_wf
    faulted_pc := fun f p hs => by rw [hrun] at hs; cases hs
    ended_pc := fun hs => by rw [hrun] at hs; cases hs }

theorem CompletesOrFaults.inv {x : Xlen} {m m' : Mach x.bits} {d : RegNum} {w : Flags} {n : Nat} {b : Bool}
    (hc : CompletesOrFaults m m' d w n b) (h : m.Inv) (hr : m.status = .running) (hn : n % 4 = 0) : m'.Inv := by
  rcases hc with hc | ⟨f, rfl⟩
  · exact hc.inv h hr hn
  · exact h.raise f

theorem StepCase.inv {x : Xlen} {m m' : Mach x.bits} (hs : StepCase m m') (h : m.Inv) : m'.Inv := by
  cases hs with
  | stopped _ => exact h
  | ended _ he => exact h.ended he
  | fetchFault f _ _ _ => exact h.raise f
  | executed i _ hr _ _ hx =>
    exact (completesOrFaults_of_exec hx).inv h hr (by have := len_cases i (ldlPad m.cfg m.pc); omega)

/-- Settles O14: the four ways of a step, each of which keeps the invariant. -/
theorem stepKeepsTheInvariant : Obligations.StepKeepsTheInvariant := by
  rintro ⟨x, m⟩ t h ht
  obtain ⟨m', hm, hs⟩ := step_cases x m
  rw [hm] at ht
  cases ht
  exact hs.inv h

/-- Settles O15. Nothing is loaded, RESET_PC is 0 and END_PC is none. -/
theorem resetMeetsTheInvariant : Obligations.ResetMeetsTheInvariant where
  mem_wf := rfl
  mem_range := by rintro c ⟨⟩
  reg_zero := rfl
  pc_aligned := rfl
  cfg_wf := rfl
  faulted_pc := by rintro f p ⟨⟩
  ended_pc := by rintro ⟨⟩

/-! ### What an instruction leaves unchanged -/

/-- Settles O19: the flags of a completed instruction are within the "Writes" column of R28, and a fault keeps all. -/
theorem onlyListedFlagsAreWritten : Obligations.OnlyListedFlagsAreWritten := by
  intro x m m' i h
  rcases completesOrFaults_of_exec h with hc | ⟨f, rfl⟩
  · exact ⟨hc.zf, hc.lt, hc.cf, hc.of⟩
  · exact ⟨fun _ => rfl, fun _ => rfl, fun _ => rfl, fun _ => rfl⟩

/-- Settles O21: a completed instruction keeps every other register, and a fault keeps all. -/
theorem onlyTheListedRegisterIsWritten : Obligations.OnlyTheListedRegisterIsWritten := by
  intro x m m' i h r hr
  rcases completesOrFaults_of_exec h with hc | ⟨f, rfl⟩
  · exact hc.regs r hr
  · rfl

/-- Settles O22: `pc` of a completed instruction is a sum of words, read as a number; the lengths are those of R26. -/
theorem pcMovesOnlyByTheLength : Obligations.PcMovesOnlyByTheLength := by
  intro x m i
  obtain ⟨m', h, hc⟩ := exec_completesOrFaults x m i
  refine ⟨m', h, ?_, len_cases i _⟩
  rcases hc with hc | hf
  · exact .inl ⟨hc.status, by simp [hc.pc, BitVec.toNat_add]⟩
  · exact .inr hf

/-! ### What reads the flags -/

/-- `m2` differs from `m1` in its flags at most. -/
def EqButFlags (m1 m2 : Mach W) : Prop :=
  ∃ f, m2 = m1.setFlags f

theorem EqButFlags.refl (m : Mach W) : EqButFlags m m :=
  ⟨m.flags, rfl⟩

theorem EqButFlags.eq {m1 m2 : Mach W} (h : EqButFlags m1 m2) : m2 = { m1 with flags := m2.flags } := by
  obtain ⟨f, rfl⟩ := h
  rfl

/-! The updates of the machine keep the relation; a new value of the flags cannot break it. -/

theorem EqButFlags.advance {m1 m2 : Mach W} (h : EqButFlags m1 m2) (n : Nat) :
    EqButFlags (m1.advance n) (m2.advance n) := by
  obtain ⟨f, rfl⟩ := h
  exact ⟨f, rfl⟩

theorem EqButFlags.raise {m1 m2 : Mach W} (h : EqButFlags m1 m2) (e : Fault) :
    EqButFlags (m1.raise e) (m2.raise e) := by
  obtain ⟨f, rfl⟩ := h
  exact ⟨f, rfl⟩

theorem EqButFlags.setFlags {m1 m2 : Mach W} (h : EqButFlags m1 m2) (g1 g2 : Flags) :
    EqButFlags (m1.setFlags g1) (m2.setFlags g2) := by
  obtain ⟨f, rfl⟩ := h
  exact ⟨g2, rfl⟩

theorem EqButFlags.writeReg {m1 m2 : Mach W} (h : EqButFlags m1 m2) (d : RegNum) (v : BitVec W) :
    EqButFlags (m1.writeReg d v) (m2.writeReg d v) := by
  obtain ⟨f, rfl⟩ := h
  refine ⟨f, ?_⟩
  unfold Mach.writeReg
  split <;> rfl

theorem EqButFlags.setCarry {m1 m2 : Mach W} (h : EqButFlags m1 m2) (mu : ArithBits) (c : CarryOverflow) :
    EqButFlags (m1.setCarry mu c) (m2.setCarry mu c) := by
  unfold Mach.setCarry
  split
  · exact h.setFlags _ _
  · exact h

theorem EqButFlags.setFreeCarry {m1 m2 : Mach W} (h : EqButFlags m1 m2) (mu : ArithBits) :
    EqButFlags (m1.setFreeCarry mu) (m2.setFreeCarry mu) := by
  obtain ⟨f, rfl⟩ := h
  unfold Mach.setFreeCarry
  split
  · exact ⟨_, rfl⟩
  · exact ⟨f, rfl⟩

/-! The shapes of the meanings on a machine with other flags. What they read of it, registers, memory and parameters, is
the same there by definition. -/

theorem eqButFlags_setFlags (m : Mach W) (f : Flags) : EqButFlags m (m.setFlags f) :=
  ⟨f, rfl⟩

theorem writeReg_advance_eqButFlags (m : Mach W) (f : Flags) (d : RegNum) (v : BitVec W) (n : Nat) :
    EqButFlags ((m.writeReg d v).advance n) (((m.setFlags f).writeReg d v).advance n) :=
  ((eqButFlags_setFlags m f).writeReg d v).advance n

theorem shiftCarry_eqButFlags (m : Mach W) (f : Flags) (d : RegNum) (c : Count)
    (g : BitVec (W + 1) → Nat → BitVec (W + 1)) (h : f.CF = m.flags.CF) :
    EqButFlags (shiftCarry m d c g) (shiftCarry (m.setFlags f) d c g) := by
  simp only [shiftCarry, Mach.setFlags_flags, h]
  exact (((eqButFlags_setFlags m f).writeReg d _).setFlags _ _).advance 4

theorem arith_eqButFlags (m : Mach W) (f : Flags) (d : RegNum) (mu : ArithBits) (v : BitVec W) (c : CarryOverflow) :
    EqButFlags (arith m d mu v c) (arith (m.setFlags f) d mu v c) :=
  (((eqButFlags_setFlags m f).setCarry mu c).writeReg d v).advance 4

theorem arithFree_eqButFlags (m : Mach W) (f : Flags) (d : RegNum) (mu : ArithBits) (v : BitVec W) :
    EqButFlags (arithFree m d mu v) (arithFree (m.setFlags f) d mu v) :=
  (((eqButFlags_setFlags m f).setFreeCarry mu).writeReg d v).advance 4

theorem divide_eqButFlags (m : Mach W) (f : Flags) (d r : RegNum) (mu : ArithBits)
    (g : Bool → BitVec W → BitVec W → BitVec W) :
    EqButFlags (divide m d r mu g) (divide (m.setFlags f) d r mu g) := by
  by_cases h : m.reg r = 0#W
  · rw [divide_zero m d r mu g h, divide_zero (m.setFlags f) d r mu g h]
    exact (eqButFlags_setFlags m f).raise _
  · rw [divide_nonzero m d r mu g h, divide_nonzero (m.setFlags f) d r mu g h]
    exact arithFree_eqButFlags ..

theorem loadMem_eqButFlags (m : Mach W) (f : Flags) (d : RegNum) (a : AddrOperand) (k : Nat) :
    EqButFlags (loadMem m d a k) (loadMem (m.setFlags f) d a k) := by
  cases h : m.memRead (m.effAddr a k) with
  | error e =>
    rw [loadMem_error m d a k e h, loadMem_error (m.setFlags f) d a k e h]
    exact (eqButFlags_setFlags m f).raise e
  | ok v =>
    have ha := ((Mach.memRead_ok_iff m _ _).1 h).1
    rw [loadMem_accessible m d a k ha, loadMem_accessible (m.setFlags f) d a k ha]
    exact writeReg_advance_eqButFlags ..

theorem memBits_eqButFlags (m : Mach W) (f : Flags) (d : RegNum) (p : Count) (o : Option (BitVec 32)) (ret : RegNum)
    (g : BitVec W → BitVec W → BitVec W × Bool) :
    EqButFlags (memBits m d p o ret g) (memBits (m.setFlags f) d p o ret g) := by
  cases h : m.memRead (m.bitAddr d o) with
  | error e =>
    rw [memBits_error m d p o ret g e h, memBits_error (m.setFlags f) d p o ret g e h]
    exact (eqButFlags_setFlags m f).raise e
  | ok old =>
    have ha := ((Mach.memRead_ok_iff m _ _).1 h).1
    rw [memBits_accessible m d p o ret g ha, memBits_accessible (m.setFlags f) d p o ret g ha]
    exact writeReg_advance_eqButFlags _ f ret _ _

theorem memToSys_eqButFlags (m : Mach W) (f : Flags) (a : AddrOperand) (d : RegNum) :
    EqButFlags (memToSys m a d) (memToSys (m.setFlags f) a d) := by
  have hf := eqButFlags_setFlags m f
  by_cases hd : d = m.cfg.mswIndex
  · subst hd
    cases h : m.memRead (m.effAddr a 0) with
    | error e =>
      rw [memToSys_error m a e h, show memToSys (m.setFlags f) a m.cfg.mswIndex = _ from
        memToSys_error (m.setFlags f) a e h]
      exact hf.raise e
    | ok v =>
      have ha := ((Mach.memRead_ok_iff m _ _).1 h).1
      rw [memToSys_accessible m a ha, show memToSys (m.setFlags f) a m.cfg.mswIndex = _ from
        memToSys_accessible (m.setFlags f) a ha]
      exact (hf.setFlags _ _).advance _
  · rw [memToSys_reserved m a d hd, memToSys_reserved (m.setFlags f) a d hd]
    exact hf.raise _

theorem Flags.eq_of_fields {f g : Flags} (hz : f.ZF = g.ZF) (hl : f.LT = g.LT) (hc : f.CF = g.CF)
    (ho : f.OF = g.OF) : f = g := by
  cases f
  cases g
  simp_all

/-- Answers that hold machines equal but for the flags. -/
theorem eqButFlags_of_goto {x : Xlen} {m n a b m1 m2 : Mach x.bits} (h1 : State.goto ⟨x, m⟩ a = .next ⟨x, m1⟩)
    (h2 : State.goto ⟨x, n⟩ b = .next ⟨x, m2⟩) (h : EqButFlags a b) : EqButFlags m1 m2 := by
  cases h1
  cases h2
  exact h

/-- An instruction that reads no flag but those on which `f` agrees with the flags of `m` does the same under `f`, the
flags apart (10_state R28). -/
theorem exec_eqButFlags {x : Xlen} {m m1 m2 : Mach x.bits} {f : Flags} {i : Instr}
    (hz : (flagsRead i).ZF = true → f.ZF = m.flags.ZF) (hl : (flagsRead i).LT = true → f.LT = m.flags.LT)
    (hc : (flagsRead i).CF = true → f.CF = m.flags.CF) (ho : (flagsRead i).OF = true → f.OF = m.flags.OF)
    (h1 : exec i ⟨x, m⟩ = .next ⟨x, m1⟩) (h2 : exec i ⟨x, m.setFlags f⟩ = .next ⟨x, m2⟩) : EqButFlags m1 m2 := by
  cases i with
  | not d | or d r | and d r | xor d r | nor d r | xnor d r | nand d r
  | sll d c | srl d c | sar d c | rol d c | ror d c
  | bsf d r | bsr d r | ham d r | par d r | bex d r | bdp d r | lea d a k
  | ldh d h | ldb d b | ldi d v | ldl d v =>
    exact eqButFlags_of_goto h1 h2 (writeReg_advance_eqButFlags ..)
  | rcl d c | rcr d c =>
    exact eqButFlags_of_goto h1 h2 (shiftCarry_eqButFlags _ _ _ _ _ (hc rfl))
  | cmp d r =>
    exact eqButFlags_of_goto h1 h2 (((eqButFlags_setFlags m f).setFlags _ _).advance 4)
  | inc d r mu | dec d r mu | add d r mu | sub d r mu | mul d r mu =>
    exact eqButFlags_of_goto h1 h2 (arith_eqButFlags ..)
  | mhi d r mu =>
    exact eqButFlags_of_goto h1 h2 (arithFree_eqButFlags ..)
  | irp d r mu =>
    exact eqButFlags_of_goto h1 h2 ((eqButFlags_setFlags m f).advance 4)
  | div d r mu | rem d r mu =>
    exact eqButFlags_of_goto h1 h2 (divide_eqButFlags ..)
  | bst d p o r | bcl d p o r | bfl d p o r | bts d p o r | btc d p o r | btf d p o r =>
    exact eqButFlags_of_goto h1 h2 (memBits_eqButFlags ..)
  | lnt d a | ldr d a md =>
    exact eqButFlags_of_goto h1 h2 (loadMem_eqButFlags ..)
  | ldx form =>
    cases form with
    | memToSys a l1 l2 d =>
      exact eqButFlags_of_goto h1 h2 (memToSys_eqButFlags ..)
    | sysToReg r d | sysToSys r d =>
      have hm : m.setFlags f = m := by
        rw [Flags.eq_of_fields (hz rfl) (hl rfl) (hc rfl) (ho rfl)]
        rfl
      rw [hm, h1] at h2
      cases h2
      exact .refl m1

/-- Settles O20: the relation of `exec_eqButFlags`, written as an equation. -/
theorem unreadFlagsDoNotInfluence : Obligations.UnreadFlagsDoNotInfluence :=
  fun _ _ _ _ _ _ hz hl hc ho h1 h2 => (exec_eqButFlags hz hl hc ho h1 h2).eq

/-! ### Register 0 and the system registers -/

/-- Settles O23, from the law of `writeReg`. -/
theorem registerZeroReadsZero : Obligations.RegisterZeroReadsZero :=
  fun _ m v => ⟨m.reg_zero, rfl, fun d r => m.reg_writeReg d v r⟩

/-- Settles O49, from the laws of `readSys` and `writeSys` and the bits of `mswValue`. -/
theorem systemRegisterAccess : Obligations.SystemRegisterAccess := by
  intro x m n v
  refine ⟨?_, fun hn => ⟨m.readSys_reserved n hn, m.writeSys_reserved n v hn⟩⟩
  rintro rfl
  exact ⟨⟨_, m.readSys_msw, mswValue_getLsbD x m.flags⟩, m.writeSys_msw v⟩

end Sys2Proof.Machine
end

section
/-! PROOF. The statements of 20_memory: which faults a data access and a fetch raise, where the bits of a word stand in
memory, what a write leaves, and that the canonical form is one. -/

namespace Sys2Proof.Machine

variable {W : Nat}

/-! ### Alignment of `pc` -/

/-- What every step keeps holds along a run. -/
theorem run_preserves {P : State → Prop} (hstep : ∀ s t, P s → step s = .next t → P t) (k : Nat) :
    ∀ {s t : State}, P s → Host.Core.run Sys2Proof.core k s = .next t → P t := by
  induction k with
  | zero =>
    intro s t hs h
    cases h
    exact hs
  | succ k ih =>
    intro s t hs h
    obtain ⟨m', hm, -⟩ := step_cases s.xlen s.mach
    rw [run_succ hm] at h
    exact ih (hstep s _ hs hm) h

/-- A step moves `pc` by the length of an instruction or not at all, so a multiple of 4 stays one (20_memory R55). -/
theorem StepCase.pc_aligned {x : Xlen} {m m' : Mach x.bits} (hs : StepCase m m') (h : m.pc.toNat % 4 = 0) :
    m'.pc.toNat % 4 = 0 := by
  cases hs with
  | stopped | ended | fetchFault => exact h
  | executed i _ _ _ _ hx =>
    rcases completesOrFaults_of_exec hx with hc | ⟨f, rfl⟩
    · rw [hc.pc]
      exact aligned_add x m.pc _ h (by have := len_cases i (ldlPad m.cfg m.pc); omega)
    · exact h

theorem step_pc_aligned (s t : State) (h : s.mach.pc.toNat % 4 = 0) (ht : step s = .next t) :
    t.mach.pc.toNat % 4 = 0 := by
  obtain ⟨m', hm, hs⟩ := step_cases s.xlen s.mach
  rw [show step s = _ from hm] at ht
  cases ht
  exact hs.pc_aligned h

/-- The word at `pc` is fetched first, so its fault is the fault of the fetch (60_exceptions R270). -/
theorem Mach.fetchInstr_error {x : Xlen} {m : Mach x.bits} {f : Fault} (h : m.fetchWord m.pc = .error f) :
    m.fetchInstr x = .error f := by
  simp [Mach.fetchInstr, h]

/-- `imm32` is the word at `pc + 4` (30_encoding R85). -/
theorem Mach.fetchExt_word {m : Mach W} {w : InstrWord} (h : m.fetchWord (m.pc + 4#W) = .ok w) :
    m.fetchExt .word = .ok (w.setWidth 64) := by
  simp [Mach.fetchExt, h]

/-- Settles O9: the fault of a misaligned fetch, the alignment that every step keeps, and the fetch of `imm32`. -/
theorem alignedRunsStayAligned : Obligations.AlignedRunsStayAligned := by
  intro x m
  refine ⟨fun hr he ha => ?_, fun ha k m' hk => ?_, fun w hw => m.fetchExt_word hw⟩
  · have hf := Mach.fetchInstr_error (m.fetchWord_misaligned m.pc ha)
    exact ⟨_, step_of_fetch_error hr he hf, m.raise_faults _⟩
  · exact run_preserves (P := fun s => s.mach.pc.toNat % 4 = 0) step_pc_aligned k (s := ⟨x, m⟩) ha hk

/-! ### The faults of a data access -/

/-- The instructions that access memory as data, each with the address of its access: the loads from memory (47_loads
R225 to R228; LDX once its destination is found to be MSW) and op 6 (46_bit_manipulation R207). -/
inductive AccessesData (m : Mach W) : Instr → BitVec W → Prop where
  | lnt (d : RegNum) (a : AddrOperand) : AccessesData m (.lnt d a) (m.effAddr a 0)
  | ldr (d : RegNum) (a : AddrOperand) (mode : LdrMode) : AccessesData m (.ldr d a mode) (m.effAddr a (ldrScale mode))
  | ldx (a : AddrOperand) (l1 l2 : Bool) :
      AccessesData m (.ldx (.memToSys a l1 l2 m.cfg.mswIndex)) (m.effAddr a 0)
  | bst (d : RegNum) (p : Count) (o : Option (BitVec 32)) (r : RegNum) : AccessesData m (.bst d p o r) (m.bitAddr d o)
  | bcl (d : RegNum) (p : Count) (o : Option (BitVec 32)) (r : RegNum) : AccessesData m (.bcl d p o r) (m.bitAddr d o)
  | bfl (d : RegNum) (p : Count) (o : Option (BitVec 32)) (r : RegNum) : AccessesData m (.bfl d p o r) (m.bitAddr d o)
  | bts (d : RegNum) (p : Count) (o : Option (BitVec 32)) (r : RegNum) : AccessesData m (.bts d p o r) (m.bitAddr d o)
  | btc (d : RegNum) (p : Count) (o : Option (BitVec 32)) (r : RegNum) : AccessesData m (.btc d p o r) (m.bitAddr d o)
  | btf (d : RegNum) (p : Count) (o : Option (BitVec 32)) (r : RegNum) : AccessesData m (.btf d p o r) (m.bitAddr d o)

/-- Each of them reads its memory-word before anything else, so the fault of that read is all that happens
(60_exceptions R262, R270). -/
theorem AccessesData.raises {x : Xlen} {m : Mach x.bits} {i : Instr} {ea : BitVec x.bits} {f : Fault}
    (hi : AccessesData m i ea) (hf : m.memRead ea = .error f) :
    ∃ m', exec i ⟨x, m⟩ = .next ⟨x, m'⟩ ∧ Faults m m' f := by
  cases hi with
  | lnt d a => exact ⟨_, rfl, loadMem_error m d a 0 f hf⟩
  | ldr d a mode => exact ⟨_, rfl, loadMem_error m d a (ldrScale mode) f hf⟩
  | ldx a l1 l2 => exact ⟨_, rfl, memToSys_error m a f hf⟩
  | bst d p o r | bcl d p o r | bfl d p o r | bts d p o r | btc d p o r | btf d p o r =>
    exact ⟨_, rfl, memBits_error m d p o r _ f hf⟩

/-- Settles O51: every read at a misaligned address fails, and LEA ends as a register instruction does. -/
theorem misalignedDataAccessRaises : Obligations.MisalignedDataAccessRaises := by
  intro x m d a p o ret
  have h : ∀ {i ea}, AccessesData m i ea → ea.toNat % (x.bits / 8) ≠ 0 →
      ∃ m', exec i ⟨x, m⟩ = .next ⟨x, m'⟩ ∧ Faults m m' (.misalignedAccess ea.toNat) :=
    fun hi ha => hi.raises (m.memRead_misaligned _ ha)
  have hlea : ∀ s, ∃ m', exec (.lea d a s) ⟨x, m⟩ = .next ⟨x, m'⟩ ∧ m'.status = m.status :=
    fun s => ⟨_, rfl, (writeReg_advance_effect m d (m.effAddr a (scaleOf s)) (lenOf a.disp)).status⟩
  exact ⟨h (.lnt d a), fun l1 l2 => h (.ldr d a (.cached l1 l2)), fun n => h (.ldr d a (.scaled n)),
    fun l1 l2 => h (.ldx a l1 l2), h (.bst d p o ret), h (.bcl d p o ret), h (.bfl d p o ret), h (.bts d p o ret),
    h (.btc d p o ret), h (.btf d p o ret), hlea⟩

/-- Settles O52: every read of an aligned word outside MEM_VALID fails. -/
theorem unmappedDataAccessRaises : Obligations.UnmappedDataAccessRaises := by
  intro x m d a p o ret
  have h : ∀ {i ea}, AccessesData m i ea → ea.toNat % (x.bits / 8) = 0 →
      (∃ k < x.bits / 8, m.cfg.valid (ea.toNat + k) = false) →
      ∃ m', exec i ⟨x, m⟩ = .next ⟨x, m'⟩ ∧ Faults m m' (.accessFault ea.toNat) :=
    fun hi ha hv => hi.raises (m.memRead_unmapped _ ha hv)
  exact ⟨h (.lnt d a), fun l1 l2 => h (.ldr d a (.cached l1 l2)), fun n => h (.ldr d a (.scaled n)),
    fun l1 l2 => h (.ldx a l1 l2), h (.bst d p o ret), h (.bcl d p o ret), h (.bfl d p o ret), h (.bts d p o ret),
    h (.btc d p o ret), h (.btf d p o ret)⟩

/-! ### Byte order -/

/-- A word read from `n` bytes, least significant first: bit `k` is bit `k mod 8` of byte `k / 8`. -/
theorem getLsbD_ofNat_readBytes (mem : Memory) (a n : Nat) {w k : Nat} (hw : k < w) (hn : k / 8 < n) :
    (BitVec.ofNat w (natOfBytes (mem.readBytes a n))).getLsbD k = (mem.read (a + k / 8)).getLsbD (k % 8) := by
  have hl : k / 8 < (mem.readBytes a n).length := by simpa using hn
  rw [BitVec.getLsbD_ofNat, natOfBytes_testBit, List.getD_eq_getElem _ _ hl, Memory.readBytes_getElem]
  simp [hw]

/-- Most significant first, byte `k / 8` is counted from the top. -/
theorem getLsbD_ofNat_reverse_readBytes (mem : Memory) (a n : Nat) {w k : Nat} (hw : k < w) (hn : k / 8 < n) :
    (BitVec.ofNat w (natOfBytes (mem.readBytes a n).reverse)).getLsbD k =
      (mem.read (a + (n - 1 - k / 8))).getLsbD (k % 8) := by
  have hl : k / 8 < (mem.readBytes a n).reverse.length := by simpa using hn
  rw [BitVec.getLsbD_ofNat, natOfBytes_testBit, List.getD_eq_getElem _ _ hl, List.getElem_reverse,
    Memory.readBytes_getElem]
  simp [hw]

theorem wordAt_getLsbD_little {m : Mach W} (he : m.cfg.endian = .little) (a : Nat) {k : Nat} (hk : k < W)
    (hb : k / 8 < W / 8) : (m.wordAt a).getLsbD k = (m.mem.read (a + k / 8)).getLsbD (k % 8) := by
  rw [Mach.wordAt, he]
  exact getLsbD_ofNat_readBytes m.mem a (W / 8) hk hb

theorem wordAt_getLsbD_big {m : Mach W} (he : m.cfg.endian = .big) (a : Nat) {k : Nat} (hk : k < W)
    (hb : k / 8 < W / 8) : (m.wordAt a).getLsbD k = (m.mem.read (a + (W / 8 - 1 - k / 8))).getLsbD (k % 8) := by
  rw [Mach.wordAt, he]
  exact getLsbD_ofNat_reverse_readBytes m.mem a (W / 8) hk hb

/-- Settles O53: the width is a whole number of bytes, so every bit stands in one of them. -/
theorem memoryWordByteOrder : Obligations.MemoryWordByteOrder := by
  intro x m a k hk
  have hb : k / 8 < x.bits / 8 := by
    rcases xlen_bits_cases x with h | h <;> omega
  exact ⟨fun he => wordAt_getLsbD_little he a hk hb, fun he => wordAt_getLsbD_big he a hk hb⟩

/-- Settles O54, from the laws of `memWrite` and `writeBytes`. -/
theorem writtenWordReadsBack : Obligations.WrittenWordReadsBack := by
  intro x m a v
  constructor
  · constructor
    · intro ha
      exact ⟨_, (m.memWrite_ok_iff a v _).2 ⟨ha, rfl⟩⟩
    · rintro ⟨m', h⟩
      exact ((m.memWrite_ok_iff a v m').1 h).1
  · intro m' h
    obtain ⟨ha, rfl⟩ := (m.memWrite_ok_iff a v m').1 h
    constructor
    · exact (Mach.memRead_ok_iff _ a v).2 ⟨ha, (wordAt_writeBytes x m a.toNat v).symm⟩
    · intro b hb
      exact Memory.read_writeBytes_outside m.mem a.toNat _ b (by simpa using hb)

/-- Settles O55: an aligned memory-word does not wrap, both of its halves are aligned and mapped, and bit by bit they
are the word. -/
theorem memoryWordIsTwoFetchWords : Obligations.MemoryWordIsTwoFetchWords := by
  intro m a v he h
  obtain ⟨⟨ha, hv⟩, rfl⟩ := (m.memRead_ok_iff a v).1 h
  have hhi : (a + 4#64).toNat = a.toNat + 4 := by bv_omega
  refine ⟨_, _, (m.fetchWord_ok_iff a _).2 ⟨by omega, fun k hk => hv k (by omega), rfl⟩,
    (m.fetchWord_ok_iff _ _).2 ⟨by omega, fun k hk => ?_, rfl⟩, ?_⟩
  · rw [hhi, Nat.add_assoc]
    exact hv (4 + k) (by omega)
  · apply BitVec.eq_of_getLsbD_eq
    intro k hk
    rw [wordAt_getLsbD_little he a.toNat hk (by omega), BitVec.getLsbD_append, he, hhi]
    simp only [Endian.order]
    split
    next hlo => rw [getLsbD_ofNat_readBytes _ _ _ hlo (by omega)]
    next hlo =>
      have hbyte : a.toNat + 4 + (k - 32) / 8 = a.toNat + k / 8 := by omega
      have hbit : (k - 32) % 8 = k % 8 := by omega
      rw [getLsbD_ofNat_readBytes _ _ _ (by omega) (by omega), hbyte, hbit]

/-! ### The top of the address space -/

theorem Accessible.fits {x : Xlen} {m : Mach x.bits} {a : BitVec x.bits} (h : Accessible m a) :
    a.toNat + x.bits / 8 ≤ 2 ^ x.bits :=
  aligned_word_fits x a h.1

/-- An aligned fetch from mapped bytes answers. -/
theorem Mach.fetchWord_mapped (m : Mach W) (a : BitVec W) (h : a.toNat % 4 = 0)
    (hv : ∀ k < 4, m.cfg.valid (a.toNat + k) = true) : ∃ w, m.fetchWord a = .ok w :=
  ⟨_, (m.fetchWord_ok_iff a _).2 ⟨h, hv, rfl⟩⟩

/-- The last word of the address space is aligned, and the word after it is at 0 (20_memory R63). -/
theorem top_word (x : Xlen) (a : BitVec x.bits) (h : a.toNat = 2 ^ x.bits - 4) :
    a.toNat % 4 = 0 ∧ a + 4#x.bits = 0#x.bits := by
  have hs : (a + 4#x.bits).toNat = 0 := by
    rw [BitVec.toNat_add, h]
    cases x <;> rfl
  refine ⟨?_, BitVec.eq_of_toNat_eq (by simpa using hs)⟩
  rw [h]
  cases x <;> rfl

/-- Settles O56: an access that is carried out is accessible, and at the top the extension word's address wraps to 0. -/
theorem alignedAccessesDoNotWrap : Obligations.AlignedAccessesDoNotWrap := by
  intro x m
  refine ⟨fun a v h => ((m.memRead_ok_iff a v).1 h).1.fits, fun a v m' h => ((m.memWrite_ok_iff a v m').1 h).1.fits,
    fun hpc => ?_⟩
  obtain ⟨hal, hwrap⟩ := top_word x m.pc hpc
  refine ⟨m.fetchWord_mapped m.pc hal, fun hv => ?_⟩
  obtain ⟨w, hw⟩ := m.fetchWord_mapped 0#_ (by simp) (by simpa using hv)
  exact ⟨w, hw, Mach.fetchExt_word (hwrap ▸ hw)⟩

/-! ### One form for each memory -/

/-- A byte that does not read as an unlisted one is listed. -/
theorem Memory.mem_of_read (m : Memory) (a : Nat) (h : m.read a ≠ unlistedByte) : (a, m.read a) ∈ m := by
  induction m with
  | nil => exact absurd rfl h
  | cons c rest ih =>
    by_cases hc : c.1 = a
    · simp [Memory.read, ← hc]
    · simp only [Memory.read, hc, if_false] at h ⊢
      exact List.mem_cons_of_mem c (ih h)

/-- Where the addresses rise, a listed byte is what its address reads as. -/
theorem Memory.read_of_mem {m : Memory} (hm : m.Pairwise (fun c d => c.1 < d.1)) {c : Host.Cell} (h : c ∈ m) :
    m.read c.1 = c.2 := by
  induction m with
  | nil => cases h
  | cons d rest ih =>
    obtain ⟨hd, hrest⟩ := List.pairwise_cons.1 hm
    rcases List.mem_cons.1 h with rfl | hc
    · simp [Memory.read]
    · simp [Memory.read, Nat.ne_of_lt (hd c hc), ih hrest hc]

/-- The entries of a canonical memory are the bytes that do not read as unlisted ones. -/
theorem Memory.mem_iff_read {m : Memory} (h : m.wf = true) (c : Host.Cell) :
    c ∈ m ↔ c.2 ≠ unlistedByte ∧ m.read c.1 = c.2 := by
  obtain ⟨hne, hrise⟩ := (Memory.wf_iff m).1 h
  constructor
  · exact fun hc => ⟨hne c hc, Memory.read_of_mem hrise hc⟩
  · rintro ⟨hc, hr⟩
    have := Memory.mem_of_read m c.1 (hr ▸ hc)
    rwa [hr] at this

/-- Settles O57: memories that read alike have the same entries, and a list whose addresses rise is fixed by its
entries. -/
theorem canonicalMemoriesAreEqualWhenTheyReadAlike : Obligations.CanonicalMemoriesAreEqualWhenTheyReadAlike := by
  intro p q hp hq h
  have : Std.Asymm (fun c d : Host.Cell => c.1 < d.1) := ⟨fun _ _ => Nat.lt_asymm⟩
  refine ((Memory.wf_iff p).1 hp).2.eq_of_mem_iff ((Memory.wf_iff q).1 hq).2 fun c => ?_
  rw [Memory.mem_iff_read hp, Memory.mem_iff_read hq, h]

end Sys2Proof.Machine
end

section
/-! PROOF. The statements of 30_encoding. The decoder of R100 is stated as a relation between the fields of a word and the
instruction it decodes to, one rule per form of an instruction; what the statements say of a decoded word is read from its
rule. -/

namespace Sys2Proof

open Sys2Proof.Machine

/-! ### The word layouts -/

/-- A word of op 0 or op 4 with the given ID (R92). -/
structure RegForm (strict : Bool) (f : Fields) (op : Byte) (id : BitVec 4) : Prop where
  op_eq : f.op = op
  id_eq : idOf f.imm = id
  dst : f.dst ≠ 0#4
  zero : strict = true → topOf f.imm = 0#4 ∧ low8Of f.imm = 0#8

/-- The count or position of op 1 and op 6, by its gate bit (R89, R92, R97 items 2 and 4). -/
inductive DecodesCount (x : Xlen) (strict : Bool) (f : Fields) : Count → Prop
  | reg (h6 : f.imm.getLsbD 6 = false) (hs : f.src ≠ 0#4) : DecodesCount x strict f (.reg f.src)
  | imm32 (h6 : f.imm.getLsbD 6 = true) (hx : x = .x32) (h5 : strict = true → f.imm.getLsbD 5 = false) :
      DecodesCount x strict f (.imm (low6Of f.imm &&& 0x1f#6))
  | imm64 (h6 : f.imm.getLsbD 6 = true) (hx : x = .x64) : DecodesCount x strict f (.imm (low6Of f.imm))

/-- A word of op 1 with the given ID and count (41_shift_rotate R130). -/
structure ShiftForm (x : Xlen) (strict : Bool) (f : Fields) (id : BitVec 4) (c : Count) : Prop where
  op_eq : f.op = 1#8
  id_eq : idOf f.imm = id
  dst : f.dst ≠ 0#4
  count : DecodesCount x strict f c
  zero : strict = true → topOf f.imm = 0#4 ∧ f.imm.getLsbD 7 = false

/-- A word of op 3 with the given ID, M- and U-bit (43_arithmetic R150). -/
structure ArithForm (strict : Bool) (f : Fields) (id : BitVec 4) (mu : ArithBits) : Prop where
  op_eq : f.op = 3#8
  id_eq : idOf f.imm = id
  dst : f.dst ≠ 0#4
  bits : decodeArithBits f = mu
  zero : strict = true → topOf f.imm = 0#4 ∧ f.imm.extractLsb' 2 6 = 0#6

/-- The `imm32` operand of an op 6 word, at 0 until it is filled in (R85, R95). -/
def bitDisp (f : Fields) : Option (BitVec 32) :=
  if f.imm.getLsbD 7 then some 0#32 else none

/-- A word of op 6 with the given ID, position, `imm32` operand and return register (46_bit_manipulation R195). -/
structure BitForm (x : Xlen) (strict : Bool) (f : Fields) (id : BitVec 4) (p : Count) (o : Option (BitVec 32))
    (ret : RegNum) : Prop where
  op_eq : f.op = 6#8
  id_eq : idOf f.imm = id
  dst : f.dst ≠ 0#4
  count : DecodesCount x strict f p
  disp : bitDisp f = o
  ret_eq : topOf f.imm = ret

/-- The shift count of LEA, by its gate bit S (R92, R94). -/
def leaScale (f : Fields) : Option (BitVec 4) :=
  if f.imm.getLsbD 7 then some (topOf f.imm) else none

/-- A word of op 8 with one of I, B, L set (R93); `src` is "N/A". -/
structure ImmForm (strict : Bool) (f : Fields) : Prop where
  op_eq : f.op = 8#8
  dst : f.dst ≠ 0#4
  src : strict = true → f.src = 0#4

/-- A word of op 8 that reads the given address: I, B, L and SS are 0 (R93, R94). -/
structure MemForm (f : Fields) (a : AddrOperand) : Prop where
  op_eq : f.op = 8#8
  kind : f.imm.extractLsb' 8 3 = 0#3
  ss : f.imm.getLsbD 11 = false
  base : f.imm.getLsbD 4 = true → f.src ≠ 0#4
  addr : decodeAddr f = a

/-- A memory-form word of op 8 with SH = 0 and the given L1, L2 and D; bit 15 must be 0 (R93). -/
structure UnscaledForm (strict : Bool) (f : Fields) (a : AddrOperand) (l1 l2 d : Bool) : Prop extends MemForm f a where
  sh : f.imm.getLsbD 7 = false
  l1_eq : f.imm.getLsbD 13 = l1
  l2_eq : f.imm.getLsbD 14 = l2
  d_eq : f.imm.getLsbD 12 = d
  zero : strict = true → f.imm.getLsbD 15 = false

/-- A word of op 8 with SS = 1 and the given D (47_loads R228). -/
structure SysForm (strict : Bool) (f : Fields) (d : Bool) : Prop where
  op_eq : f.op = 8#8
  kind : f.imm.extractLsb' 8 3 = 0#3
  ss : f.imm.getLsbD 11 = true
  low : low8Of f.imm = 0#8
  l1 : f.imm.getLsbD 13 = false
  l2 : f.imm.getLsbD 14 = false
  d_eq : f.imm.getLsbD 12 = d
  zero : strict = true → f.imm.getLsbD 15 = false

/-- `Decodes x strict f i`: a word with fields `f` decodes to `i` (R100, R101). -/
inductive Decodes (x : Xlen) (strict : Bool) (f : Fields) : Instr → Prop
  | not (h : RegForm strict f 0#8 0#4) (hs : strict = true → f.src = 0#4) : Decodes x strict f (.not f.dst)
  | or (h : RegForm strict f 0#8 1#4) : Decodes x strict f (.or f.dst f.src)
  | and (h : RegForm strict f 0#8 2#4) : Decodes x strict f (.and f.dst f.src)
  | xor (h : RegForm strict f 0#8 3#4) : Decodes x strict f (.xor f.dst f.src)
  | nor (h : RegForm strict f 0#8 4#4) : Decodes x strict f (.nor f.dst f.src)
  | xnor (h : RegForm strict f 0#8 5#4) : Decodes x strict f (.xnor f.dst f.src)
  | nand (h : RegForm strict f 0#8 6#4) : Decodes x strict f (.nand f.dst f.src)
  | sll {c : Count} (h : ShiftForm x strict f 0#4 c) : Decodes x strict f (.sll f.dst c)
  | srl {c : Count} (h : ShiftForm x strict f 1#4 c) : Decodes x strict f (.srl f.dst c)
  | sar {c : Count} (h : ShiftForm x strict f 2#4 c) : Decodes x strict f (.sar f.dst c)
  | rol {c : Count} (h : ShiftForm x strict f 3#4 c) : Decodes x strict f (.rol f.dst c)
  | ror {c : Count} (h : ShiftForm x strict f 4#4 c) : Decodes x strict f (.ror f.dst c)
  | rcl {c : Count} (h : ShiftForm x strict f 5#4 c) : Decodes x strict f (.rcl f.dst c)
  | rcr {c : Count} (h : ShiftForm x strict f 6#4 c) : Decodes x strict f (.rcr f.dst c)
  | cmp (hop : f.op = 2#8) (hd : f.dst ≠ 0#4) (hz : strict = true → f.imm = 0#16) :
      Decodes x strict f (.cmp f.dst f.src)
  | inc {mu : ArithBits} (h : ArithForm strict f 0#4 mu) : Decodes x strict f (.inc f.dst f.src mu)
  | dec {mu : ArithBits} (h : ArithForm strict f 1#4 mu) : Decodes x strict f (.dec f.dst f.src mu)
  | add {mu : ArithBits} (h : ArithForm strict f 2#4 mu) : Decodes x strict f (.add f.dst f.src mu)
  | sub {mu : ArithBits} (h : ArithForm strict f 3#4 mu) : Decodes x strict f (.sub f.dst f.src mu)
  | mul {mu : ArithBits} (h : ArithForm strict f 4#4 mu) : Decodes x strict f (.mul f.dst f.src mu)
  | mhi {mu : ArithBits} (h : ArithForm strict f 5#4 mu) : Decodes x strict f (.mhi f.dst f.src mu)
  | irp {mu : ArithBits} (h : ArithForm strict f 6#4 mu) : Decodes x strict f (.irp f.dst f.src mu)
  | div {mu : ArithBits} (h : ArithForm strict f 7#4 mu) : Decodes x strict f (.div f.dst f.src mu)
  | rem {mu : ArithBits} (h : ArithForm strict f 8#4 mu) : Decodes x strict f (.rem f.dst f.src mu)
  | bsf (h : RegForm strict f 4#8 3#4) : Decodes x strict f (.bsf f.dst f.src)
  | bsr (h : RegForm strict f 4#8 4#4) : Decodes x strict f (.bsr f.dst f.src)
  | ham (h : RegForm strict f 4#8 5#4) : Decodes x strict f (.ham f.dst f.src)
  | par (h : RegForm strict f 4#8 6#4) : Decodes x strict f (.par f.dst f.src)
  | bex (h : RegForm strict f 4#8 10#4) : Decodes x strict f (.bex f.dst f.src)
  | bdp (h : RegForm strict f 4#8 11#4) : Decodes x strict f (.bdp f.dst f.src)
  | lea {a : AddrOperand} {k : Option (BitVec 4)} (hop : f.op = 5#8) (hid : idOf f.imm = 0#4) (hd : f.dst ≠ 0#4)
      (ha : decodeAddr f = a) (hk : leaScale f = k) : Decodes x strict f (.lea f.dst a k)
  | bst {p : Count} {o : Option (BitVec 32)} {ret : RegNum} (h : BitForm x strict f 0#4 p o ret) :
      Decodes x strict f (.bst f.dst p o ret)
  | bcl {p : Count} {o : Option (BitVec 32)} {ret : RegNum} (h : BitForm x strict f 1#4 p o ret) :
      Decodes x strict f (.bcl f.dst p o ret)
  | bfl {p : Count} {o : Option (BitVec 32)} {ret : RegNum} (h : BitForm x strict f 2#4 p o ret) :
      Decodes x strict f (.bfl f.dst p o ret)
  | bts {p : Count} {o : Option (BitVec 32)} {ret : RegNum} (h : BitForm x strict f 3#4 p o ret) :
      Decodes x strict f (.bts f.dst p o ret)
  | btc {p : Count} {o : Option (BitVec 32)} {ret : RegNum} (h : BitForm x strict f 4#4 p o ret) :
      Decodes x strict f (.btc f.dst p o ret)
  | btf {p : Count} {o : Option (BitVec 32)} {ret : RegNum} (h : BitForm x strict f 5#4 p o ret) :
      Decodes x strict f (.btf f.dst p o ret)
  | ldh (hop : f.op = 7#8) (hd : f.dst ≠ 0#4) (hs : strict = true → f.src = 0#4) :
      Decodes x strict f (.ldh f.dst f.imm)
  | ldb {b : Byte} (h : ImmForm strict f) (hi : f.imm.extractLsb' 8 8 = 0x02#8) (hb : low8Of f.imm = b) :
      Decodes x strict f (.ldb f.dst b)
  | ldi (h : ImmForm strict f) (hi : f.imm = 0x0100#16) : Decodes x strict f (.ldi f.dst 0#32)
  | ldl (h : ImmForm strict f) (hi : f.imm = 0x0400#16) (hx : x = .x64) : Decodes x strict f (.ldl f.dst 0#64)
  | lnt {a : AddrOperand} (h : UnscaledForm strict f a false false false) (hd : f.dst ≠ 0#4) :
      Decodes x strict f (.lnt f.dst a)
  | cached {a : AddrOperand} {l1 l2 : Bool} (h : UnscaledForm strict f a l1 l2 false) (hd : f.dst ≠ 0#4)
      (hc : ¬ (l1 = false ∧ l2 = false)) : Decodes x strict f (.ldr f.dst a (.cached l1 l2))
  | scaled {a : AddrOperand} {n : BitVec 4} (h : MemForm f a) (hd : f.dst ≠ 0#4) (h7 : f.imm.getLsbD 7 = true)
      (hn : topOf f.imm = n) : Decodes x strict f (.ldr f.dst a (.scaled n))
  | sysToReg (h : SysForm strict f false) : Decodes x strict f (.ldx (.sysToReg f.src f.dst))
  | sysToSys (h : SysForm strict f true) : Decodes x strict f (.ldx (.sysToSys f.src f.dst))
  | memToSys {a : AddrOperand} {l1 l2 : Bool} (h : UnscaledForm strict f a l1 l2 true) :
      Decodes x strict f (.ldx (.memToSys a l1 l2 f.dst))

/-! ### The decoder answers by those rules alone -/

/-- A check that is passed. -/
theorem if_error_eq_ok {ε α : Type} {c : Prop} [Decidable c] {e : ε} {r : Except ε α} {a : α} :
    (if c then .error e else r) = .ok a ↔ ¬ c ∧ r = .ok a := by
  split <;> simp [*]

section Soundness

variable {x : Xlen} {strict : Bool} {f : Fields} {i : Instr}

theorem decodesCount_of_decodeCount {c : Count} (h : decodeCount x strict f = .ok c) : DecodesCount x strict f c := by
  unfold decodeCount at h
  split at h
  next h6 =>
    split at h
    next hx =>
      obtain ⟨h5, h⟩ := if_error_eq_ok.1 h
      cases h
      exact .imm32 h6 hx (by simpa using h5)
    next hx => cases h; exact .imm64 h6 (by cases x <;> simp at hx ⊢)
  next h6 =>
    obtain ⟨hs, h⟩ := if_error_eq_ok.1 h
    cases h
    exact .reg (by simpa using h6) hs

theorem decodes_of_decodeLogical (hop : f.op = 0#8) (h : decodeLogical strict f = .ok i) : Decodes x strict f i := by
  simp only [decodeLogical, if_error_eq_ok, not_and, not_or, ne_eq, not_not] at h
  obtain ⟨hz, hd, h⟩ := h
  have form {id : BitVec 4} (hid : (idOf f.imm).toNat = id.toNat) : RegForm strict f 0#8 id :=
    ⟨hop, BitVec.eq_of_toNat_eq hid, hd, hz⟩
  split at h
  next hid =>
    obtain ⟨hs, h⟩ := if_error_eq_ok.1 h
    cases h
    exact .not (form hid) (by simpa using hs)
  next hid => cases h; exact .or (form hid)
  next hid => cases h; exact .and (form hid)
  next hid => cases h; exact .xor (form hid)
  next hid => cases h; exact .nor (form hid)
  next hid => cases h; exact .xnor (form hid)
  next hid => cases h; exact .nand (form hid)
  next => cases h

theorem decodes_of_decodeShift (hop : f.op = 1#8) (h : decodeShift x strict f = .ok i) : Decodes x strict f i := by
  simp only [decodeShift, if_error_eq_ok, not_and, not_or, ne_eq, not_not, Bool.not_eq_true] at h
  obtain ⟨hz, hd, h⟩ := h
  split at h
  next => cases h
  next c hc =>
    have form {id : BitVec 4} (hid : (idOf f.imm).toNat = id.toNat) : ShiftForm x strict f id c :=
      ⟨hop, BitVec.eq_of_toNat_eq hid, hd, decodesCount_of_decodeCount hc, hz⟩
    split at h
    next hid => cases h; exact .sll (form hid)
    next hid => cases h; exact .srl (form hid)
    next hid => cases h; exact .sar (form hid)
    next hid => cases h; exact .rol (form hid)
    next hid => cases h; exact .ror (form hid)
    next hid => cases h; exact .rcl (form hid)
    next hid => cases h; exact .rcr (form hid)
    next => cases h

theorem decodes_of_decodeCompare (hop : f.op = 2#8) (h : decodeCompare strict f = .ok i) : Decodes x strict f i := by
  simp only [decodeCompare, if_error_eq_ok, not_and, ne_eq, not_not] at h
  obtain ⟨hz, hd, h⟩ := h
  cases h
  exact .cmp hop hd hz

theorem decodes_of_decodeArith (hop : f.op = 3#8) (h : decodeArith strict f = .ok i) : Decodes x strict f i := by
  simp only [decodeArith, if_error_eq_ok, not_and, not_or, ne_eq, not_not] at h
  obtain ⟨hz, hd, h⟩ := h
  have form {id : BitVec 4} (hid : (idOf f.imm).toNat = id.toNat) : ArithForm strict f id (decodeArithBits f) :=
    ⟨hop, BitVec.eq_of_toNat_eq hid, hd, rfl, hz⟩
  split at h
  next hid => cases h; exact .inc (form hid)
  next hid => cases h; exact .dec (form hid)
  next hid => cases h; exact .add (form hid)
  next hid => cases h; exact .sub (form hid)
  next hid => cases h; exact .mul (form hid)
  next hid => cases h; exact .mhi (form hid)
  next hid => cases h; exact .irp (form hid)
  next hid => cases h; exact .div (form hid)
  next hid => cases h; exact .rem (form hid)
  next => cases h

theorem decodes_of_decodeBitOps (hop : f.op = 4#8) (h : decodeBitOps strict f = .ok i) : Decodes x strict f i := by
  simp only [decodeBitOps, if_error_eq_ok, not_and, not_or, ne_eq, not_not] at h
  obtain ⟨hz, hd, h⟩ := h
  have form {id : BitVec 4} (hid : (idOf f.imm).toNat = id.toNat) : RegForm strict f 4#8 id :=
    ⟨hop, BitVec.eq_of_toNat_eq hid, hd, hz⟩
  split at h
  next hid => cases h; exact .bsf (form hid)
  next hid => cases h; exact .bsr (form hid)
  next hid => cases h; exact .ham (form hid)
  next hid => cases h; exact .par (form hid)
  next hid => cases h; exact .bex (form hid)
  next hid => cases h; exact .bdp (form hid)
  next => cases h

theorem decodes_of_decodeLea (hop : f.op = 5#8) (h : decodeLea f = .ok i) : Decodes x strict f i := by
  simp only [decodeLea, if_error_eq_ok, ne_eq, not_not] at h
  obtain ⟨hid, hd, h⟩ := h
  cases h
  exact .lea hop hid hd rfl rfl

theorem decodes_of_decodeMemBits (hop : f.op = 6#8) (h : decodeMemBits x strict f = .ok i) :
    Decodes x strict f i := by
  have ho : (if f.imm.getLsbD 7 then some 0#32 else none) = bitDisp f := rfl
  simp only [decodeMemBits, if_error_eq_ok, ho] at h
  obtain ⟨hd, h⟩ := h
  split at h
  next => cases h
  next p hp =>
    have form {id : BitVec 4} (hid : (idOf f.imm).toNat = id.toNat) :
        BitForm x strict f id p (bitDisp f) (topOf f.imm) :=
      ⟨hop, BitVec.eq_of_toNat_eq hid, hd, decodesCount_of_decodeCount hp, rfl, rfl⟩
    split at h
    next hid => cases h; exact .bst (form hid)
    next hid => cases h; exact .bcl (form hid)
    next hid => cases h; exact .bfl (form hid)
    next hid => cases h; exact .bts (form hid)
    next hid => cases h; exact .btc (form hid)
    next hid => cases h; exact .btf (form hid)
    next => cases h

theorem decodes_of_decodeLdh (hop : f.op = 7#8) (h : decodeLdh strict f = .ok i) : Decodes x strict f i := by
  simp only [decodeLdh, if_error_eq_ok, not_and, ne_eq, not_not] at h
  obtain ⟨hs, hd, h⟩ := h
  cases h
  exact .ldh hop hd hs

theorem decodes_of_decodeScaled (hop : f.op = 8#8) (hk : f.imm.extractLsb' 8 3 = 0#3) (h7 : f.imm.getLsbD 7 = true)
    (h : decodeScaled f = .ok i) : Decodes x strict f i := by
  simp only [decodeScaled, if_error_eq_ok, Bool.not_eq_true] at h
  obtain ⟨hss, hb, hd, h⟩ := h
  cases h
  exact .scaled ⟨hop, hk, hss, not_and.1 hb, rfl⟩ hd h7 rfl

theorem decodes_of_decodeUnscaled (hop : f.op = 8#8) (hk : f.imm.extractLsb' 8 3 = 0#3)
    (h7 : f.imm.getLsbD 7 = false) (h : decodeUnscaled strict f = .ok i) : Decodes x strict f i := by
  obtain ⟨hz, h⟩ := if_error_eq_ok.1 h
  replace hz : strict = true → f.imm.getLsbD 15 = false := by simpa using hz
  split at h
  next hss =>
    simp only [if_error_eq_ok, not_or, ne_eq, not_not, Bool.not_eq_true] at h
    obtain ⟨⟨hlow, h13, h14⟩, h⟩ := h
    split at h
    next h12 => cases h; exact .sysToSys ⟨hop, hk, hss, hlow, h13, h14, h12, hz⟩
    next h12 => cases h; exact .sysToReg ⟨hop, hk, hss, hlow, h13, h14, by simpa using h12, hz⟩
  next hss =>
    obtain ⟨hb, h⟩ := if_error_eq_ok.1 h
    have mem : MemForm f (decodeAddr f) := ⟨hop, hk, by simpa using hss, not_and.1 hb, rfl⟩
    split at h
    next h12 => cases h; exact .memToSys ⟨mem, h7, rfl, rfl, h12, hz⟩
    next h12 =>
      replace h12 : f.imm.getLsbD 12 = false := by simpa using h12
      obtain ⟨hd, h⟩ := if_error_eq_ok.1 h
      split at h
      next hc => cases h; exact .lnt ⟨mem, h7, hc.1, hc.2, h12, hz⟩ hd
      next hc => cases h; exact .cached ⟨mem, h7, rfl, rfl, h12, hz⟩ hd hc

theorem decodes_of_decodeImmLoad (hop : f.op = 8#8) (h : decodeImmLoad x strict f = .ok i) : Decodes x strict f i := by
  simp only [decodeImmLoad, if_error_eq_ok, not_and, ne_eq, not_not] at h
  obtain ⟨hs, hd, h⟩ := h
  have form : ImmForm strict f := ⟨hop, hd, hs⟩
  split at h
  next hi => cases h; exact .ldb form hi rfl
  next =>
    split at h
    next hi => cases h; exact .ldi form hi
    next =>
      split at h
      next hi =>
        split at h
        next hx => cases h; exact .ldl form hi hx
        next => cases h
      next => cases h

theorem decodes_of_decodeLoad (hop : f.op = 8#8) (h : decodeLoad x strict f = .ok i) : Decodes x strict f i := by
  unfold decodeLoad at h
  split at h
  next hk =>
    split at h
    next h7 => exact decodes_of_decodeScaled hop hk h7 h
    next h7 => exact decodes_of_decodeUnscaled hop hk (by simpa using h7) h
  next => exact decodes_of_decodeImmLoad hop h

end Soundness

/-- What the decoder answers, it answers by a rule. -/
theorem decodes_of_decodeWord {x : Xlen} {strict : Bool} {w : InstrWord} {i : Instr}
    (h : decodeWord x strict w = .ok i) : Decodes x strict (fieldsOf w) i := by
  have hop {op : Byte} (h : (fieldsOf w).op.toNat = op.toNat) : (fieldsOf w).op = op := BitVec.eq_of_toNat_eq h
  simp only [decodeWord] at h
  split at h
  next h0 => exact decodes_of_decodeLogical (hop h0) h
  next h1 => exact decodes_of_decodeShift (hop h1) h
  next h2 => exact decodes_of_decodeCompare (hop h2) h
  next h3 => exact decodes_of_decodeArith (hop h3) h
  next h4 => exact decodes_of_decodeBitOps (hop h4) h
  next h5 => exact decodes_of_decodeLea (hop h5) h
  next h6 => exact decodes_of_decodeMemBits (hop h6) h
  next h7 => exact decodes_of_decodeLdh (hop h7) h
  next h8 => exact decodes_of_decodeLoad (hop h8) h
  next => cases h

/-! ### The decoder follows every rule

A rule that a word meets under STRICT_RESERVED it also meets without: the checks of R97 items 3 and 4 only fall away. -/

/-- A field of a field. -/
theorem extractLsb'_extractLsb' {n : Nat} (v : BitVec n) (a k b l : Nat) (h : b + l ≤ k) :
    (v.extractLsb' a k).extractLsb' b l = v.extractLsb' (a + b) l := by
  apply BitVec.eq_of_getLsbD_eq
  intro i hi
  simp only [BitVec.getLsbD_extractLsb', hi, show b + i < k by omega, decide_true, Bool.true_and, Nat.add_assoc]

/-- The upper byte of an LDB holds I, B and L (R93). -/
theorem kind_of_ldb {i : Halfword} (h : i.extractLsb' 8 8 = 0x02#8) : i.extractLsb' 8 3 = 2#3 := by
  rw [← extractLsb'_extractLsb' i 8 8 0 3 (by decide), h]
  rfl

theorem SysForm.sh {strict : Bool} {f : Fields} {d : Bool} (h : SysForm strict f d) : f.imm.getLsbD 7 = false := by
  simpa [low8Of] using congrArg (BitVec.getLsbD · 7) h.low

section Completeness

variable {x : Xlen} {strict : Bool} {w : InstrWord}

theorem decodeCount_of_decodesCount {strict' : Bool} {f : Fields} {c : Count} (hle : strict' = true → strict = true)
    (h : DecodesCount x strict f c) : decodeCount x strict' f = .ok c := by
  cases h with
  | reg h6 hs => simp only [decodeCount, h6, hs, Bool.false_eq_true, if_false]
  | imm32 h6 hx h5 =>
    simp only [decodeCount, h6, hx, if_true, if_error_eq_ok, and_true, not_and, Bool.not_eq_true]
    exact fun hs => h5 (hle hs)
  | imm64 h6 hx => simp only [decodeCount, h6, hx, if_true, reduceCtorEq, if_false]

/-! Which family's decoder answers (steps 2 to 8 of R100). -/

theorem decodeWord_of_op0 (h : (fieldsOf w).op = 0#8) : decodeWord x strict w = decodeLogical strict (fieldsOf w) := by
  simp [decodeWord, h]

theorem decodeWord_of_op1 (h : (fieldsOf w).op = 1#8) : decodeWord x strict w = decodeShift x strict (fieldsOf w) := by
  simp [decodeWord, h]

theorem decodeWord_of_op2 (h : (fieldsOf w).op = 2#8) : decodeWord x strict w = decodeCompare strict (fieldsOf w) := by
  simp [decodeWord, h]

theorem decodeWord_of_op3 (h : (fieldsOf w).op = 3#8) : decodeWord x strict w = decodeArith strict (fieldsOf w) := by
  simp [decodeWord, h]

theorem decodeWord_of_op4 (h : (fieldsOf w).op = 4#8) : decodeWord x strict w = decodeBitOps strict (fieldsOf w) := by
  simp [decodeWord, h]

theorem decodeWord_of_op5 (h : (fieldsOf w).op = 5#8) : decodeWord x strict w = decodeLea (fieldsOf w) := by
  simp [decodeWord, h]

theorem decodeWord_of_op6 (h : (fieldsOf w).op = 6#8) :
    decodeWord x strict w = decodeMemBits x strict (fieldsOf w) := by
  simp [decodeWord, h]

theorem decodeWord_of_op7 (h : (fieldsOf w).op = 7#8) : decodeWord x strict w = decodeLdh strict (fieldsOf w) := by
  simp [decodeWord, h]

theorem decodeWord_of_op8 (h : (fieldsOf w).op = 8#8) : decodeWord x strict w = decodeLoad x strict (fieldsOf w) := by
  simp [decodeWord, h]

/-- A memory-form word with SH = 0 is an LDX, an LNT or an LDR, by D, L1 and L2 (47_loads R215). -/
theorem decodeWord_of_unscaledForm {strict' : Bool} {a : AddrOperand} {l1 l2 d : Bool}
    (hle : strict' = true → strict = true) (h : UnscaledForm strict (fieldsOf w) a l1 l2 d) :
    decodeWord x strict' w =
      if d then .ok (.ldx (.memToSys a l1 l2 (fieldsOf w).dst))
      else if (fieldsOf w).dst = 0#4 then .error .dstZero
      else if l1 = false ∧ l2 = false then .ok (.lnt (fieldsOf w).dst a)
      else .ok (.ldr (fieldsOf w).dst a (.cached l1 l2)) := by
  have hz : ¬ (strict' = true ∧ (fieldsOf w).imm.getLsbD 15 = true) := by simpa using h.zero ∘ hle
  have hb : ¬ ((fieldsOf w).imm.getLsbD 4 = true ∧ (fieldsOf w).src = 0#4) := not_and.2 h.base
  rw [decodeWord_of_op8 h.op_eq]
  simp only [decodeLoad, decodeUnscaled, h.kind, h.sh, h.ss, h.l1_eq, h.l2_eq, h.d_eq, h.addr, hz, hb, if_true,
    if_false, Bool.false_eq_true]

/-- The decoder follows every rule, with as many checks or fewer. -/
theorem decodeWord_of_decodes {strict' : Bool} {i : Instr} (hle : strict' = true → strict = true)
    (h : Decodes x strict (fieldsOf w) i) : decodeWord x strict' w = .ok i := by
  cases h with
  | not h hs =>
    rw [decodeWord_of_op0 h.op_eq]
    simpa [decodeLogical, if_error_eq_ok, h.id_eq, h.dst] using ⟨h.zero ∘ hle, hs ∘ hle⟩
  | or h | and h | xor h | nor h | xnor h | nand h =>
    rw [decodeWord_of_op0 h.op_eq]
    simpa [decodeLogical, if_error_eq_ok, h.id_eq, h.dst] using h.zero ∘ hle
  | sll h | srl h | sar h | rol h | ror h | rcl h | rcr h =>
    rw [decodeWord_of_op1 h.op_eq]
    simpa [decodeShift, if_error_eq_ok, h.id_eq, h.dst, decodeCount_of_decodesCount hle h.count] using h.zero ∘ hle
  | cmp hop hd hz =>
    rw [decodeWord_of_op2 hop]
    simpa [decodeCompare, if_error_eq_ok, hd] using hz ∘ hle
  | inc h | dec h | add h | sub h | mul h | mhi h | irp h | div h | rem h =>
    rw [decodeWord_of_op3 h.op_eq]
    simpa [decodeArith, if_error_eq_ok, h.id_eq, h.dst, h.bits] using h.zero ∘ hle
  | bsf h | bsr h | ham h | par h | bex h | bdp h =>
    rw [decodeWord_of_op4 h.op_eq]
    simpa [decodeBitOps, if_error_eq_ok, h.id_eq, h.dst] using h.zero ∘ hle
  | lea hop hid hd ha hk =>
    rw [decodeWord_of_op5 hop]
    simp [decodeLea, hid, hd, ha, ← hk, leaScale]
  | bst h | bcl h | bfl h | bts h | btc h | btf h =>
    rw [decodeWord_of_op6 h.op_eq]
    simp [decodeMemBits, h.id_eq, h.dst, decodeCount_of_decodesCount hle h.count, ← h.disp, h.ret_eq, bitDisp]
  | ldh hop hd hs =>
    rw [decodeWord_of_op7 hop]
    simpa [decodeLdh, if_error_eq_ok, hd] using hs ∘ hle
  | ldb h hi hb =>
    rw [decodeWord_of_op8 h.op_eq]
    simpa [decodeLoad, decodeImmLoad, if_error_eq_ok, kind_of_ldb hi, hi, h.dst, hb] using h.src ∘ hle
  | ldi h hi =>
    rw [decodeWord_of_op8 h.op_eq]
    simpa [decodeLoad, decodeImmLoad, if_error_eq_ok, hi, h.dst] using h.src ∘ hle
  | ldl h hi hx =>
    rw [decodeWord_of_op8 h.op_eq]
    simpa [decodeLoad, decodeImmLoad, if_error_eq_ok, hi, hx, h.dst] using h.src ∘ hle
  | lnt h hd => simp [decodeWord_of_unscaledForm hle h, hd]
  | cached h hd hc => simp [decodeWord_of_unscaledForm hle h, hd, hc]
  | memToSys h => simp [decodeWord_of_unscaledForm hle h]
  | scaled h hd h7 hn =>
    rw [decodeWord_of_op8 h.op_eq]
    simpa [-BitVec.getLsbD_eq_getElem, decodeLoad, decodeScaled, if_error_eq_ok, h.kind, h7, h.ss, hd, h.addr, hn]
      using h.base
  | sysToReg h | sysToSys h =>
    rw [decodeWord_of_op8 h.op_eq]
    simpa [-BitVec.getLsbD_eq_getElem, decodeLoad, decodeUnscaled, if_error_eq_ok, h.kind, h.sh, h.ss, h.low, h.l1,
      h.l2, h.d_eq] using h.zero ∘ hle

/-- Settles O5: the rule a strict decoding goes by is followed without the checks too. -/
theorem relaxedDecoderKeepsStrictDecodings : Obligations.RelaxedDecoderKeepsStrictDecodings :=
  fun _ _ _ h => decodeWord_of_decodes nofun (decodes_of_decodeWord h)

end Completeness

section WellFormedness

variable {x : Xlen} {strict : Bool}

/-! ### The checks of WellFormed -/

theorem checkDst_ok_iff {d : RegNum} : checkDst d = .ok () ↔ d ≠ 0#4 := by
  simp [checkDst]

theorem checkAddr_ok_iff {a : AddrOperand} : checkAddr a = .ok () ↔ a.base ≠ some 0#4 := by
  simp [checkAddr]

theorem checkLoad_ok_iff {d : RegNum} {a : AddrOperand} :
    checkLoad d a = .ok () ↔ d ≠ 0#4 ∧ checkAddr a = .ok () := by
  by_cases hd : d = 0#4 <;> simp [checkLoad, checkDst, hd]

theorem checkCounted_ok_iff {d : RegNum} {c : Count} :
    checkCounted x d c = .ok () ↔ d ≠ 0#4 ∧ checkCount x c = .ok () := by
  by_cases hd : d = 0#4 <;> simp [checkCounted, checkDst, hd]

/-! ### A decoded instruction is well-formed -/

theorem DecodesCount.check {f : Fields} {c : Count} (h : DecodesCount x strict f c) : checkCount x c = .ok () := by
  cases h with
  | reg h6 hs => simp [checkCount, hs]
  | imm32 h6 hx h5 => simp [checkCount]
  | imm64 h6 hx => simp [checkCount, hx]

theorem checkAddr_decodeAddr_ok_iff {f : Fields} :
    checkAddr (decodeAddr f) = .ok () ↔ (f.imm.getLsbD 4 = true → f.src ≠ 0#4) := by
  simp [checkAddr_ok_iff, decodeAddr]

theorem MemForm.check {f : Fields} {a : AddrOperand} (h : MemForm f a) : checkAddr a = .ok () := by
  rw [← h.addr]
  exact checkAddr_decodeAddr_ok_iff.2 h.base

/-- Every rule answers an instruction that WellFormed admits. -/
theorem Decodes.wellFormed {f : Fields} {i : Instr} (h : Decodes x strict f i) : WellFormed x i := by
  cases h with
  | not h _ | or h | and h | xor h | nor h | xnor h | nand h | bsf h | bsr h | ham h | par h | bex h | bdp h =>
    exact checkDst_ok_iff.2 h.dst
  | sll h | srl h | sar h | rol h | ror h | rcl h | rcr h | bst h | bcl h | bfl h | bts h | btc h | btf h =>
    exact checkCounted_ok_iff.2 ⟨h.dst, h.count.check⟩
  | inc h | dec h | add h | sub h | mul h | mhi h | irp h | div h | rem h => exact checkDst_ok_iff.2 h.dst
  | cmp _ hd _ | lea _ _ hd _ _ | ldh _ hd _ => exact checkDst_ok_iff.2 hd
  | ldb h _ _ | ldi h _ => exact checkDst_ok_iff.2 h.dst
  | ldl h _ hx => subst hx; exact checkDst_ok_iff.2 h.dst
  | lnt h hd => exact checkLoad_ok_iff.2 ⟨hd, h.check⟩
  | cached h hd hc => exact (if_neg hc).trans (checkLoad_ok_iff.2 ⟨hd, h.check⟩)
  | scaled h hd _ _ => exact checkLoad_ok_iff.2 ⟨hd, h.check⟩
  | sysToReg _ | sysToSys _ => rfl
  | memToSys h => exact h.check

/-- A decoding takes the instruction word, which answers the instruction up to its extension data, and then those. -/
theorem decodeBytes_ok {e : Endian} {pad : Bool} {bs rest : List Byte} {i : Instr}
    (h : decodeBytes x strict e pad bs = .ok (i, rest)) :
    ∃ w bs' j v, takeWord e bs = some (w, bs') ∧ decodeWord x strict w = .ok j ∧
      takeExt e pad j.extKind bs' = some (v, rest) ∧ i = j.withExt v := by
  unfold decodeBytes at h
  split at h
  next => cases h
  next w bs' hw =>
    split at h
    next => cases h
    next j hj =>
      split at h
      next => cases h
      next v _ hv => cases h; exact ⟨w, bs', j, v, hw, hj, hv, rfl⟩

/-- The extension data taken from the front of a list are what the instruction's length counts beside its word (R88). -/
theorem takeExt_length {e : Endian} {pad : Bool} {i : Instr} {bs rest : List Byte} {v : Longword}
    (h : takeExt e pad i.extKind bs = some (v, rest)) : 4 + bs.length = i.len pad + rest.length := by
  unfold Instr.len
  generalize i.extKind = k at h
  have hlen := takeExt_some h
  cases k with
  | none | word => simp only at hlen ⊢; omega
  | long => cases pad <;> simp at hlen ⊢ <;> omega

/-- Settles O2: the rule of the instruction word gives a well-formed instruction, which its extension data keep; the
word takes four bytes and the extension data those of their kind. -/
theorem decodedInstructionIsWellFormed : Obligations.DecodedInstructionIsWellFormed := by
  intro x strict e pad bs rest i h
  obtain ⟨w, bs', j, v, hw, hj, hv, rfl⟩ := decodeBytes_ok h
  refine ⟨(check_withExt x j v).trans (decodes_of_decodeWord hj).wellFormed, ?_⟩
  rw [takeWord_some hw, takeExt_length hv, Instr.len, Instr.len, extKind_withExt]

end WellFormedness

section Encoder

variable {x : Xlen} {strict : Bool}

/-! ### The fields the encoder writes -/

/-- A bit below the low part's width is a bit of the low part, any other one of the high part. -/
theorem getLsbD_append_of_lt {n k i : Nat} (a : BitVec n) (b : BitVec k) (h : i < k) :
    (a ++ b).getLsbD i = b.getLsbD i := by
  simp [BitVec.getLsbD_append, h]

theorem getLsbD_append_of_le {n k i : Nat} (a : BitVec n) (b : BitVec k) (h : k ≤ i) :
    (a ++ b).getLsbD i = a.getLsbD (i - k) := by
  simp [BitVec.getLsbD_append, Nat.not_lt.2 h]

theorem topOf_immId (id : BitVec 4) : topOf (immId id) = 0#4 := by
  simp (disch := decide) only [topOf, immId, BitVec.extractLsb'_append_eq_of_le, BitVec.extractLsb'_eq_self,
    Nat.reduceSub]

theorem idOf_immId (id : BitVec 4) : idOf (immId id) = id := by
  simp (disch := decide) only [idOf, immId, BitVec.extractLsb'_append_eq_of_le,
    BitVec.extractLsb'_append_eq_of_add_le, BitVec.extractLsb'_eq_self, Nat.reduceSub]

theorem low8Of_immId (id : BitVec 4) : low8Of (immId id) = 0#8 := by
  simp (disch := decide) only [low8Of, immId, BitVec.extractLsb'_append_eq_of_add_le, BitVec.extractLsb'_eq_self]

theorem regForm_encode {d : RegNum} (hd : d ≠ 0#4) (op : Byte) (id : BitVec 4) (s : RegNum) :
    RegForm strict ⟨op, d, s, immId id⟩ op id :=
  ⟨rfl, idOf_immId id, hd, fun _ => ⟨topOf_immId id, low8Of_immId id⟩⟩

theorem arithForm_encode {d : RegNum} (hd : d ≠ 0#4) (id : BitVec 4) (s : RegNum) (mu : ArithBits) :
    ArithForm strict ⟨3#8, d, s, immArith id mu⟩ id mu where
  op_eq := rfl
  id_eq := by
    simp (disch := decide) only [idOf, immArith, BitVec.extractLsb'_append_eq_of_le,
      BitVec.extractLsb'_append_eq_of_add_le, BitVec.extractLsb'_eq_self, Nat.reduceSub]
  dst := hd
  bits := by
    simp (disch := decide) only [decodeArithBits, immArith, getLsbD_append_of_lt, getLsbD_append_of_le, Nat.reduceSub,
      BitVec.getLsbD_ofBool]
    simp
  zero _ := by
    constructor <;>
      simp (disch := decide) only [topOf, immArith, BitVec.extractLsb'_append_eq_of_le,
        BitVec.extractLsb'_append_eq_of_add_le, BitVec.extractLsb'_eq_self, Nat.reduceSub]

/-- The count or position that the encoder writes into `imm16[6:0]` and `src` is the one decoded. -/
theorem decodesCount_encode {c : Count} (hc : checkCount x c = .ok ()) (op : Byte) (d : RegNum) (hi : BitVec 9) :
    DecodesCount x strict ⟨op, d, countSrc c, hi ++ countBits c⟩ c := by
  cases c with
  | reg s =>
    have hs : s ≠ 0#4 := by rintro rfl; cases hc
    have h6 : (hi ++ 0#7).getLsbD 6 = false := by
      simp (disch := decide) only [getLsbD_append_of_lt, BitVec.getLsbD_zero]
    exact .reg (f := ⟨op, d, s, hi ++ 0#7⟩) h6 hs
  | imm n =>
    have h6 : (hi ++ (1#1 ++ n)).getLsbD 6 = true := by
      simp (disch := decide) only [getLsbD_append_of_lt, getLsbD_append_of_le, Nat.reduceSub, BitVec.getLsbD_one]
      rfl
    have h5 : (hi ++ (1#1 ++ n)).getLsbD 5 = n.getLsbD 5 := by
      simp (disch := decide) only [getLsbD_append_of_lt]
    have hn : low6Of (hi ++ (1#1 ++ n)) = n := by
      simp (disch := decide) only [low6Of, BitVec.extractLsb'_append_eq_of_add_le, BitVec.extractLsb'_eq_self]
    cases x with
    | x64 =>
      have h := DecodesCount.imm64 (strict := strict) (f := ⟨op, d, 0#4, hi ++ (1#1 ++ n)⟩) h6 rfl
      rwa [hn] at h
    | x32 =>
      have hn5 : n.getLsbD 5 = false := by simpa [checkCount] using hc
      have h := DecodesCount.imm32 (strict := strict) (f := ⟨op, d, 0#4, hi ++ (1#1 ++ n)⟩) h6 rfl
        (fun _ => h5.trans hn5)
      have hmask : ∀ v : BitVec 6, v.getLsbD 5 = false → v &&& 0x1f#6 = v := by decide
      rwa [hn, hmask n hn5] at h

theorem shiftForm_encode {d : RegNum} {c : Count} (h : checkCounted x d c = .ok ()) (id : BitVec 4) :
    ShiftForm x strict ⟨1#8, d, countSrc c, 0#4 ++ id ++ 0#1 ++ countBits c⟩ id c where
  op_eq := rfl
  id_eq := by
    simp (disch := decide) only [idOf, BitVec.extractLsb'_append_eq_of_le, BitVec.extractLsb'_append_eq_of_add_le,
      BitVec.extractLsb'_eq_self, Nat.reduceSub]
  dst := (checkCounted_ok_iff.1 h).1
  count := decodesCount_encode (checkCounted_ok_iff.1 h).2 1#8 d (0#4 ++ id ++ 0#1)
  zero _ := by
    constructor
    · simp (disch := decide) only [topOf, BitVec.extractLsb'_append_eq_of_le, BitVec.extractLsb'_eq_self,
        Nat.reduceSub]
    · simp (disch := decide) only [getLsbD_append_of_lt, getLsbD_append_of_le, Nat.reduceSub, BitVec.getLsbD_zero]

theorem fillDisp_zero (o : Option (BitVec 32)) : fillDisp o 0#64 = if o.isSome then some 0#32 else none := by
  cases o <;> rfl

theorem bitForm_encode {d : RegNum} {p : Count} (h : checkCounted x d p = .ok ()) (id : BitVec 4)
    (o : Option (BitVec 32)) (ret : RegNum) :
    BitForm x strict ⟨6#8, d, countSrc p, ret ++ id ++ BitVec.ofBool o.isSome ++ countBits p⟩ id p (fillDisp o 0#64)
      ret where
  op_eq := rfl
  id_eq := by
    simp (disch := decide) only [idOf, BitVec.extractLsb'_append_eq_of_le, BitVec.extractLsb'_append_eq_of_add_le,
      BitVec.extractLsb'_eq_self, Nat.reduceSub]
  dst := (checkCounted_ok_iff.1 h).1
  count := decodesCount_encode (checkCounted_ok_iff.1 h).2 6#8 d (ret ++ id ++ BitVec.ofBool o.isSome)
  disp := by
    simp (disch := decide) only [bitDisp, fillDisp_zero, getLsbD_append_of_lt, getLsbD_append_of_le, Nat.reduceSub,
      BitVec.getLsbD_ofBool]
    simp
  ret_eq := by
    simp (disch := decide) only [topOf, BitVec.extractLsb'_append_eq_of_le, BitVec.extractLsb'_eq_self, Nat.reduceSub]

/-- The address that the encoder writes into the low byte of `imm16` and into `src` is the one decoded (R94). -/
theorem decodeAddr_encode (op : Byte) (d : RegNum) (hi : Byte) (s : Bool) (a : AddrOperand) :
    decodeAddr ⟨op, d, a.base.getD 0#4, hi ++ addrBits s a⟩ = { a with disp := fillDisp a.disp 0#64 } := by
  have hsome : ∀ o : Option RegNum, (if o.isSome then some (o.getD 0#4) else none) = o := by
    intro o; cases o <;> rfl
  simp (disch := decide) only [decodeAddr, addrBits, fillDisp_zero, getLsbD_append_of_lt, getLsbD_append_of_le,
    Nat.reduceSub, BitVec.getLsbD_ofBool, BitVec.extractLsb'_append_eq_of_add_le,
    BitVec.extractLsb'_eq_self, decide_true, Bool.true_and, hsome]

theorem leaId_encode (n : BitVec 4) (s : Bool) (a : AddrOperand) : idOf (n ++ 0#4 ++ addrBits s a) = 0#4 := by
  simp (disch := decide) only [idOf, BitVec.extractLsb'_append_eq_of_le, BitVec.extractLsb'_append_eq_of_add_le,
    BitVec.extractLsb'_eq_self, Nat.reduceSub]

theorem leaScale_encode (d src : RegNum) (k : Option (BitVec 4)) (a : AddrOperand) :
    leaScale ⟨5#8, d, src, k.getD 0#4 ++ 0#4 ++ addrBits k.isSome a⟩ = k := by
  have h7 : (k.getD 0#4 ++ 0#4 ++ addrBits k.isSome a).getLsbD 7 = k.isSome := by
    simp (disch := decide) only [addrBits, getLsbD_append_of_lt, getLsbD_append_of_le, Nat.reduceSub,
      BitVec.getLsbD_ofBool, decide_true, Bool.true_and]
  have htop : topOf (k.getD 0#4 ++ 0#4 ++ addrBits k.isSome a) = k.getD 0#4 := by
    simp (disch := decide) only [topOf, BitVec.extractLsb'_append_eq_of_le, BitVec.extractLsb'_eq_self, Nat.reduceSub]
  simp only [leaScale, h7, htop]
  cases k <;> rfl

/-- The fields of a memory-form word of op 8 as the encoder lays it out (R93). -/
def loadFields (top : BitVec 4) (sh : Bool) (d : RegNum) (a : AddrOperand) : Fields :=
  ⟨8#8, d, a.base.getD 0#4, top ++ BitVec.ofBool false ++ 0#3 ++ addrBits sh a⟩

theorem loadFields_sh (top : BitVec 4) (sh : Bool) (d : RegNum) (a : AddrOperand) :
    (loadFields top sh d a).imm.getLsbD 7 = sh := by
  simp (disch := decide) only [loadFields, addrBits, getLsbD_append_of_lt, getLsbD_append_of_le, Nat.reduceSub,
    BitVec.getLsbD_ofBool, decide_true, Bool.true_and]

theorem loadFields_ss (top : BitVec 4) (sh : Bool) (d : RegNum) (a : AddrOperand) :
    (loadFields top sh d a).imm.getLsbD 11 = false := by
  simp (disch := decide) only [loadFields, getLsbD_append_of_lt, getLsbD_append_of_le, Nat.reduceSub,
    BitVec.getLsbD_ofBool, Bool.and_false]

theorem loadFields_topOf (top : BitVec 4) (sh : Bool) (d : RegNum) (a : AddrOperand) :
    topOf (loadFields top sh d a).imm = top := by
  simp (disch := decide) only [loadFields, topOf, BitVec.extractLsb'_append_eq_of_le, BitVec.extractLsb'_eq_self,
    Nat.reduceSub]

/-- Bits 15 to 12 of `imm16` are those of its top nibble. -/
theorem getLsbD_topOf (i : Halfword) (k : Nat) (hk : k < 4) : i.getLsbD (12 + k) = (topOf i).getLsbD k := by
  simp [topOf, hk]

theorem memForm_encode {a : AddrOperand} (ha : checkAddr a = .ok ()) (top : BitVec 4) (sh : Bool) (d : RegNum) :
    MemForm (loadFields top sh d a) { a with disp := fillDisp a.disp 0#64 } where
  op_eq := rfl
  kind := by
    simp (disch := decide) only [loadFields, BitVec.extractLsb'_append_eq_of_le,
      BitVec.extractLsb'_append_eq_of_add_le, BitVec.extractLsb'_eq_self, Nat.reduceSub]
  ss := loadFields_ss ..
  base := by
    rw [← checkAddr_decodeAddr_ok_iff, loadFields, decodeAddr_encode]
    exact ha
  addr := decodeAddr_encode ..

theorem getLsbD_cacheBits : ∀ l2 l1 d : Bool, (cacheBits l2 l1 d).getLsbD 0 = d ∧ (cacheBits l2 l1 d).getLsbD 1 = l1 ∧
    (cacheBits l2 l1 d).getLsbD 2 = l2 ∧ (cacheBits l2 l1 d).getLsbD 3 = false := by
  decide

theorem unscaledForm_encode {a : AddrOperand} (ha : checkAddr a = .ok ()) (l1 l2 b : Bool) (d : RegNum) :
    UnscaledForm strict (loadFields (cacheBits l2 l1 b) false d a) { a with disp := fillDisp a.disp 0#64 } l1 l2 b := by
  have top (k : Nat) (hk : k < 4) : (loadFields (cacheBits l2 l1 b) false d a).imm.getLsbD (12 + k) =
      (cacheBits l2 l1 b).getLsbD k := by
    rw [getLsbD_topOf _ k hk, loadFields_topOf]
  obtain ⟨h0, h1, h2, h3⟩ := getLsbD_cacheBits l2 l1 b
  exact ⟨memForm_encode ha .., loadFields_sh .., (top 1 (by decide)).trans h1, (top 2 (by decide)).trans h2,
    (top 0 (by decide)).trans h0, fun _ => (top 3 (by decide)).trans h3⟩

theorem sysForm_encode (s d : RegNum) :
    SysForm strict ⟨8#8, d, s, 0x0800#16⟩ false ∧ SysForm strict ⟨8#8, d, s, 0x1800#16⟩ true := by
  constructor <;> constructor <;> simp [low8Of]

/-! ### The encoder's word decodes -/

/-- The word of a well-formed instruction meets the rule of that instruction, its extension data still at 0. -/
theorem decodes_encodeWord {i : Instr} (h : WellFormed x i) :
    Decodes x strict (fieldsOf (encodeWord i)) (i.withExt 0#64) := by
  have word {f : Fields} {j : Instr} (hj : Decodes x strict f j) : Decodes x strict (fieldsOf (wordOf f)) j := by
    rwa [fieldsOf_wordOf]
  have dst {d : RegNum} (hd : checkDst d = .ok ()) : d ≠ 0#4 := checkDst_ok_iff.1 hd
  have imm {d : RegNum} (hd : d ≠ 0#4) (v : Halfword) : ImmForm strict ⟨8#8, d, 0#4, v⟩ := ⟨rfl, hd, fun _ => rfl⟩
  cases i with
  | not d => exact word (.not (regForm_encode (dst h) ..) fun _ => rfl)
  | or d s => exact word (.or (regForm_encode (dst h) ..))
  | and d s => exact word (.and (regForm_encode (dst h) ..))
  | xor d s => exact word (.xor (regForm_encode (dst h) ..))
  | nor d s => exact word (.nor (regForm_encode (dst h) ..))
  | xnor d s => exact word (.xnor (regForm_encode (dst h) ..))
  | nand d s => exact word (.nand (regForm_encode (dst h) ..))
  | sll d c => exact word (.sll (shiftForm_encode h _))
  | srl d c => exact word (.srl (shiftForm_encode h _))
  | sar d c => exact word (.sar (shiftForm_encode h _))
  | rol d c => exact word (.rol (shiftForm_encode h _))
  | ror d c => exact word (.ror (shiftForm_encode h _))
  | rcl d c => exact word (.rcl (shiftForm_encode h _))
  | rcr d c => exact word (.rcr (shiftForm_encode h _))
  | cmp d s => exact word (.cmp rfl (dst h) fun _ => rfl)
  | inc d s mu => exact word (.inc (arithForm_encode (dst h) ..))
  | dec d s mu => exact word (.dec (arithForm_encode (dst h) ..))
  | add d s mu => exact word (.add (arithForm_encode (dst h) ..))
  | sub d s mu => exact word (.sub (arithForm_encode (dst h) ..))
  | mul d s mu => exact word (.mul (arithForm_encode (dst h) ..))
  | mhi d s mu => exact word (.mhi (arithForm_encode (dst h) ..))
  | irp d s mu => exact word (.irp (arithForm_encode (dst h) ..))
  | div d s mu => exact word (.div (arithForm_encode (dst h) ..))
  | rem d s mu => exact word (.rem (arithForm_encode (dst h) ..))
  | bsf d s => exact word (.bsf (regForm_encode (dst h) ..))
  | bsr d s => exact word (.bsr (regForm_encode (dst h) ..))
  | ham d s => exact word (.ham (regForm_encode (dst h) ..))
  | par d s => exact word (.par (regForm_encode (dst h) ..))
  | bex d s => exact word (.bex (regForm_encode (dst h) ..))
  | bdp d s => exact word (.bdp (regForm_encode (dst h) ..))
  | lea d a k => exact word (.lea rfl (leaId_encode ..) (dst h) (decodeAddr_encode ..) (leaScale_encode ..))
  | bst d p o r => exact word (.bst (bitForm_encode h ..))
  | bcl d p o r => exact word (.bcl (bitForm_encode h ..))
  | bfl d p o r => exact word (.bfl (bitForm_encode h ..))
  | bts d p o r => exact word (.bts (bitForm_encode h ..))
  | btc d p o r => exact word (.btc (bitForm_encode h ..))
  | btf d p o r => exact word (.btf (bitForm_encode h ..))
  | ldh d v => exact word (.ldh rfl (dst h) fun _ => rfl)
  | ldb d b =>
    exact word (.ldb (imm (dst h) _) (BitVec.extractLsb'_append_eq_left) (BitVec.extractLsb'_append_eq_right))
  | ldi d v => exact word (.ldi (imm (dst h) _) rfl)
  | ldl d v =>
    obtain ⟨hx, hd⟩ := if_error_eq_ok.1 h
    exact word (.ldl (imm (dst hd) _) rfl (by cases x <;> simp at hx ⊢))
  | lnt d a =>
    obtain ⟨hd, ha⟩ := checkLoad_ok_iff.1 h
    exact word (.lnt (unscaledForm_encode ha false false false d) hd)
  | ldr d a mode =>
    cases mode with
    | cached l1 l2 =>
      obtain ⟨hc, h⟩ := if_error_eq_ok.1 h
      obtain ⟨hd, ha⟩ := checkLoad_ok_iff.1 h
      exact word (.cached (unscaledForm_encode ha l1 l2 false d) hd hc)
    | scaled n =>
      obtain ⟨hd, ha⟩ := checkLoad_ok_iff.1 h
      exact word (.scaled (memForm_encode ha n true d) hd (loadFields_sh ..) (loadFields_topOf ..))
  | ldx form =>
    cases form with
    | sysToReg s d => exact word (.sysToReg (sysForm_encode s d).1)
    | sysToSys s d => exact word (.sysToSys (sysForm_encode s d).2)
    | memToSys a l1 l2 d => exact word (.memToSys (unscaledForm_encode h l1 l2 true d))

end Encoder

/-! ### The bytes of an instruction -/

theorem fillDisp_fillDisp (o : Option (BitVec 32)) (u v : Longword) : fillDisp (fillDisp o u) v = fillDisp o v := by
  cases o <;> rfl

/-- Extension data that are filled in replace those that were there. -/
theorem withExt_withExt (i : Instr) (u v : Longword) : (i.withExt u).withExt v = i.withExt v := by
  cases i with
  | ldx form => cases form <;> simp [Instr.withExt, fillDisp_fillDisp]
  | _ => simp [Instr.withExt, fillDisp_fillDisp]

/-- An instruction carries an optional `imm32`, or a longword (R85, R86). -/
theorem extension_cases (i : Instr) :
    (∃ o : Option (BitVec 32), i.extKind = (if o.isSome then .word else .none) ∧
      i.extValue = (o.getD 0#32).setWidth 64) ∨ i.extKind = .long := by
  cases i with
  | lea _ a _ | lnt _ a | ldr _ a _ => exact .inl ⟨a.disp, rfl, rfl⟩
  | bst _ _ o _ | bcl _ _ o _ | bfl _ _ o _ | bts _ _ o _ | btc _ _ o _ | btf _ _ o _ => exact .inl ⟨o, rfl, rfl⟩
  | ldi _ v => exact .inl ⟨some v, rfl, rfl⟩
  | ldl _ _ => exact .inr rfl
  | ldx form =>
    cases form with
    | memToSys a _ _ _ => exact .inl ⟨a.disp, rfl, rfl⟩
    | sysToReg _ _ | sysToSys _ _ => exact .inl ⟨none, rfl, rfl⟩
  | _ => exact .inl ⟨none, rfl, rfl⟩

/-- The longword of LDL from its two words, low word first (R86). -/
theorem takeLong_bytesOfWord (e : Endian) (v : Longword) (rest : List Byte) :
    takeLong e (bytesOfWord e (v.extractLsb' 0 32) ++ (bytesOfWord e (v.extractLsb' 32 32) ++ rest)) =
      some (v, rest) := by
  have hv : v.extractLsb' 32 32 ++ v.extractLsb' 0 32 = v := BitVec.extractLsb'_append_extractLsb'
  simp [takeLong, hv]

/-- The encoder's bytes are those of the instruction word and, after it, extension data that are read back. -/
theorem encodeBytes_eq (e : Endian) (pad : Bool) (i : Instr) :
    ∃ ext, encodeBytes e pad i = bytesOfWord e (encodeWord i) ++ ext ∧
      ∀ rest, takeExt e pad i.extKind (ext ++ rest) = some (i.extValue, rest) := by
  rcases extension_cases i with ⟨_ | v, hk, hv⟩ | hk
  · exact ⟨[], by simp [encodeBytes, encode, hk], fun rest => by simp [hk, hv, takeExt]⟩
  · exact ⟨bytesOfWord e v, by simp [encodeBytes, encode, hk, hv], fun rest => by simp [hk, hv, takeExt]⟩
  · cases pad <;>
      exact ⟨_, by simp only [encodeBytes, encode, hk]; rfl, fun rest => by simp [hk, takeExt, takeLong_bytesOfWord]⟩

/-- Settles O1: the word decodes to the instruction with its extension data at 0, and those that follow replace them. -/
theorem encodedInstructionDecodesToItself : Obligations.EncodedInstructionDecodesToItself := by
  intro x strict e pad i rest h
  obtain ⟨ext, hbytes, hext⟩ := encodeBytes_eq e pad i
  have hword : decodeWord x strict (encodeWord i) = .ok (i.withExt 0#64) :=
    decodeWord_of_decodes id (decodes_encodeWord h)
  simp [decodeBytes, hbytes, hword, extKind_withExt, hext, withExt_withExt, withExt_extValue]

/-! ### The rows of the opcode map

What a row's mask and match say of the fields of a word, and that with STRICT_RESERVED they say just what the rules do
(R101). -/

section OpcodeRows

variable {x : Xlen} {w : InstrWord}

/-- A mask on `imm16` works on its top nibble, its ID and its low byte apart. -/
theorem imm_and_eq_iff (i : Halfword) (mt mi vt vi : BitVec 4) (ml vl : Byte) :
    i &&& (mt ++ mi ++ ml) = vt ++ vi ++ vl ↔ topOf i &&& mt = vt ∧ idOf i &&& mi = vi ∧ low8Of i &&& ml = vl := by
  have hparts : i &&& (mt ++ mi ++ ml) = (topOf i &&& mt) ++ (idOf i &&& mi) ++ (low8Of i &&& ml) := by
    conv_lhs => rw [imm_eq_parts i]
    rw [append_and, append_and]
  rw [hparts]
  constructor
  · intro h
    obtain ⟨h, hl⟩ := append_inj h
    obtain ⟨ht, hi⟩ := append_inj h
    exact ⟨ht, hi, hl⟩
  · rintro ⟨rfl, rfl, rfl⟩
    rfl

/-- `imm16` is fixed by its top nibble, its ID and its low byte. -/
theorem imm_eq_iff (i v : Halfword) : i = v ↔ topOf i = topOf v ∧ idOf i = idOf v ∧ low8Of i = low8Of v := by
  constructor
  · rintro rfl
    exact ⟨rfl, rfl, rfl⟩
  · rintro ⟨ht, hi, hl⟩
    rw [imm_eq_parts i, ht, hi, hl, ← imm_eq_parts v]

/-- A row of the opcode map read field by field, its mask and match given by their parts. -/
theorem selects_iff {mask value : InstrWord} {cond : RowCond} (mt mi : BitVec 4) (ml : Byte) (ms vt vi : BitVec 4)
    (vl : Byte) (vs : BitVec 4) (op : Byte) (hm : mask = (mt ++ mi ++ ml : Halfword) ++ ms ++ 0#4 ++ 0xFF#8)
    (hv : value = (vt ++ vi ++ vl : Halfword) ++ vs ++ 0#4 ++ op) :
    OpcodeRow.selects x w ⟨mask, value, cond⟩ = true ↔
      (topOf (fieldsOf w).imm &&& mt = vt ∧ idOf (fieldsOf w).imm &&& mi = vi ∧ low8Of (fieldsOf w).imm &&& ml = vl) ∧
      (fieldsOf w).src &&& ms = vs ∧ (fieldsOf w).op = op ∧ cond.holds x (fieldsOf w) = true := by
  have h := and_row_eq_iff w (mt ++ mi ++ ml) (vt ++ vi ++ vl) ms vs op
  rw [imm_and_eq_iff, ← hm, ← hv] at h
  rw [OpcodeRow.selects, Bool.and_eq_true, beq_iff_eq, h]
  simp only [and_assoc]

theorem and_nibble (v : BitVec 4) : v &&& 0xF#4 = v := BitVec.and_allOnes

theorem and_byte (v : Byte) : v &&& 0xFF#8 = v := BitVec.and_allOnes

/-! #### Bits of `imm16` by its parts -/

theorem getLsbD_seven_iff (i : Halfword) (b : Bool) :
    i.getLsbD 7 = b ↔ low8Of i &&& 0x80#8 = if b then 0x80#8 else 0#8 := by
  have h : i.getLsbD 7 = (low8Of i).getLsbD 7 := by simp [low8Of]
  rw [h]
  generalize low8Of i = v
  revert v b
  decide

theorem arithZero_iff (i : Halfword) : i.extractLsb' 2 6 = 0#6 ↔ low8Of i &&& 0xFC#8 = 0#8 := by
  have h : i.extractLsb' 2 6 = (low8Of i).extractLsb' 2 6 := (extractLsb'_extractLsb' i 0 8 2 6 (by decide)).symm
  rw [h]
  generalize low8Of i = v
  revert v
  decide

/-- I, B and L are 0 and SS is `b` (R93). -/
theorem idOf_load_iff (i : Halfword) (b : Bool) :
    i.extractLsb' 8 3 = 0#3 ∧ i.getLsbD 11 = b ↔ idOf i = if b then 8#4 else 0#4 := by
  have h : i.extractLsb' 8 3 = (idOf i).extractLsb' 0 3 := (extractLsb'_extractLsb' i 8 4 0 3 (by decide)).symm
  have h11 : i.getLsbD 11 = (idOf i).getLsbD 3 := by simp [idOf]
  rw [h, h11]
  generalize idOf i = v
  revert v b
  decide

theorem topOf_eq_cacheBits_iff (i : Halfword) (l2 l1 d : Bool) : topOf i = cacheBits l2 l1 d ↔
    i.getLsbD 13 = l1 ∧ i.getLsbD 14 = l2 ∧ i.getLsbD 12 = d ∧ i.getLsbD 15 = false := by
  have h12 : i.getLsbD 12 = (topOf i).getLsbD 0 := getLsbD_topOf i 0 (by decide)
  have h13 : i.getLsbD 13 = (topOf i).getLsbD 1 := getLsbD_topOf i 1 (by decide)
  have h14 : i.getLsbD 14 = (topOf i).getLsbD 2 := getLsbD_topOf i 2 (by decide)
  have h15 : i.getLsbD 15 = (topOf i).getLsbD 3 := getLsbD_topOf i 3 (by decide)
  rw [h12, h13, h14, h15]
  generalize topOf i = v
  revert v l2 l1 d
  decide

theorem extractLsb'_high_iff (i : Halfword) : i.extractLsb' 8 8 = 0x02#8 ↔ topOf i = 0#4 ∧ idOf i = 2#4 := by
  have ht : topOf i = (i.extractLsb' 8 8).extractLsb' 4 4 := (extractLsb'_extractLsb' i 8 8 4 4 (by decide)).symm
  have hi : idOf i = (i.extractLsb' 8 8).extractLsb' 0 4 := (extractLsb'_extractLsb' i 8 8 0 4 (by decide)).symm
  rw [ht, hi]
  generalize i.extractLsb' 8 8 = v
  revert v
  decide

/-! #### The forms by their rows -/

theorem selects_reg {op : Byte} {id : BitVec 4} {value : InstrWord}
    (hv : value = (0#4 ++ id ++ 0#8 : Halfword) ++ 0#4 ++ 0#4 ++ op) :
    OpcodeRow.selects x w ⟨0xFFFF00FF#32, value, .dst⟩ = true ↔ RegForm true (fieldsOf w) op id := by
  refine Iff.trans (selects_iff 0xF#4 0xF#4 0xFF#8 0#4 0#4 id 0#8 0#4 op rfl hv) ?_
  simp only [and_nibble, and_byte, BitVec.and_zero, RowCond.holds, bne_iff_ne, true_and]
  constructor
  · rintro ⟨⟨ht, hi, hl⟩, hop, hd⟩
    exact ⟨hop, hi, hd, fun _ => ⟨ht, hl⟩⟩
  · rintro ⟨hop, hi, hd, hz⟩
    exact ⟨⟨(hz rfl).1, hi, (hz rfl).2⟩, hop, hd⟩

theorem selects_not :
    OpcodeRow.selects x w ⟨0xFFFFF0FF#32, 0#32, .dst⟩ = true ↔
      RegForm true (fieldsOf w) 0#8 0#4 ∧ (fieldsOf w).src = 0#4 := by
  refine Iff.trans (selects_iff 0xF#4 0xF#4 0xFF#8 0xF#4 0#4 0#4 0#8 0#4 0#8 rfl rfl) ?_
  simp only [and_nibble, and_byte, RowCond.holds, bne_iff_ne]
  constructor
  · rintro ⟨⟨ht, hi, hl⟩, hs, hop, hd⟩
    exact ⟨⟨hop, hi, hd, fun _ => ⟨ht, hl⟩⟩, hs⟩
  · rintro ⟨⟨hop, hi, hd, hz⟩, hs⟩
    exact ⟨⟨(hz rfl).1, hi, (hz rfl).2⟩, hs, hop, hd⟩

/-- The count condition of a row is that a count is decoded. -/
theorem counted_holds_iff {f : Fields} :
    RowCond.counted.holds x f = true ↔ f.dst ≠ 0#4 ∧ ∃ c, DecodesCount x true f c := by
  simp only [RowCond.holds, Bool.and_eq_true, bne_iff_ne]
  refine and_congr_right fun _ => ?_
  cases h6 : f.imm.getLsbD 6 with
  | false =>
    simp only [Bool.false_eq_true, if_false, bne_iff_ne]
    constructor
    · exact fun hs => ⟨_, .reg h6 hs⟩
    · rintro ⟨c, h⟩
      cases h with
      | reg _ hs => exact hs
      | imm32 h _ _ | imm64 h _ => rw [h6] at h; cases h
  | true =>
    simp only [if_true, Bool.or_eq_true, beq_iff_eq, Bool.not_eq_true']
    constructor
    · rintro (hx | h5)
      · exact ⟨_, .imm64 h6 hx⟩
      · cases x with
        | x32 => exact ⟨_, .imm32 h6 rfl fun _ => h5⟩
        | x64 => exact ⟨_, .imm64 h6 rfl⟩
    · rintro ⟨c, h⟩
      cases h with
      | reg h _ => rw [h6] at h; cases h
      | imm32 _ _ h5 => exact .inr (h5 rfl)
      | imm64 _ hx => exact .inl hx

theorem selects_shift {id : BitVec 4} {value : InstrWord}
    (hv : value = (0#4 ++ id ++ 0#8 : Halfword) ++ 0#4 ++ 0#4 ++ 1#8) :
    OpcodeRow.selects x w ⟨0xFF8000FF#32, value, .counted⟩ = true ↔ ∃ c, ShiftForm x true (fieldsOf w) id c := by
  refine Iff.trans (selects_iff 0xF#4 0xF#4 0x80#8 0#4 0#4 id 0#8 0#4 1#8 rfl hv) ?_
  rw [counted_holds_iff]
  have h7 := getLsbD_seven_iff (fieldsOf w).imm false
  simp only [and_nibble, BitVec.and_zero, true_and]
  constructor
  · rintro ⟨⟨ht, hi, hl⟩, hop, hd, c, hc⟩
    exact ⟨c, hop, hi, hd, hc, fun _ => ⟨ht, h7.2 hl⟩⟩
  · rintro ⟨c, hop, hi, hd, hc, hz⟩
    exact ⟨⟨(hz rfl).1, hi, h7.1 (hz rfl).2⟩, hop, hd, c, hc⟩

theorem selects_cmp : OpcodeRow.selects x w ⟨0xFFFF00FF#32, 2#32, .dst⟩ = true ↔
    (fieldsOf w).op = 2#8 ∧ (fieldsOf w).dst ≠ 0#4 ∧ (fieldsOf w).imm = 0#16 := by
  refine Iff.trans (selects_reg (op := 2#8) (id := 0#4) rfl) ?_
  rw [imm_eq_iff (fieldsOf w).imm 0#16]
  constructor
  · rintro ⟨hop, hi, hd, hz⟩
    exact ⟨hop, hd, (hz rfl).1, hi, (hz rfl).2⟩
  · rintro ⟨hop, hd, ht, hi, hl⟩
    exact ⟨hop, hi, hd, fun _ => ⟨ht, hl⟩⟩

theorem selects_arith {id : BitVec 4} {value : InstrWord}
    (hv : value = (0#4 ++ id ++ 0#8 : Halfword) ++ 0#4 ++ 0#4 ++ 3#8) :
    OpcodeRow.selects x w ⟨0xFFFC00FF#32, value, .dst⟩ = true ↔ ∃ mu, ArithForm true (fieldsOf w) id mu := by
  refine Iff.trans (selects_iff 0xF#4 0xF#4 0xFC#8 0#4 0#4 id 0#8 0#4 3#8 rfl hv) ?_
  rw [← arithZero_iff]
  simp only [and_nibble, BitVec.and_zero, RowCond.holds, bne_iff_ne, true_and]
  constructor
  · rintro ⟨⟨ht, hi, hl⟩, hop, hd⟩
    exact ⟨_, hop, hi, hd, rfl, fun _ => ⟨ht, hl⟩⟩
  · rintro ⟨mu, hop, hi, hd, -, hz⟩
    exact ⟨⟨(hz rfl).1, hi, (hz rfl).2⟩, hop, hd⟩

theorem selects_lea : OpcodeRow.selects x w ⟨0x0F0000FF#32, 5#32, .dst⟩ = true ↔
    (fieldsOf w).op = 5#8 ∧ idOf (fieldsOf w).imm = 0#4 ∧ (fieldsOf w).dst ≠ 0#4 := by
  refine Iff.trans (selects_iff 0#4 0xF#4 0#8 0#4 0#4 0#4 0#8 0#4 5#8 rfl rfl) ?_
  simp only [and_nibble, BitVec.and_zero, RowCond.holds, bne_iff_ne, true_and, and_true]
  exact and_left_comm

theorem selects_bit {id : BitVec 4} {value : InstrWord}
    (hv : value = (0#4 ++ id ++ 0#8 : Halfword) ++ 0#4 ++ 0#4 ++ 6#8) :
    OpcodeRow.selects x w ⟨0x0F0000FF#32, value, .counted⟩ = true ↔
      ∃ p o ret, BitForm x true (fieldsOf w) id p o ret := by
  refine Iff.trans (selects_iff 0#4 0xF#4 0#8 0#4 0#4 id 0#8 0#4 6#8 rfl hv) ?_
  rw [counted_holds_iff]
  simp only [and_nibble, BitVec.and_zero, true_and, and_true]
  constructor
  · rintro ⟨hi, hop, hd, p, hp⟩
    exact ⟨p, _, _, hop, hi, hd, hp, rfl, rfl⟩
  · rintro ⟨p, o, ret, hop, hi, hd, hp, -, -⟩
    exact ⟨hi, hop, hd, p, hp⟩

theorem selects_ldh : OpcodeRow.selects x w ⟨0x0000F0FF#32, 7#32, .dst⟩ = true ↔
    (fieldsOf w).op = 7#8 ∧ (fieldsOf w).dst ≠ 0#4 ∧ (fieldsOf w).src = 0#4 := by
  refine Iff.trans (selects_iff 0#4 0#4 0#8 0xF#4 0#4 0#4 0#8 0#4 7#8 rfl rfl) ?_
  simp only [and_nibble, BitVec.and_zero, RowCond.holds, bne_iff_ne, true_and, and_true]
  constructor
  · rintro ⟨hs, hop, hd⟩
    exact ⟨hop, hd, hs⟩
  · rintro ⟨hop, hd, hs⟩
    exact ⟨hs, hop, hd⟩

theorem selects_ldb : OpcodeRow.selects x w ⟨0xFF00F0FF#32, 0x02000008#32, .dst⟩ = true ↔
    ImmForm true (fieldsOf w) ∧ (fieldsOf w).imm.extractLsb' 8 8 = 0x02#8 := by
  refine Iff.trans (selects_iff 0xF#4 0xF#4 0#8 0xF#4 0#4 2#4 0#8 0#4 8#8 rfl rfl) ?_
  rw [extractLsb'_high_iff]
  simp only [and_nibble, BitVec.and_zero, RowCond.holds, bne_iff_ne, and_true]
  constructor
  · rintro ⟨hi, hs, hop, hd⟩
    exact ⟨⟨hop, hd, fun _ => hs⟩, hi⟩
  · rintro ⟨⟨hop, hd, hs⟩, hi⟩
    exact ⟨hi, hs rfl, hop, hd⟩

/-- The rows of LDI and LDL fix all of `imm16`. -/
theorem selects_imm {id : BitVec 4} {value : InstrWord} {cond : RowCond}
    (hv : value = (0#4 ++ id ++ 0#8 : Halfword) ++ 0#4 ++ 0#4 ++ 8#8) (hc : cond.holds x (fieldsOf w) = true →
    (fieldsOf w).dst ≠ 0#4) : OpcodeRow.selects x w ⟨0xFFFFF0FF#32, value, cond⟩ = true ↔
      ImmForm true (fieldsOf w) ∧ (fieldsOf w).imm = immId id ∧ cond.holds x (fieldsOf w) = true := by
  refine Iff.trans (selects_iff 0xF#4 0xF#4 0xFF#8 0xF#4 0#4 id 0#8 0#4 8#8 rfl hv) ?_
  rw [imm_eq_iff _ (immId id), topOf_immId, idOf_immId, low8Of_immId]
  simp only [and_nibble, and_byte]
  constructor
  · rintro ⟨hi, hs, hop, hh⟩
    exact ⟨⟨hop, hc hh, fun _ => hs⟩, hi, hh⟩
  · rintro ⟨⟨hop, -, hs⟩, hi, hh⟩
    exact ⟨hi, hs rfl, hop, hh⟩

theorem selects_ldi : OpcodeRow.selects x w ⟨0xFFFFF0FF#32, 0x01000008#32, .dst⟩ = true ↔
    ImmForm true (fieldsOf w) ∧ (fieldsOf w).imm = 0x0100#16 := by
  have hc : RowCond.dst.holds x (fieldsOf w) = true ↔ (fieldsOf w).dst ≠ 0#4 := by simp [RowCond.holds]
  refine Iff.trans (selects_imm (id := 1#4) rfl hc.1) ?_
  rw [hc]
  exact ⟨fun ⟨h, hi, _⟩ => ⟨h, hi⟩, fun ⟨h, hi⟩ => ⟨h, hi, h.dst⟩⟩

theorem selects_ldl : OpcodeRow.selects x w ⟨0xFFFFF0FF#32, 0x04000008#32, .longword⟩ = true ↔
    ImmForm true (fieldsOf w) ∧ (fieldsOf w).imm = 0x0400#16 ∧ x = .x64 := by
  have hc : RowCond.longword.holds x (fieldsOf w) = true ↔ (fieldsOf w).dst ≠ 0#4 ∧ x = .x64 := by
    simp [RowCond.holds]
  refine Iff.trans (selects_imm (id := 4#4) rfl fun h => (hc.1 h).1) ?_
  rw [hc]
  exact ⟨fun ⟨h, hi, _, hx⟩ => ⟨h, hi, hx⟩, fun ⟨h, hi, hx⟩ => ⟨h, hi, h.dst, hx⟩⟩

theorem baseInRange_iff {f : Fields} : baseInRange f = true ↔ (f.imm.getLsbD 4 = true → f.src ≠ 0#4) := by
  simp only [baseInRange, Bool.or_eq_true, Bool.not_eq_true', bne_iff_ne]
  cases f.imm.getLsbD 4 <;> simp

/-- With STRICT_RESERVED a memory-form word with SH = 0 is fixed by its parts but for what its address takes. -/
theorem unscaledForm_iff {f : Fields} {l1 l2 d : Bool} : UnscaledForm true f (decodeAddr f) l1 l2 d ↔
    (topOf f.imm = cacheBits l2 l1 d ∧ idOf f.imm = 0#4 ∧ low8Of f.imm &&& 0x80#8 = 0#8) ∧ f.op = 8#8 ∧
      baseInRange f = true := by
  have h7 := getLsbD_seven_iff f.imm false
  have hid := idOf_load_iff f.imm false
  rw [topOf_eq_cacheBits_iff, baseInRange_iff]
  constructor
  · rintro ⟨⟨hop, hk, hss, hb, -⟩, hsh, h13, h14, h12, hz⟩
    exact ⟨⟨⟨h13, h14, h12, hz rfl⟩, hid.1 ⟨hk, hss⟩, h7.1 hsh⟩, hop, hb⟩
  · rintro ⟨⟨⟨h13, h14, h12, h15⟩, hi, hl⟩, hop, hb⟩
    exact ⟨⟨hop, (hid.2 hi).1, (hid.2 hi).2, hb, rfl⟩, h7.2 hl, h13, h14, h12, fun _ => h15⟩

theorem load_holds_iff {f : Fields} :
    RowCond.load.holds x f = true ↔ f.dst ≠ 0#4 ∧ baseInRange f = true := by
  simp [RowCond.holds]

/-- The row of LNT, and that of the LDR with L2 alone. -/
theorem selects_unscaled {l2 : Bool} {value : InstrWord}
    (hv : value = (cacheBits l2 false false ++ 0#4 ++ 0#8 : Halfword) ++ 0#4 ++ 0#4 ++ 8#8) :
    OpcodeRow.selects x w ⟨0xFF8000FF#32, value, .load⟩ = true ↔ (fieldsOf w).dst ≠ 0#4 ∧
      UnscaledForm true (fieldsOf w) (decodeAddr (fieldsOf w)) false l2 false := by
  refine Iff.trans (selects_iff 0xF#4 0xF#4 0x80#8 0#4 _ 0#4 0#8 0#4 8#8 rfl hv) ?_
  rw [load_holds_iff, unscaledForm_iff]
  simp only [and_nibble, BitVec.and_zero, true_and]
  tauto

/-- The row of the LDR with L1, whatever L2 is. -/
theorem selects_l1 : OpcodeRow.selects x w ⟨0xBF8000FF#32, 0x20000008#32, .load⟩ = true ↔ (fieldsOf w).dst ≠ 0#4 ∧
    ∃ l2, UnscaledForm true (fieldsOf w) (decodeAddr (fieldsOf w)) true l2 false := by
  refine Iff.trans (selects_iff 0xB#4 0xF#4 0x80#8 0#4 2#4 0#4 0#8 0#4 8#8 rfl rfl) ?_
  have htop : ∀ v : BitVec 4, v &&& 0xB#4 = 2#4 ↔ ∃ l2, v = cacheBits l2 true false := by decide
  simp only [load_holds_iff, unscaledForm_iff, htop, and_nibble, BitVec.and_zero, true_and]
  tauto

theorem selects_memToSys : OpcodeRow.selects x w ⟨0x9F8000FF#32, 0x10000008#32, .sysLoad⟩ = true ↔
    ∃ l1 l2, UnscaledForm true (fieldsOf w) (decodeAddr (fieldsOf w)) l1 l2 true := by
  refine Iff.trans (selects_iff 0x9#4 0xF#4 0x80#8 0#4 1#4 0#4 0#8 0#4 8#8 rfl rfl) ?_
  have htop : ∀ v : BitVec 4, v &&& 0x9#4 = 1#4 ↔ ∃ l1 l2, v = cacheBits l2 l1 true := by decide
  simp only [RowCond.holds, unscaledForm_iff, htop, and_nibble, BitVec.and_zero, true_and]
  tauto

theorem selects_scaled : OpcodeRow.selects x w ⟨0x0F8000FF#32, 0x00800008#32, .load⟩ = true ↔
    (fieldsOf w).dst ≠ 0#4 ∧ MemForm (fieldsOf w) (decodeAddr (fieldsOf w)) ∧ (fieldsOf w).imm.getLsbD 7 = true := by
  refine Iff.trans (selects_iff 0#4 0xF#4 0x80#8 0#4 0#4 0#4 0x80#8 0#4 8#8 rfl rfl) ?_
  have h7 := getLsbD_seven_iff (fieldsOf w).imm true
  have hid := idOf_load_iff (fieldsOf w).imm false
  rw [load_holds_iff, baseInRange_iff]
  simp only [and_nibble, BitVec.and_zero, true_and]
  constructor
  · rintro ⟨⟨hi, hl⟩, hop, hd, hb⟩
    exact ⟨hd, ⟨hop, (hid.2 hi).1, (hid.2 hi).2, hb, rfl⟩, h7.2 hl⟩
  · rintro ⟨hd, ⟨hop, hk, hss, hb, -⟩, hl⟩
    exact ⟨⟨hid.1 ⟨hk, hss⟩, h7.1 hl⟩, hop, hd, hb⟩

/-- One row for both forms of LDX from a system register. -/
theorem selects_sys : OpcodeRow.selects x w ⟨0xEFFF00FF#32, 0x08000008#32, .sysSource⟩ = true ↔
    ∃ d, SysForm true (fieldsOf w) d := by
  refine Iff.trans (selects_iff 0xE#4 0xF#4 0xFF#8 0#4 0#4 8#4 0#8 0#4 8#8 rfl rfl) ?_
  have htop : ∀ v : BitVec 4, v &&& 0xE#4 = 0#4 ↔ ∃ d, v = cacheBits false false d := by decide
  have hid := idOf_load_iff (fieldsOf w).imm true
  simp only [RowCond.holds, htop, topOf_eq_cacheBits_iff, and_nibble, and_byte, BitVec.and_zero, true_and, and_true]
  constructor
  · rintro ⟨⟨⟨d, h13, h14, h12, h15⟩, hi, hl⟩, hop⟩
    exact ⟨d, hop, (hid.2 hi).1, (hid.2 hi).2, hl, h13, h14, h12, fun _ => h15⟩
  · rintro ⟨d, hop, hk, hss, hl, h13, h14, h12, hz⟩
    exact ⟨⟨⟨d, h13, h14, h12, hz rfl⟩, hid.1 ⟨hk, hss⟩, hl⟩, hop⟩

/-- A strict rule selects the row of its instruction. -/
theorem Decodes.selects {i : Instr} (h : Decodes x true (fieldsOf w) i) :
    ∃ r ∈ opcodeMap, r.selects x w = true ∧ opcodeRow i = (r.mask, r.value) := by
  cases h with
  | not h hs => exact ⟨⟨_, _, .dst⟩, by decide, selects_not.2 ⟨h, hs rfl⟩, rfl⟩
  | or h | and h | xor h | nor h | xnor h | nand h | bsf h | bsr h | ham h | par h | bex h | bdp h =>
    exact ⟨⟨_, _, .dst⟩, by decide, (selects_reg rfl).2 h, rfl⟩
  | sll h | srl h | sar h | rol h | ror h | rcl h | rcr h =>
    exact ⟨⟨_, _, .counted⟩, by decide, (selects_shift rfl).2 ⟨_, h⟩, rfl⟩
  | cmp hop hd hz => exact ⟨⟨_, _, .dst⟩, by decide, selects_cmp.2 ⟨hop, hd, hz rfl⟩, rfl⟩
  | inc h | dec h | add h | sub h | mul h | mhi h | irp h | div h | rem h =>
    exact ⟨⟨_, _, .dst⟩, by decide, (selects_arith rfl).2 ⟨_, h⟩, rfl⟩
  | lea hop hid hd _ _ => exact ⟨⟨_, _, .dst⟩, by decide, selects_lea.2 ⟨hop, hid, hd⟩, rfl⟩
  | bst h | bcl h | bfl h | bts h | btc h | btf h =>
    exact ⟨⟨_, _, .counted⟩, by decide, (selects_bit rfl).2 ⟨_, _, _, h⟩, rfl⟩
  | ldh hop hd hs => exact ⟨⟨_, _, .dst⟩, by decide, selects_ldh.2 ⟨hop, hd, hs rfl⟩, rfl⟩
  | ldb h hi _ => exact ⟨⟨_, _, .dst⟩, by decide, selects_ldb.2 ⟨h, hi⟩, rfl⟩
  | ldi h hi => exact ⟨⟨_, _, .dst⟩, by decide, selects_ldi.2 ⟨h, hi⟩, rfl⟩
  | ldl h hi hx => exact ⟨⟨_, _, .longword⟩, by decide, selects_ldl.2 ⟨h, hi, hx⟩, rfl⟩
  | lnt h hd =>
    cases h.addr
    exact ⟨⟨_, _, .load⟩, by decide, (selects_unscaled rfl).2 ⟨hd, h⟩, rfl⟩
  | @cached a l1 l2 h hd hc =>
    cases h.addr
    cases l1 with
    | true => exact ⟨⟨_, _, .load⟩, by decide, selects_l1.2 ⟨hd, l2, h⟩, rfl⟩
    | false =>
      cases l2 with
      | true => exact ⟨⟨_, _, .load⟩, by decide, (selects_unscaled rfl).2 ⟨hd, h⟩, rfl⟩
      | false => exact absurd ⟨rfl, rfl⟩ hc
  | scaled h hd h7 _ =>
    cases h.addr
    exact ⟨⟨_, _, .load⟩, by decide, selects_scaled.2 ⟨hd, h, h7⟩, rfl⟩
  | sysToReg h | sysToSys h => exact ⟨⟨_, _, .sysSource⟩, by decide, selects_sys.2 ⟨_, h⟩, rfl⟩
  | memToSys h =>
    cases h.addr
    exact ⟨⟨_, _, .sysLoad⟩, by decide, selects_memToSys.2 ⟨_, _, h⟩, rfl⟩

/-- A word that selects a row meets the strict rule of an instruction of that row. -/
theorem decodes_of_selects : ∀ r ∈ opcodeMap, r.selects x w = true →
    ∃ i, Decodes x true (fieldsOf w) i ∧ opcodeRow i = (r.mask, r.value) := by
  simp only [opcodeMap, rowsOf, List.map_cons, List.map_nil, List.cons_append, List.nil_append, List.forall_mem_cons,
    List.not_mem_nil, false_implies, implies_true, and_true]
  exact ⟨
    fun h => ⟨_, .not (selects_not.1 h).1 fun _ => (selects_not.1 h).2, rfl⟩,
    fun h => ⟨_, .or ((selects_reg rfl).1 h), rfl⟩,
    fun h => ⟨_, .and ((selects_reg rfl).1 h), rfl⟩,
    fun h => ⟨_, .xor ((selects_reg rfl).1 h), rfl⟩,
    fun h => ⟨_, .nor ((selects_reg rfl).1 h), rfl⟩,
    fun h => ⟨_, .xnor ((selects_reg rfl).1 h), rfl⟩,
    fun h => ⟨_, .nand ((selects_reg rfl).1 h), rfl⟩,
    fun h => have ⟨_, h⟩ := (selects_shift rfl).1 h; ⟨_, .sll h, rfl⟩,
    fun h => have ⟨_, h⟩ := (selects_shift rfl).1 h; ⟨_, .srl h, rfl⟩,
    fun h => have ⟨_, h⟩ := (selects_shift rfl).1 h; ⟨_, .sar h, rfl⟩,
    fun h => have ⟨_, h⟩ := (selects_shift rfl).1 h; ⟨_, .rol h, rfl⟩,
    fun h => have ⟨_, h⟩ := (selects_shift rfl).1 h; ⟨_, .ror h, rfl⟩,
    fun h => have ⟨_, h⟩ := (selects_shift rfl).1 h; ⟨_, .rcl h, rfl⟩,
    fun h => have ⟨_, h⟩ := (selects_shift rfl).1 h; ⟨_, .rcr h, rfl⟩,
    fun h => have ⟨hop, hd, hz⟩ := selects_cmp.1 h; ⟨_, .cmp hop hd fun _ => hz, rfl⟩,
    fun h => have ⟨_, h⟩ := (selects_arith rfl).1 h; ⟨_, .inc h, rfl⟩,
    fun h => have ⟨_, h⟩ := (selects_arith rfl).1 h; ⟨_, .dec h, rfl⟩,
    fun h => have ⟨_, h⟩ := (selects_arith rfl).1 h; ⟨_, .add h, rfl⟩,
    fun h => have ⟨_, h⟩ := (selects_arith rfl).1 h; ⟨_, .sub h, rfl⟩,
    fun h => have ⟨_, h⟩ := (selects_arith rfl).1 h; ⟨_, .mul h, rfl⟩,
    fun h => have ⟨_, h⟩ := (selects_arith rfl).1 h; ⟨_, .mhi h, rfl⟩,
    fun h => have ⟨_, h⟩ := (selects_arith rfl).1 h; ⟨_, .irp h, rfl⟩,
    fun h => have ⟨_, h⟩ := (selects_arith rfl).1 h; ⟨_, .div h, rfl⟩,
    fun h => have ⟨_, h⟩ := (selects_arith rfl).1 h; ⟨_, .rem h, rfl⟩,
    fun h => ⟨_, .bsf ((selects_reg rfl).1 h), rfl⟩,
    fun h => ⟨_, .bsr ((selects_reg rfl).1 h), rfl⟩,
    fun h => ⟨_, .ham ((selects_reg rfl).1 h), rfl⟩,
    fun h => ⟨_, .par ((selects_reg rfl).1 h), rfl⟩,
    fun h => ⟨_, .bex ((selects_reg rfl).1 h), rfl⟩,
    fun h => ⟨_, .bdp ((selects_reg rfl).1 h), rfl⟩,
    fun h => have ⟨hop, hid, hd⟩ := selects_lea.1 h; ⟨_, .lea hop hid hd rfl rfl, rfl⟩,
    fun h => have ⟨_, _, _, h⟩ := (selects_bit rfl).1 h; ⟨_, .bst h, rfl⟩,
    fun h => have ⟨_, _, _, h⟩ := (selects_bit rfl).1 h; ⟨_, .bcl h, rfl⟩,
    fun h => have ⟨_, _, _, h⟩ := (selects_bit rfl).1 h; ⟨_, .bfl h, rfl⟩,
    fun h => have ⟨_, _, _, h⟩ := (selects_bit rfl).1 h; ⟨_, .bts h, rfl⟩,
    fun h => have ⟨_, _, _, h⟩ := (selects_bit rfl).1 h; ⟨_, .btc h, rfl⟩,
    fun h => have ⟨_, _, _, h⟩ := (selects_bit rfl).1 h; ⟨_, .btf h, rfl⟩,
    fun h => have ⟨hop, hd, hs⟩ := selects_ldh.1 h; ⟨_, .ldh hop hd fun _ => hs, rfl⟩,
    fun h => have ⟨h, hi⟩ := selects_ldb.1 h; ⟨_, .ldb h hi rfl, rfl⟩,
    fun h => have ⟨h, hi⟩ := selects_ldi.1 h; ⟨_, .ldi h hi, rfl⟩,
    fun h => have ⟨h, hi, hx⟩ := selects_ldl.1 h; ⟨_, .ldl h hi hx, rfl⟩,
    fun h => have ⟨hd, h⟩ := (selects_unscaled (l2 := false) rfl).1 h; ⟨_, .lnt h hd, rfl⟩,
    fun h => have ⟨hd, h⟩ := (selects_unscaled (l2 := true) rfl).1 h; ⟨_, .cached h hd (by simp), rfl⟩,
    fun h => have ⟨hd, _, h⟩ := selects_l1.1 h; ⟨_, .cached h hd (by simp), rfl⟩,
    fun h => have ⟨hd, h, h7⟩ := selects_scaled.1 h; ⟨_, .scaled h hd h7 rfl, rfl⟩,
    fun h => match selects_sys.1 h with
      | ⟨false, h⟩ => ⟨_, .sysToReg h, rfl⟩
      | ⟨true, h⟩ => ⟨_, .sysToSys h, rfl⟩,
    fun h => have ⟨_, _, h⟩ := selects_memToSys.1 h; ⟨_, .memToSys h, rfl⟩⟩

/-- Settles O3: the rules of the decoder, with STRICT_RESERVED, are the rows of the opcode map. -/
theorem decodedWordMatchesItsOpcodeRow : Obligations.DecodedWordMatchesItsOpcodeRow := by
  intro x w
  refine ⟨fun i hi => (decodes_of_decodeWord hi).selects, fun r hr hsel => ?_⟩
  obtain ⟨i, hi, hrow⟩ := decodes_of_selects r hr hsel
  exact ⟨i, decodeWord_of_decodes id hi, hrow⟩

end OpcodeRows

/-! ### The reserved words

A word that a rule decodes is in none of the cases of R96 and R97, and with STRICT_RESERVED every other word is. -/

section Reserved

variable {x : Xlen} {strict : Bool} {f : Fields} {w : InstrWord}

theorem DecodesCount.inRange {c : Count} (h : DecodesCount x strict f c) :
    f.imm.getLsbD 6 = false → f.src ≠ 0#4 := by
  intro h6
  cases h with
  | reg _ hs => exact hs
  | imm32 h _ _ | imm64 h _ => rw [h6] at h; cases h

/-- The condition of R97 item 4 on a count or position. -/
theorem DecodesCount.countBit5 {c : Count} (h : DecodesCount x true f c) :
    (x == .x32 && f.imm.getLsbD 6 && f.imm.getLsbD 5) = false := by
  cases h with
  | reg h6 _ => rw [h6, Bool.and_false, Bool.false_and]
  | imm32 _ _ h5 => rw [h5 rfl, Bool.and_false]
  | imm64 _ hx => rw [hx]; rfl

/-! #### The forms of op 8 -/

theorem registerOutOfRange_load (hop : f.op = 8#8) : registerOutOfRange f =
    ((f.dst == 0#4 && (isImmForm f || f.imm.getLsbD 7 || (!f.imm.getLsbD 11 && !f.imm.getLsbD 12))) ||
      (isMemForm f && !baseInRange f)) := by
  simp only [registerOutOfRange, hop]
  rfl

theorem isImmForm_eq_false (h : f.imm.extractLsb' 8 3 = 0#3) : isImmForm f = false := by
  simp [isImmForm, h]

theorem longwordOn32_eq_false (h : f.imm.extractLsb' 8 3 = 0#3) : longwordOn32 x f = false := by
  have himm : f.imm ≠ 0x0400#16 := by
    intro he
    rw [he] at h
    exact absurd h (by decide)
  simp [longwordOn32, himm]

theorem isImmForm_of_ldb (h : f.imm.extractLsb' 8 8 = 0x02#8) : isImmForm f = true := by
  simp [isImmForm, kind_of_ldb h]

theorem reservedAlways_eq_false_of_load (hop : (fieldsOf w).op = 8#8) (hr : registerOutOfRange (fieldsOf w) = false)
    (hx : longwordOn32 x (fieldsOf w) = false) : reservedAlways x w = false := by
  simp only [reservedAlways, hr, hx, Bool.or_false]
  simp [unassignedOpOrId, hop]

theorem ImmForm.registerInRange (h : ImmForm strict f) (hk : isImmForm f = true) : registerOutOfRange f = false := by
  simp [registerOutOfRange_load h.op_eq, h.dst, isMemForm, hk]

theorem MemForm.registerInRange {a : AddrOperand} (h : MemForm f a)
    (hd : f.dst ≠ 0#4 ∨ f.imm.getLsbD 7 = false ∧ f.imm.getLsbD 12 = true) : registerOutOfRange f = false := by
  rw [registerOutOfRange_load h.op_eq, baseInRange_iff.2 h.base, isImmForm_eq_false h.kind]
  rcases hd with hd | ⟨h7, h12⟩
  · simp [hd]
  · simp [-BitVec.getLsbD_eq_getElem, h7, h12]

/-- A decoded word is in none of the cases that are reserved under either setting of STRICT_RESERVED. -/
theorem Decodes.not_reservedAlways {i : Instr} (h : Decodes x strict (fieldsOf w) i) : reservedAlways x w = false := by
  cases h with
  | not h _ | or h | and h | xor h | nor h | xnor h | nand h | bsf h | bsr h | ham h | par h | bex h | bdp h =>
    simp [reservedAlways, unassignedOpOrId, registerOutOfRange, longwordOn32, h.op_eq, h.id_eq, h.dst]
  | sll h | srl h | sar h | rol h | ror h | rcl h | rcr h | bst h | bcl h | bfl h | bts h | btc h | btf h =>
    simpa [reservedAlways, unassignedOpOrId, registerOutOfRange, longwordOn32, h.op_eq, h.id_eq, h.dst]
      using h.count.inRange
  | inc h | dec h | add h | sub h | mul h | mhi h | irp h | div h | rem h =>
    simp [reservedAlways, unassignedOpOrId, registerOutOfRange, longwordOn32, h.op_eq, h.id_eq, h.dst]
  | cmp hop hd _ | ldh hop hd _ =>
    simp [reservedAlways, unassignedOpOrId, registerOutOfRange, longwordOn32, hop, hd]
  | lea hop hid hd _ _ =>
    simp [reservedAlways, unassignedOpOrId, registerOutOfRange, longwordOn32, hop, hid, hd]
  | ldb h hi _ =>
    refine reservedAlways_eq_false_of_load h.op_eq (h.registerInRange (isImmForm_of_ldb hi)) ?_
    have himm : (fieldsOf w).imm ≠ 0x0400#16 := by
      intro he
      rw [he] at hi
      exact absurd hi (by decide)
    simp [longwordOn32, himm]
  | ldi h hi =>
    refine reservedAlways_eq_false_of_load h.op_eq (h.registerInRange (by simp [isImmForm, hi])) ?_
    simp [longwordOn32, hi]
  | ldl h hi hx =>
    refine reservedAlways_eq_false_of_load h.op_eq (h.registerInRange (by simp [isImmForm, hi])) ?_
    simp [longwordOn32, hx]
  | lnt h hd | cached h hd _ | scaled h hd _ _ =>
    exact reservedAlways_eq_false_of_load h.op_eq (h.registerInRange (.inl hd)) (longwordOn32_eq_false h.kind)
  | memToSys h =>
    exact reservedAlways_eq_false_of_load h.op_eq (h.registerInRange (.inr ⟨h.sh, h.d_eq⟩))
      (longwordOn32_eq_false h.kind)
  | sysToReg h | sysToSys h =>
    refine reservedAlways_eq_false_of_load h.op_eq ?_ (longwordOn32_eq_false h.kind)
    simp [-BitVec.getLsbD_eq_getElem, registerOutOfRange_load h.op_eq, isImmForm_eq_false h.kind, isMemForm, h.sh, h.ss]

/-- With STRICT_RESERVED a decoded word has no field set that its form does not use (R97 items 3 to 5). -/
theorem Decodes.not_reservedStrictly {i : Instr} (h : Decodes x true f i) :
    notApplicableSet f = false ∧ mustBeZeroSet x f = false ∧ loadFormUnlisted f = false := by
  cases h with
  | not h hs => simp [notApplicableSet, mustBeZeroSet, loadFormUnlisted, h.op_eq, h.zero rfl, hs rfl]
  | or h | and h | xor h | nor h | xnor h | nand h | bsf h | bsr h | ham h | par h | bex h | bdp h =>
    simp [notApplicableSet, mustBeZeroSet, loadFormUnlisted, h.op_eq, h.id_eq, h.zero rfl]
  | sll h | srl h | sar h | rol h | ror h | rcl h | rcr h =>
    have h5 := h.count.countBit5
    simp [-BitVec.getLsbD_eq_getElem, notApplicableSet, mustBeZeroSet, loadFormUnlisted, h.op_eq, h.zero rfl, h5]
  | inc h | dec h | add h | sub h | mul h | mhi h | irp h | div h | rem h =>
    simp [notApplicableSet, mustBeZeroSet, loadFormUnlisted, h.op_eq, h.zero rfl]
  | bst h | bcl h | bfl h | bts h | btc h | btf h =>
    have h5 := h.count.countBit5
    simp [-BitVec.getLsbD_eq_getElem, notApplicableSet, mustBeZeroSet, loadFormUnlisted, h.op_eq, h5]
  | cmp hop _ hz => simp [notApplicableSet, mustBeZeroSet, loadFormUnlisted, hop, hz rfl]
  | lea hop _ _ _ _ => simp [notApplicableSet, mustBeZeroSet, loadFormUnlisted, hop]
  | ldh hop _ hs => simp [notApplicableSet, mustBeZeroSet, loadFormUnlisted, hop, hs rfl]
  | ldb h hi _ => simp [notApplicableSet, mustBeZeroSet, loadFormUnlisted, h.op_eq, h.src rfl, isImmForm_of_ldb hi, hi]
  | ldi h hi | ldl h hi _ =>
    have hk : isImmForm f = true := by simp [isImmForm, hi]
    simp [notApplicableSet, mustBeZeroSet, loadFormUnlisted, h.op_eq, h.src rfl, hk, hi]
  | lnt h _ | cached h _ _ | memToSys h =>
    simp [-BitVec.getLsbD_eq_getElem, notApplicableSet, mustBeZeroSet, loadFormUnlisted, h.op_eq,
      isImmForm_eq_false h.kind, h.ss, h.zero rfl]
  | scaled h _ h7 _ =>
    simp [-BitVec.getLsbD_eq_getElem, notApplicableSet, mustBeZeroSet, loadFormUnlisted, h.op_eq,
      isImmForm_eq_false h.kind, h.ss, h7]
  | sysToReg h | sysToSys h =>
    simp [-BitVec.getLsbD_eq_getElem, notApplicableSet, mustBeZeroSet, loadFormUnlisted, h.op_eq,
      isImmForm_eq_false h.kind, h.low, h.l1, h.l2, h.zero rfl]

theorem Decodes.not_reservedWord {i : Instr} (h : Decodes x true (fieldsOf w) i) : reservedWord x w = false := by
  obtain ⟨hna, hz, hform⟩ := h.not_reservedStrictly
  simp [reservedWord, h.not_reservedAlways, hna, hz, hform]

/-! #### What is not reserved decodes -/

theorem exists_decodeCount (hs : f.imm.getLsbD 6 = false → f.src ≠ 0#4)
    (h5 : (x == .x32 && f.imm.getLsbD 6 && f.imm.getLsbD 5) = false) : ∃ c, decodeCount x strict f = .ok c := by
  cases h6 : f.imm.getLsbD 6 with
  | false => exact ⟨_, decodeCount_of_decodesCount id (.reg h6 (hs h6))⟩
  | true =>
    cases x with
    | x32 => exact ⟨_, decodeCount_of_decodesCount id (.imm32 h6 rfl fun _ => by simpa [h6] using h5)⟩
    | x64 => exact ⟨_, decodeCount_of_decodesCount id (.imm64 h6 rfl)⟩

theorem exists_decodeLogical (hz : topOf f.imm = 0#4 ∧ low8Of f.imm = 0#8) (hd : f.dst ≠ 0#4)
    (hid : (idOf f.imm).toNat < 7) (hs : (idOf f.imm).toNat = 0 → f.src = 0#4) :
    ∃ i, decodeLogical strict f = .ok i := by
  simp only [decodeLogical, hz, hd]
  generalize (idOf f.imm).toNat = n at hid hs
  interval_cases n <;> simp [hs]

theorem exists_decodeShift (hz : topOf f.imm = 0#4 ∧ f.imm.getLsbD 7 = false) (hd : f.dst ≠ 0#4)
    (hid : (idOf f.imm).toNat < 7) (hc : ∃ c, decodeCount x strict f = .ok c) :
    ∃ i, decodeShift x strict f = .ok i := by
  obtain ⟨c, hc⟩ := hc
  simp only [decodeShift, hz, hd, hc]
  generalize (idOf f.imm).toNat = n at hid
  interval_cases n <;> simp

theorem exists_decodeArith (hz : topOf f.imm = 0#4 ∧ f.imm.extractLsb' 2 6 = 0#6) (hd : f.dst ≠ 0#4)
    (hid : (idOf f.imm).toNat < 9) : ∃ i, decodeArith strict f = .ok i := by
  simp only [decodeArith, hz, hd]
  generalize (idOf f.imm).toNat = n at hid
  interval_cases n <;> simp

theorem exists_decodeBitOps (hz : topOf f.imm = 0#4 ∧ low8Of f.imm = 0#8) (hd : f.dst ≠ 0#4)
    (hid : (idOf f.imm).toNat ∈ [3, 4, 5, 6, 10, 11]) : ∃ i, decodeBitOps strict f = .ok i := by
  simp only [decodeBitOps, hz, hd]
  generalize (idOf f.imm).toNat = n at hid
  fin_cases hid <;> simp

theorem exists_decodeMemBits (hd : f.dst ≠ 0#4) (hid : (idOf f.imm).toNat < 6)
    (hc : ∃ c, decodeCount x strict f = .ok c) : ∃ i, decodeMemBits x strict f = .ok i := by
  obtain ⟨c, hc⟩ := hc
  simp only [decodeMemBits, hd, hc]
  generalize (idOf f.imm).toNat = n at hid
  interval_cases n <;> simp

/-- The immediate loads that 47_loads R215 lists. -/
theorem exists_decodeImmLoad (hs : f.src = 0#4) (hd : f.dst ≠ 0#4)
    (hi : f.imm.extractLsb' 8 8 = 0x02#8 ∨ f.imm = 0x0100#16 ∨ f.imm = 0x0400#16 ∧ x ≠ .x32) :
    ∃ i, decodeImmLoad x strict f = .ok i := by
  rcases hi with hi | hi | ⟨hi, hx⟩
  · simp [decodeImmLoad, hs, hd, hi]
  · simp [decodeImmLoad, hs, hd, hi]
  · have hx : x = .x64 := by cases x <;> simp at hx ⊢
    simp [decodeImmLoad, hs, hd, hi, hx]

theorem exists_decodeScaled (hss : f.imm.getLsbD 11 = false) (hb : baseInRange f = true) (hd : f.dst ≠ 0#4) :
    ∃ i, decodeScaled f = .ok i := by
  have hb := baseInRange_iff.1 hb
  simp only [decodeScaled, if_error_eq_ok, hss, hd, not_and]
  exact ⟨_, by simp, hb, not_false, rfl⟩

theorem exists_decodeUnscaled (h15 : f.imm.getLsbD 15 = false)
    (hsys : f.imm.getLsbD 11 = true → low8Of f.imm = 0#8 ∧ f.imm.getLsbD 13 = false ∧ f.imm.getLsbD 14 = false)
    (hmem : f.imm.getLsbD 11 = false → baseInRange f = true ∧ (f.imm.getLsbD 12 = false → f.dst ≠ 0#4)) :
    ∃ i, decodeUnscaled strict f = .ok i := by
  simp only [decodeUnscaled, h15, if_error_eq_ok]
  cases hss : f.imm.getLsbD 11 with
  | true =>
    obtain ⟨hl, h13, h14⟩ := hsys hss
    cases h12 : f.imm.getLsbD 12 <;> simp [-BitVec.getLsbD_eq_getElem, hl, h13, h14]
  | false =>
    obtain ⟨hb, hd⟩ := hmem hss
    have hb : ¬ (f.imm.getLsbD 4 = true ∧ f.src = 0#4) := not_and.2 (baseInRange_iff.1 hb)
    simp only [hb]
    cases h12 : f.imm.getLsbD 12 with
    | true => simp
    | false =>
      by_cases hc : f.imm.getLsbD 13 = false ∧ f.imm.getLsbD 14 = false <;>
        simp [-BitVec.getLsbD_eq_getElem, hd h12, hc]

/-- The `op` values that R100 decodes. -/
theorem op_of_assigned (h : unassignedOpOrId f = false) :
    f.op = 0#8 ∨ f.op = 1#8 ∨ f.op = 2#8 ∨ f.op = 3#8 ∨ f.op = 4#8 ∨ f.op = 5#8 ∨ f.op = 6#8 ∨ f.op = 7#8 ∨
      f.op = 8#8 := by
  have hlt : f.op.toNat < 9 := by
    unfold unassignedOpOrId at h
    split at h
    case h_10 => cases h
    all_goals omega
  have hall : ∀ v : Byte, v.toNat < 9 →
      v = 0#8 ∨ v = 1#8 ∨ v = 2#8 ∨ v = 3#8 ∨ v = 4#8 ∨ v = 5#8 ∨ v = 6#8 ∨ v = 7#8 ∨ v = 8#8 := by decide
  exact hall f.op hlt

theorem exists_decodeLoad (hop : f.op = 8#8) (hreg : registerOutOfRange f = false) (hx : longwordOn32 x f = false)
    (hna : notApplicableSet f = false) (hz : mustBeZeroSet x f = false) (hform : loadFormUnlisted f = false) :
    ∃ i, decodeLoad x strict f = .ok i := by
  rw [registerOutOfRange_load hop] at hreg
  cases hi : isImmForm f with
  | true =>
    have hk : f.imm.extractLsb' 8 3 ≠ 0#3 := by simpa [isImmForm] using hi
    have hs : f.src = 0#4 := by simpa [notApplicableSet, hop, hi] using hna
    have hd : f.dst ≠ 0#4 := by simpa [isMemForm, hi] using hreg
    rw [decodeLoad, if_neg hk]
    refine exists_decodeImmLoad hs hd ?_
    by_cases hb : f.imm.extractLsb' 8 8 = 0x02#8
    · exact .inl hb
    · by_cases h1 : f.imm = 0x0100#16
      · exact .inr (.inl h1)
      · have h4 : f.imm = 0x0400#16 := by simpa [loadFormUnlisted, hop, hi, hb, h1] using hform
        exact .inr (.inr ⟨h4, by simpa [longwordOn32, hop, h4] using hx⟩)
  | false =>
    have hk : f.imm.extractLsb' 8 3 = 0#3 := by simpa [isImmForm] using hi
    have hsys : f.imm.getLsbD 11 = true → low8Of f.imm = 0#8 ∧ f.imm.getLsbD 13 = false ∧ f.imm.getLsbD 14 = false := by
      intro hss
      simpa [-BitVec.getLsbD_eq_getElem, loadFormUnlisted, hop, hi, hss, and_assoc] using hform
    have hbase (hss : f.imm.getLsbD 11 = false) : baseInRange f = true := by
      simp only [isMemForm, hi, hss, Bool.or_eq_false_iff] at hreg
      simpa using hreg.2
    rw [decodeLoad, if_pos hk]
    cases h7 : f.imm.getLsbD 7 with
    | true =>
      have hss : f.imm.getLsbD 11 = false := by
        by_contra hss
        have hlow := (hsys (by simpa using hss)).1
        have : (low8Of f.imm).getLsbD 7 = true := by simpa [low8Of] using h7
        rw [hlow] at this
        cases this
      have hd : f.dst ≠ 0#4 := by
        simp only [h7, Bool.or_eq_false_iff] at hreg
        simpa using hreg.1
      exact exists_decodeScaled hss (hbase hss) hd
    | false =>
      have h15 : f.imm.getLsbD 15 = false := by
        simpa [-BitVec.getLsbD_eq_getElem, mustBeZeroSet, hop, hi, h7] using hz
      refine exists_decodeUnscaled h15 hsys fun hss => ⟨hbase hss, fun h12 => ?_⟩
      simp only [hss, h12, Bool.or_eq_false_iff] at hreg
      simpa using hreg.1

/-- With STRICT_RESERVED every word that is not reserved decodes. -/
theorem exists_decodeWord_of_not_reserved (h : reservedWord x w = false) : ∃ i, decodeWord x true w = .ok i := by
  simp only [reservedWord, reservedAlways, Bool.or_eq_false_iff] at h
  obtain ⟨⟨⟨⟨⟨hop, hreg⟩, hx⟩, hna⟩, hz⟩, hform⟩ := h
  rcases op_of_assigned hop with h0 | h1 | h2 | h3 | h4 | h5 | h6 | h7 | h8
  · have hid : (idOf (fieldsOf w).imm).toNat < 7 := by simpa [unassignedOpOrId, h0] using hop
    have hd : (fieldsOf w).dst ≠ 0#4 := by simpa [registerOutOfRange, h0] using hreg
    have hs : idOf (fieldsOf w).imm = 0#4 → (fieldsOf w).src = 0#4 := by simpa [notApplicableSet, h0] using hna
    rw [decodeWord_of_op0 h0]
    exact exists_decodeLogical (by simpa [mustBeZeroSet, h0] using hz) hd hid fun hi => hs (BitVec.eq_of_toNat_eq hi)
  · have hid : (idOf (fieldsOf w).imm).toNat < 7 := by simpa [unassignedOpOrId, h1] using hop
    have hreg : (fieldsOf w).dst ≠ 0#4 ∧ ((fieldsOf w).imm.getLsbD 6 = false → (fieldsOf w).src ≠ 0#4) := by
      simpa [registerOutOfRange, h1] using hreg
    simp only [mustBeZeroSet, h1, BitVec.toNat_ofNat, Nat.reducePow, Nat.reduceMod, Bool.or_eq_false_iff,
      bne_eq_false_iff_eq] at hz
    rw [decodeWord_of_op1 h1]
    exact exists_decodeShift hz.1 hreg.1 hid (exists_decodeCount hreg.2 hz.2)
  · have hd : (fieldsOf w).dst ≠ 0#4 := by simpa [registerOutOfRange, h2] using hreg
    have hi : (fieldsOf w).imm = 0#16 := by simpa [notApplicableSet, h2] using hna
    rw [decodeWord_of_op2 h2]
    simp [decodeCompare, hd, hi]
  · have hid : (idOf (fieldsOf w).imm).toNat < 9 := by simpa [unassignedOpOrId, h3] using hop
    have hd : (fieldsOf w).dst ≠ 0#4 := by simpa [registerOutOfRange, h3] using hreg
    rw [decodeWord_of_op3 h3]
    exact exists_decodeArith (by simpa [mustBeZeroSet, h3] using hz) hd hid
  · have hid : (idOf (fieldsOf w).imm).toNat ∈ [3, 4, 5, 6, 10, 11] := by
      simpa only [unassignedOpOrId, h4, BitVec.toNat_ofNat, Nat.reducePow, Nat.reduceMod, decide_eq_false_iff_not,
        not_not] using hop
    have hd : (fieldsOf w).dst ≠ 0#4 := by simpa [registerOutOfRange, h4] using hreg
    rw [decodeWord_of_op4 h4]
    exact exists_decodeBitOps (by simpa [mustBeZeroSet, h4] using hz) hd hid
  · have hid : (idOf (fieldsOf w).imm).toNat = 0 := by simpa [unassignedOpOrId, h5] using hop
    have hd : (fieldsOf w).dst ≠ 0#4 := by simpa [registerOutOfRange, h5] using hreg
    rw [decodeWord_of_op5 h5]
    simp [decodeLea, hd, show idOf (fieldsOf w).imm = 0#4 from BitVec.eq_of_toNat_eq hid]
  · have hid : (idOf (fieldsOf w).imm).toNat < 6 := by simpa [unassignedOpOrId, h6] using hop
    have hreg : (fieldsOf w).dst ≠ 0#4 ∧ ((fieldsOf w).imm.getLsbD 6 = false → (fieldsOf w).src ≠ 0#4) := by
      simpa [registerOutOfRange, h6] using hreg
    simp only [mustBeZeroSet, h6, BitVec.toNat_ofNat, Nat.reducePow, Nat.reduceMod] at hz
    rw [decodeWord_of_op6 h6]
    exact exists_decodeMemBits hreg.1 hid (exists_decodeCount hreg.2 hz)
  · have hd : (fieldsOf w).dst ≠ 0#4 := by simpa [registerOutOfRange, h7] using hreg
    have hs : (fieldsOf w).src = 0#4 := by simpa [notApplicableSet, h7] using hna
    rw [decodeWord_of_op7 h7]
    simp [decodeLdh, hd, hs]
  · rw [decodeWord_of_op8 h8]
    exact exists_decodeLoad h8 hreg hx hna hz hform

/-! #### A reserved word at `pc` -/

theorem decodeWord_error_of_not_ok (h : ∀ i, decodeWord x strict w ≠ .ok i) :
    ∃ e, decodeWord x strict w = .error e := by
  cases hd : decodeWord x strict w with
  | error e => exact ⟨e, rfl⟩
  | ok i => exact absurd hd (h i)

theorem decodeWord_of_reservedAlways (h : reservedAlways x w = true) : ∃ e, decodeWord x strict w = .error e := by
  refine decodeWord_error_of_not_ok fun i hi => ?_
  rw [(decodes_of_decodeWord hi).not_reservedAlways] at h
  cases h

theorem decodeWord_of_reservedWord (h : reservedWord x w = true) : ∃ e, decodeWord x true w = .error e := by
  refine decodeWord_error_of_not_ok fun i hi => ?_
  rw [(decodes_of_decodeWord hi).not_reservedWord] at h
  cases h

/-- The ID is bits 27 to 24 of the word (R81, R83). -/
theorem idOf_fieldsOf (w : InstrWord) : idOf (fieldsOf w).imm = w.extractLsb' 24 4 :=
  extractLsb'_extractLsb' w 16 16 8 4 (by decide)

/-- The `op` values and IDs that no table assigns. -/
theorem unassignedOpOrId_of_listed (h : let op := (w.extractLsb' 0 8).toNat
      let id := (w.extractLsb' 24 4).toNat
      9 ≤ op ∨ (op = 0 ∧ 7 ≤ id) ∨ (op = 1 ∧ 7 ≤ id) ∨ (op = 3 ∧ 9 ≤ id) ∨
        (op = 4 ∧ id ∉ [3, 4, 5, 6, 10, 11]) ∨ (op = 5 ∧ 1 ≤ id) ∨ (op = 6 ∧ 6 ≤ id)) :
    unassignedOpOrId (fieldsOf w) = true := by
  have hop : (fieldsOf w).op = w.extractLsb' 0 8 := rfl
  rw [unassignedOpOrId, idOf_fieldsOf, hop]
  generalize (w.extractLsb' 0 8).toNat = op at h
  rcases h with h | ⟨rfl, h⟩ | ⟨rfl, h⟩ | ⟨rfl, h⟩ | ⟨rfl, h⟩ | ⟨rfl, h⟩ | ⟨rfl, h⟩
  case inl =>
    split
    case h_10 => rfl
    all_goals omega
  all_goals exact decide_eq_true h

/-- Settles O6: the reserved words are those that no rule decodes, and such a word at `pc` is the fault of the fetch. -/
theorem unassignedEncodingsRaiseIllegalInstruction : Obligations.UnassignedEncodingsRaiseIllegalInstruction := by
  intro x m w hr he hw raises
  have refused : (∃ e, decodeWord x m.cfg.strictReserved w = .error e) → raises := fun ⟨_, h⟩ =>
    ⟨_, step_of_fetch_error hr he (Mach.fetchInstr_illegal hw h), m.raise_faults _⟩
  have always (h : reservedAlways x w = true) : raises := refused (decodeWord_of_reservedAlways h)
  refine ⟨fun e h => refused ⟨e, h⟩, fun h => always ?_, always, fun hs => ⟨fun h => refused ?_, ?_⟩⟩
  · simp [reservedAlways, unassignedOpOrId_of_listed h]
  · rw [hs]
    exact decodeWord_of_reservedWord h
  · exact exists_decodeWord_of_not_reserved

end Reserved

/-! ### Fields that are gated off

The decoder does not look at a field whose gate bit is 0 (R92), but for LEA's shift count, which it keeps under S also
where O is 0; there `exec` does not look at it. -/

section Gates

variable {x : Xlen} {strict : Bool} {f g : Fields} {w v : InstrWord}

/-- Two words that have the same bits outside a mask. -/
def AgreeOutside (mask w v : InstrWord) : Prop :=
  ∀ k, mask.getLsbD k = false → w.getLsbD k = v.getLsbD k

theorem agreeOutside_of_xor {mask : InstrWord} (h : (w ^^^ v) &&& ~~~mask = 0#32) : AgreeOutside mask w v := by
  intro k hk
  have hbit := congrArg (BitVec.getLsbD · k) h
  by_cases hlt : k < 32
  · simpa [-BitVec.getLsbD_eq_getElem, hlt, hk] using hbit
  · rw [BitVec.getLsbD_of_ge w k (by omega), BitVec.getLsbD_of_ge v k (by omega)]

/-- Words that agree outside the empty mask are equal. -/
theorem AgreeOutside.eq (h : AgreeOutside 0#32 w v) : w = v :=
  BitVec.eq_of_getLsbD_eq fun k _ => h k (by simp)

/-- A field that the mask leaves alone is the same in both words. -/
theorem AgreeOutside.field {mask : InstrWord} (h : AgreeOutside mask w v) (a n : Nat)
    (hm : mask.extractLsb' a n = 0#n) : w.extractLsb' a n = v.extractLsb' a n := by
  apply BitVec.eq_of_getLsbD_eq
  intro k hk
  have hbit := congrArg (BitVec.getLsbD · k) hm
  simp only [BitVec.getLsbD_extractLsb', hk, decide_true, Bool.true_and, BitVec.getLsbD_zero] at hbit ⊢
  exact h (a + k) hbit

/-- So is a part of `imm16`. -/
theorem AgreeOutside.immField {mask : InstrWord} (h : AgreeOutside mask w v) (a n : Nat) (ha : a + n ≤ 16)
    (hm : mask.extractLsb' (16 + a) n = 0#n) :
    (fieldsOf w).imm.extractLsb' a n = (fieldsOf v).imm.extractLsb' a n := by
  have hf (u : InstrWord) : (fieldsOf u).imm.extractLsb' a n = u.extractLsb' (16 + a) n :=
    extractLsb'_extractLsb' u 16 16 a n ha
  rw [hf, hf]
  exact h.field (16 + a) n hm

/-- Parts of `imm16` that are equal have equal bits. -/
theorem getLsbD_of_extractLsb' {i j : Halfword} {a n : Nat} (h : i.extractLsb' a n = j.extractLsb' a n) (k : Nat)
    (hk : a ≤ k ∧ k < a + n) : i.getLsbD k = j.getLsbD k := by
  have hbit := congrArg (BitVec.getLsbD · (k - a)) h
  simpa only [BitVec.getLsbD_extractLsb', show k - a < n by omega, show a + (k - a) = k by omega, decide_true,
    Bool.true_and] using hbit

theorem immPart_of_extractLsb' {i j : Halfword} {a n : Nat} (h : i.extractLsb' a n = j.extractLsb' a n) (b l : Nat)
    (hb : a ≤ b ∧ b - a + l ≤ n) : i.extractLsb' b l = j.extractLsb' b l := by
  have hpart (u : Halfword) : u.extractLsb' b l = (u.extractLsb' a n).extractLsb' (b - a) l := by
    rw [extractLsb'_extractLsb' u a n (b - a) l hb.2, Nat.add_sub_cancel' hb.1]
  rw [hpart, hpart, h]

/-! #### What the decoder reads -/

theorem decodeCount_congr (h6 : f.imm.getLsbD 6 = g.imm.getLsbD 6) (hs : f.imm.getLsbD 6 = false → f.src = g.src)
    (hi : f.imm.getLsbD 6 = true → low6Of f.imm = low6Of g.imm) : decodeCount x strict f = decodeCount x strict g := by
  unfold decodeCount
  rw [← h6]
  cases hb : f.imm.getLsbD 6 with
  | false => simp only [hs hb, Bool.false_eq_true, if_false]
  | true => simp only [hi hb, getLsbD_of_extractLsb' (hi hb) 5 (by omega), if_true]

theorem decodeAddr_congr (h : f.imm.extractLsb' 4 4 = g.imm.extractLsb' 4 4)
    (hs : f.imm.getLsbD 4 = true → f.src = g.src)
    (ho : f.imm.getLsbD 5 = true → f.imm.extractLsb' 0 4 = g.imm.extractLsb' 0 4) : decodeAddr f = decodeAddr g := by
  have h4 := getLsbD_of_extractLsb' h 4 (by omega)
  have h5 := getLsbD_of_extractLsb' h 5 (by omega)
  have h6 := getLsbD_of_extractLsb' h 6 (by omega)
  unfold decodeAddr
  rw [← h4, ← h5, ← h6]
  congr 1
  · cases hb : f.imm.getLsbD 4 with
    | false => rfl
    | true => rw [hs hb]
  · cases hb : f.imm.getLsbD 5 with
    | false => rfl
    | true => rw [ho hb]

/-- What an op 1 word decodes to, by the parts of the word that are read. -/
theorem decodeShift_congr (hi : f.imm.extractLsb' 6 10 = g.imm.extractLsb' 6 10) (hd : f.dst = g.dst)
    (hc : decodeCount x strict f = decodeCount x strict g) : decodeShift x strict f = decodeShift x strict g := by
  have ht : topOf f.imm = topOf g.imm := immPart_of_extractLsb' hi 12 4 (by decide)
  have hid : idOf f.imm = idOf g.imm := immPart_of_extractLsb' hi 8 4 (by decide)
  have h7 := getLsbD_of_extractLsb' hi 7 (by decide)
  simp only [decodeShift, ht, hid, h7, hd, hc]

theorem decodeMemBits_congr (hi : f.imm.extractLsb' 6 10 = g.imm.extractLsb' 6 10) (hd : f.dst = g.dst)
    (hc : decodeCount x strict f = decodeCount x strict g) : decodeMemBits x strict f = decodeMemBits x strict g := by
  have ht : topOf f.imm = topOf g.imm := immPart_of_extractLsb' hi 12 4 (by decide)
  have hid : idOf f.imm = idOf g.imm := immPart_of_extractLsb' hi 8 4 (by decide)
  have h7 := getLsbD_of_extractLsb' hi 7 (by decide)
  simp only [decodeMemBits, ht, hid, h7, hd, hc]

/-- What a memory-form word of op 8 decodes to, by the parts of the word that are read. -/
theorem decodeLoad_congr (hm : isMemForm f = true) (hi : f.imm.extractLsb' 4 12 = g.imm.extractLsb' 4 12)
    (hd : f.dst = g.dst) (hs : f.imm.getLsbD 4 = true → f.src = g.src) (ha : decodeAddr f = decodeAddr g) :
    decodeLoad x strict f = decodeLoad x strict g := by
  have bit (k : Nat) (hk : 4 ≤ k ∧ k < 4 + 12) : f.imm.getLsbD k = g.imm.getLsbD k := getLsbD_of_extractLsb' hi k hk
  have ht : topOf f.imm = topOf g.imm := immPart_of_extractLsb' hi 12 4 (by decide)
  have hk : f.imm.extractLsb' 8 3 = g.imm.extractLsb' 8 3 := immPart_of_extractLsb' hi 8 3 (by decide)
  have hb : (f.imm.getLsbD 4 = true ∧ f.src = 0#4) = (g.imm.getLsbD 4 = true ∧ g.src = 0#4) := by
    rw [← bit 4 (by decide)]
    exact propext (and_congr_right fun h4 => by rw [hs h4])
  simp only [isMemForm, isImmForm, bne, Bool.not_not, Bool.and_eq_true, beq_iff_eq, Bool.not_eq_true'] at hm
  obtain ⟨hkind, hss⟩ := hm
  have hscaled : decodeScaled f = decodeScaled g := by
    simp only [decodeScaled, bit 11 (by decide), hb, hd, ha, ht]
  have hunscaled : decodeUnscaled strict f = decodeUnscaled strict g := by
    have hss' : g.imm.getLsbD 11 = false := bit 11 (by decide) ▸ hss
    simp only [decodeUnscaled, hss, hss', hb, hd, ha, bit 12 (by decide), bit 13 (by decide), bit 14 (by decide),
      bit 15 (by decide), Bool.false_eq_true, if_false]
  simp only [decodeLoad, ← hk, ← bit 7 (by decide), hkind, if_true, hscaled, hunscaled]

/-! #### The masks of 30_encoding R92 -/

/-- The mask of an address: `src` under R, `ofsreg` under O. -/
def addrGate (r o : Bool) : InstrWord :=
  (if r then 0#32 else 0x0000F000#32) ||| (if o then 0#32 else 0x000F0000#32)

theorem gatedOff_count (hop : (fieldsOf w).op = 1#8 ∨ (fieldsOf w).op = 6#8) :
    gatedOff w = if (fieldsOf w).imm.getLsbD 6 then 0x0000F000#32 else 0x003F0000#32 := by
  rcases hop with hop | hop <;> simp [gatedOff, hop]

theorem gatedOff_lea (hop : (fieldsOf w).op = 5#8) :
    gatedOff w = addrGate ((fieldsOf w).imm.getLsbD 4) ((fieldsOf w).imm.getLsbD 5) |||
      (if (fieldsOf w).imm.getLsbD 7 && (fieldsOf w).imm.getLsbD 5 then 0#32 else 0xF0000000#32) := by
  simp [gatedOff, hop, addrGate]

theorem gatedOff_load (hop : (fieldsOf w).op = 8#8) :
    gatedOff w = if isMemForm (fieldsOf w) then
      addrGate ((fieldsOf w).imm.getLsbD 4) ((fieldsOf w).imm.getLsbD 5) else 0#32 := by
  simp [gatedOff, hop, addrGate]

theorem gatedOff_other (h1 : (fieldsOf w).op ≠ 1#8) (h6 : (fieldsOf w).op ≠ 6#8) (h5 : (fieldsOf w).op ≠ 5#8)
    (h8 : (fieldsOf w).op ≠ 8#8) : gatedOff w = 0#32 := by
  have hne {op : Byte} (h : (fieldsOf w).op ≠ op) : (fieldsOf w).op.toNat ≠ op.toNat :=
    fun he => h (BitVec.eq_of_toNat_eq he)
  simp only [gatedOff]
  split
  next h => exact absurd h (hne h1)
  next h => exact absurd h (hne h6)
  next h => exact absurd h (hne h5)
  next h => exact absurd h (hne h8)
  next => rfl

/-! #### Words that agree outside the mask -/

theorem AgreeOutside.op_dst {mask : InstrWord} (h : AgreeOutside mask w v) (hm : mask.extractLsb' 0 12 = 0#12) :
    (fieldsOf w).op = (fieldsOf v).op ∧ (fieldsOf w).dst = (fieldsOf v).dst := by
  have hlow := h.field 0 12 hm
  have hop (u : InstrWord) : (fieldsOf u).op = (u.extractLsb' 0 12).extractLsb' 0 8 :=
    (extractLsb'_extractLsb' u 0 12 0 8 (by decide)).symm
  have hdst (u : InstrWord) : (fieldsOf u).dst = (u.extractLsb' 0 12).extractLsb' 8 4 :=
    (extractLsb'_extractLsb' u 0 12 8 4 (by decide)).symm
  rw [hop, hop, hdst, hdst, hlow]
  exact ⟨rfl, rfl⟩

/-- A count or position is decoded alike from words that agree outside the gated-off field. -/
theorem count_agree (hop : (fieldsOf w).op = 1#8 ∨ (fieldsOf w).op = 6#8) (h : AgreeOutside (gatedOff w) w v) :
    (fieldsOf w).imm.extractLsb' 6 10 = (fieldsOf v).imm.extractLsb' 6 10 ∧ (fieldsOf w).op = (fieldsOf v).op ∧
      (fieldsOf w).dst = (fieldsOf v).dst ∧
      decodeCount x strict (fieldsOf w) = decodeCount x strict (fieldsOf v) := by
  rw [gatedOff_count hop] at h
  have hi : (fieldsOf w).imm.extractLsb' 6 10 = (fieldsOf v).imm.extractLsb' 6 10 :=
    h.immField 6 10 (by decide) (by split <;> rfl)
  obtain ⟨hop, hdst⟩ := h.op_dst (by split <;> rfl)
  refine ⟨hi, hop, hdst, decodeCount_congr (getLsbD_of_extractLsb' hi 6 (by decide)) (fun h6 => ?_) fun h6 => ?_⟩
  · rw [h6] at h
    exact h.field 12 4 rfl
  · rw [h6] at h
    exact h.immField 0 6 (by decide) rfl

/-- So is an address, whatever else the mask holds above bit 27. -/
theorem addr_agree {top : InstrWord} (htop : top = 0#32 ∨ top = 0xF0000000#32)
    (h : AgreeOutside (addrGate ((fieldsOf w).imm.getLsbD 4) ((fieldsOf w).imm.getLsbD 5) ||| top) w v) :
    (fieldsOf w).op = (fieldsOf v).op ∧ (fieldsOf w).dst = (fieldsOf v).dst ∧
      (fieldsOf w).imm.extractLsb' 4 8 = (fieldsOf v).imm.extractLsb' 4 8 ∧
      ((fieldsOf w).imm.getLsbD 4 = true → (fieldsOf w).src = (fieldsOf v).src) ∧
      decodeAddr (fieldsOf w) = decodeAddr (fieldsOf v) := by
  have hlow : ∀ r o, (addrGate r o ||| top).extractLsb' 0 12 = 0#12 := by rcases htop with rfl | rfl <;> decide
  have hmid : ∀ r o, (addrGate r o ||| top).extractLsb' 20 8 = 0#8 := by rcases htop with rfl | rfl <;> decide
  have hsrc : ∀ o, (addrGate true o ||| top).extractLsb' 12 4 = 0#4 := by rcases htop with rfl | rfl <;> decide
  have hofs : ∀ r, (addrGate r true ||| top).extractLsb' 16 4 = 0#4 := by rcases htop with rfl | rfl <;> decide
  obtain ⟨hop, hdst⟩ := h.op_dst (hlow _ _)
  have hi : (fieldsOf w).imm.extractLsb' 4 8 = (fieldsOf v).imm.extractLsb' 4 8 :=
    h.immField 4 8 (by decide) (hmid _ _)
  have hs (h4 : (fieldsOf w).imm.getLsbD 4 = true) : (fieldsOf w).src = (fieldsOf v).src := by
    rw [h4] at h
    exact h.field 12 4 (hsrc _)
  have ho (h5 : (fieldsOf w).imm.getLsbD 5 = true) :
      (fieldsOf w).imm.extractLsb' 0 4 = (fieldsOf v).imm.extractLsb' 0 4 := by
    rw [h5] at h
    exact h.immField 0 4 (by decide) (hofs _)
  exact ⟨hop, hdst, hi, hs, decodeAddr_congr (immPart_of_extractLsb' hi 4 4 (by decide)) hs ho⟩

/-- Outside op 5 the decoder answers the same to words that agree outside the gated-off fields. -/
theorem decodeWord_agree (hop : (fieldsOf w).op ≠ 5#8) (h : AgreeOutside (gatedOff w) w v) :
    decodeWord x strict w = decodeWord x strict v := by
  by_cases h1 : (fieldsOf w).op = 1#8
  · obtain ⟨hi, hop', hd, hc⟩ := count_agree (.inl h1) h
    rw [decodeWord_of_op1 h1, decodeWord_of_op1 (hop' ▸ h1), decodeShift_congr hi hd hc]
  by_cases h6 : (fieldsOf w).op = 6#8
  · obtain ⟨hi, hop', hd, hc⟩ := count_agree (.inr h6) h
    rw [decodeWord_of_op6 h6, decodeWord_of_op6 (hop' ▸ h6), decodeMemBits_congr hi hd hc]
  by_cases h8 : (fieldsOf w).op = 8#8
  · rw [gatedOff_load h8] at h
    cases hm : isMemForm (fieldsOf w) with
    | false =>
      simp only [hm, Bool.false_eq_true, if_false] at h
      rw [h.eq]
    | true =>
      simp only [hm, if_true] at h
      have htop : (fieldsOf w).imm.extractLsb' 4 12 = (fieldsOf v).imm.extractLsb' 4 12 := by
        have hmask : ∀ r o, (addrGate r o).extractLsb' (16 + 4) 12 = 0#12 := by decide
        exact h.immField 4 12 (by decide) (hmask _ _)
      rw [← BitVec.or_zero (x := addrGate _ _)] at h
      obtain ⟨hop', hd, -, hs, ha⟩ := addr_agree (.inl rfl) h
      rw [decodeWord_of_op8 h8, decodeWord_of_op8 (hop' ▸ h8), decodeLoad_congr hm htop hd hs ha]
  · rw [gatedOff_other h1 h6 hop h8] at h
    rw [h.eq]

/-! #### LEA -/

/-- The shift count has nothing to shift when there is no offset register (R94). -/
theorem exec_lea_congr {a : AddrOperand} {k l : Option (BitVec 4)} (h : a.ofs = none ∨ k = l) (d : RegNum)
    (ext : Longword) (s : State) : exec ((Instr.lea d a k).withExt ext) s = exec ((Instr.lea d a l).withExt ext) s := by
  rcases h with h | rfl
  · simp [Instr.withExt, exec, execLea, Mach.effAddr, Mach.indexOf, h]
  · rfl

/-- Words of op 5 that agree outside the gated-off fields have the same ID, `dst` and address, and the same shift count
where there is an offset register. -/
theorem lea_agree (hop : (fieldsOf w).op = 5#8) (h : AgreeOutside (gatedOff w) w v) :
    (fieldsOf w).op = (fieldsOf v).op ∧ (fieldsOf w).dst = (fieldsOf v).dst ∧
      idOf (fieldsOf w).imm = idOf (fieldsOf v).imm ∧ decodeAddr (fieldsOf w) = decodeAddr (fieldsOf v) ∧
      ((decodeAddr (fieldsOf w)).ofs = none ∨ leaScale (fieldsOf w) = leaScale (fieldsOf v)) := by
  rw [gatedOff_lea hop] at h
  obtain ⟨hop', hd, hi, -, ha⟩ := addr_agree (by split <;> simp) h
  refine ⟨hop', hd, immPart_of_extractLsb' hi 8 4 (by decide), ha, ?_⟩
  cases h5 : (fieldsOf w).imm.getLsbD 5 with
  | false => exact .inl (by simp only [decodeAddr, h5, Bool.false_eq_true, if_false])
  | true =>
    refine .inr ?_
    have h7 := getLsbD_of_extractLsb' hi 7 (by decide)
    cases hs : (fieldsOf w).imm.getLsbD 7 with
    | false => simp only [leaScale, ← h7, hs, Bool.false_eq_true, if_false]
    | true =>
      have hmask : ∀ r o, (addrGate r o ||| 0#32).extractLsb' (16 + 12) 4 = 0#4 := by decide
      simp only [h5, hs, Bool.and_self, if_true] at h
      have ht : topOf (fieldsOf w).imm = topOf (fieldsOf v).imm := h.immField 12 4 (by decide) (hmask _ _)
      simp only [leaScale, ← h7, hs, if_true, ht]

/-- Settles O60: outside op 5 the two decodings are one; in op 5 they may differ in a shift count without effect. -/
theorem gatedFieldsAreIgnored : Obligations.GatedFieldsAreIgnored := by
  intro x strict w v hxor
  have h := agreeOutside_of_xor hxor
  by_cases hop : (fieldsOf w).op = 5#8
  · obtain ⟨hop', hd, hid, ha, hk⟩ := lea_agree hop h
    have hlea (u : InstrWord) (hu : (fieldsOf u).op = 5#8) : decodeWord x strict u =
        if idOf (fieldsOf u).imm ≠ 0#4 then .error .reservedId
        else if (fieldsOf u).dst = 0#4 then .error .dstZero
        else .ok (.lea (fieldsOf u).dst (decodeAddr (fieldsOf u)) (leaScale (fieldsOf u))) := decodeWord_of_op5 hu
    rw [hlea w hop, hlea v (hop' ▸ hop), ← hd, ← hid, ← ha]
    split
    next => exact ⟨fun _ he => he, nofun⟩
    next =>
      split
      next => exact ⟨fun _ he => he, nofun⟩
      next =>
        refine ⟨nofun, fun i hi => ?_⟩
        cases hi
        exact ⟨_, rfl, rfl, exec_lea_congr (hk.imp_right Eq.symm) _⟩
  · rw [← decodeWord_agree hop h]
    exact ⟨fun _ he => he, fun i hi => ⟨i, hi, rfl, fun _ _ => rfl⟩⟩

end Gates

/-! ### Hints, and the address of a load -/

section LoadsAndHints

variable {x : Xlen}

/-- The memory-form words of a load into register 0: reserved under either setting of STRICT_RESERVED (R97 item 2). -/
theorem reservedAlways_wordLoad {top : BitVec 4} {sh : Bool} (hd : sh = true ∨ top.getLsbD 0 = false)
    (a : AddrOperand) : reservedAlways x (wordLoad top false sh 0#4 a) = true := by
  have hf : fieldsOf (wordLoad top false sh 0#4 a) = loadFields top sh 0#4 a := fieldsOf_wordOf _
  have h12 : (loadFields top sh 0#4 a).imm.getLsbD 12 = top.getLsbD 0 := by
    rw [getLsbD_topOf _ 0 (by decide), loadFields_topOf]
  have hdst : (loadFields top sh 0#4 a).dst = 0#4 := rfl
  have hr : registerOutOfRange (loadFields top sh 0#4 a) = true := by
    rw [registerOutOfRange_load rfl, loadFields_sh, loadFields_ss, h12, hdst]
    rcases hd with rfl | hd
    · simp
    · simp [-BitVec.getLsbD_eq_getElem, hd]
  simp [reservedAlways, hf, hr]

/-- Settles O37: the laws of LDX from a system register, of the loads, and the reserved words of op 8. -/
theorem hintsOnlyAdvancePc : Obligations.HintsOnlyAdvancePc := by
  intro x m
  refine ⟨fun _ _ _ => rfl, ?_, fun n hn => ?_, fun _ _ _ _ => rfl, fun _ _ _ _ => rfl, fun strict a mode => ⟨?_, ?_⟩⟩
  · exact congrArg (fun m' => Host.Outcome.next (⟨x, m'⟩ : State)) (sysToReg_msw m 0#4)
  · exact ⟨_, rfl, sysToReg_reserved m n 0#4 hn⟩
  · exact decodeWord_of_reservedAlways (reservedAlways_wordLoad (.inr rfl) a)
  · cases mode with
    | cached l1 l2 =>
      have h0 := (getLsbD_cacheBits l2 l1 false).1
      exact decodeWord_of_reservedAlways (reservedAlways_wordLoad (.inr h0) a)
    | scaled n => exact decodeWord_of_reservedAlways (reservedAlways_wordLoad (.inl rfl) a)

/-- LEA leaves the effective address in its register (45_lea R186). -/
theorem reg_of_exec_lea {m m' : Mach x.bits} {d : RegNum} {a : AddrOperand} {k : Option (BitVec 4)} (hd : d ≠ 0#4)
    (h : exec (.lea d a k) ⟨x, m⟩ = .next ⟨x, m'⟩) : m'.reg d = m.effAddr a (scaleOf k) := by
  cases h
  simp [Mach.reg_writeReg, hd]

/-- A load from an accessible word leaves that word in its register (47_loads R225). -/
theorem reg_of_loadMem {m : Mach x.bits} {d : RegNum} {a : AddrOperand} {k : Nat} (hd : d ≠ 0#4)
    (h : Accessible m (m.effAddr a k)) : (loadMem m d a k).reg d = m.wordAt (m.effAddr a k).toNat := by
  simp [loadMem_accessible m d a k h, Mach.reg_writeReg, hd]

/-- Settles O47: LEA's register is the address that the loads read at, by the laws of `loadMem` and `memToSys`. -/
theorem leaComputesTheLoadAddress : Obligations.LeaComputesTheLoadAddress := by
  intro x m m1 m2 d e a s hd he hlea hacc
  rw [reg_of_exec_lea he hlea] at hacc ⊢
  refine ⟨?_, ?_⟩
  · rintro n rfl hload
    cases hload
    exact reg_of_loadMem hd hacc
  · rintro rfl
    refine ⟨?_, fun l1 l2 => ?_, fun l1 l2 hload => ?_⟩
    · intro hload
      cases hload
      exact reg_of_loadMem hd hacc
    · intro hload
      cases hload
      exact reg_of_loadMem hd hacc
    · cases hload
      rw [memToSys_accessible m a hacc]
      rfl

end LoadsAndHints

end Sys2Proof
end

section
/-! PROOF. The statements of 40_logical: what each logical function leaves in its register, bit by bit, and the words
that the family files write out. -/

namespace Sys2Proof.Machine

variable {W : Nat}

/-- The word function `f` decides each place of its result by `g`, from the bits of its operands in the same place. -/
def Bitwise (f : BitVec W → BitVec W → BitVec W) (g : Bool → Bool → Bool) : Prop :=
  ∀ a b, ∀ k < W, (f a b).getLsbD k = g (a.getLsbD k) (b.getLsbD k)

theorem bitwise_fst : Bitwise (W := W) (fun a _ => a) (fun p _ => p) :=
  fun _ _ _ _ => rfl

theorem bitwise_or : Bitwise (W := W) (fun a b => a ||| b) (fun p q => p || q) :=
  fun _ _ _ _ => BitVec.getLsbD_or

theorem bitwise_and : Bitwise (W := W) (fun a b => a &&& b) (fun p q => p && q) :=
  fun _ _ _ _ => BitVec.getLsbD_and

theorem bitwise_xor : Bitwise (W := W) (fun a b => a ^^^ b) (fun p q => p != q) :=
  fun _ _ _ _ => BitVec.getLsbD_xor

theorem Bitwise.not {f : BitVec W → BitVec W → BitVec W} {g : Bool → Bool → Bool} (h : Bitwise f g) :
    Bitwise (fun a b => ~~~f a b) (fun p q => !g p q) := by
  intro a b k hk
  simp only [BitVec.getLsbD_not, hk, decide_true, Bool.true_and, h a b k hk]

theorem bitwise_xnor : Bitwise (W := W) (fun a b => ~~~(a ^^^ b)) (fun p q => p == q) := by
  have hbeq : (fun p q : Bool => p == q) = fun p q => !(p != q) := by simp [bne]
  rw [hbeq]
  exact bitwise_xor.not

/-- An instruction of the family's shape completes and writes `dst` alone (40_logical R120). -/
theorem logical_result {x : Xlen} {m : Mach x.bits} {i : Instr} {d r : RegNum}
    {f : BitVec x.bits → BitVec x.bits → BitVec x.bits} {g : Bool → Bool → Bool} (hf : Bitwise f g)
    (hi : exec i ⟨x, m⟩ = .next ⟨x, logical m d r f⟩) :
    ∃ m' v, exec i ⟨x, m⟩ = .next ⟨x, m'⟩ ∧ Effect m m' d v m.flags 4 ∧
      ∀ k < x.bits, v.getLsbD k = g ((m.reg d).getLsbD k) ((m.reg r).getLsbD k) :=
  ⟨_, _, hi, logical_effect m d r f, hf _ _⟩

/-- Settles O24: each function is of the family's shape, NOT with a source it does not look at, and its word function
works place by place. -/
theorem logicalFunctionResults : Obligations.LogicalFunctionResults :=
  fun _ _ _ _ =>
    ⟨logical_result bitwise_fst.not rfl, logical_result bitwise_or rfl, logical_result bitwise_and rfl,
      logical_result bitwise_xor rfl, logical_result bitwise_or.not rfl, logical_result bitwise_xnor rfl,
      logical_result bitwise_and.not rfl⟩

end Sys2Proof.Machine

namespace Sys2Proof

/-- The word that the encoder gives a well-formed instruction without extension data decodes to that instruction. -/
theorem decodeWord_of_encodeWord {x : Xlen} {strict : Bool} {w : InstrWord} {i : Instr} (h : WellFormed x i)
    (hext : i.withExt 0#64 = i) (hw : encodeWord i = w) : decodeWord x strict w = .ok i := by
  have hdec : Decodes x strict (fieldsOf (encodeWord i)) (i.withExt 0#64) := decodes_encodeWord h
  rw [hext, hw] at hdec
  exact decodeWord_of_decodes id hdec

/-- Settles O4: each word is the encoding of its instruction, which is well-formed and has no extension data. -/
theorem ruleWordsDecode : Obligations.RuleWordsDecode := by
  unfold Obligations.RuleWordsDecode
  and_intros
  all_goals exact decodeWord_of_encodeWord rfl rfl (by decide)

end Sys2Proof
end

section
/-! PROOF. The statements of 41_shift_rotate: where each shift and rotation moves the bits, and which rotations are
inverse to each other. -/

namespace Sys2Proof.Machine

variable {W : Nat}

/-! ### Where the bits go -/

theorem getLsbD_sll (v : BitVec W) (n : Nat) {k : Nat} (hk : k < W) :
    (v <<< n).getLsbD k = if k < n then false else v.getLsbD (k - n) := by
  rw [BitVec.getLsbD_shiftLeft]
  by_cases h : k < n
  · simp [h]
  · simp only [h, hk, decide_true, decide_false, Bool.not_false, Bool.true_and, if_false]

theorem getLsbD_srl (v : BitVec W) (n k : Nat) :
    (v >>> n).getLsbD k = if k + n < W then v.getLsbD (k + n) else false := by
  rw [BitVec.getLsbD_ushiftRight, Nat.add_comm n k]
  split
  · rfl
  · exact BitVec.getLsbD_of_ge v _ (by omega)

theorem getLsbD_sar (v : BitVec W) (n : Nat) {k : Nat} (hk : k < W) :
    (v.sshiftRight n).getLsbD k = if k + n < W then v.getLsbD (k + n) else v.getLsbD (W - 1) := by
  rw [BitVec.getLsbD_sshiftRight, Nat.add_comm n k, BitVec.msb_eq_getLsbD_last]
  simp [hk]

/-- The place `n` above place `k`: below the top, or wrapped once. -/
theorem add_mod_cases {n k : Nat} (hn : n < W) (hk : k < W) :
    k + n < W ∧ (k + n) % W = k + n ∨ W ≤ k + n ∧ (k + n) % W = k + n - W := by
  rcases Nat.lt_or_ge (k + n) W with h | h
  · exact .inl ⟨h, Nat.mod_eq_of_lt h⟩
  · refine .inr ⟨h, ?_⟩
    rw [Nat.mod_eq_sub_mod h, Nat.mod_eq_of_lt (by omega)]

/-- ROL takes bit `k` to the place `n` above it (R135). -/
theorem getLsbD_rotl (v : BitVec W) {n k : Nat} (hn : n < W) (hk : k < W) :
    (rotl v n).getLsbD ((k + n) % W) = v.getLsbD k := by
  unfold rotl
  split
  · next h0 => rw [h0, Nat.add_zero, Nat.mod_eq_of_lt hk]
  · rcases add_mod_cases hn hk with ⟨h, e⟩ | ⟨h, e⟩
    · have hout : v.getLsbD (W - n + (k + n)) = false := BitVec.getLsbD_of_ge v _ (by omega)
      simp [e, h, hout, hk]
    · have hback : W - n + (k + n - W) = k := by omega
      simp [e, hback, show k + n - W < n by omega]

/-- ROR brings to place `k` the bit from `n` above it (R136). -/
theorem getLsbD_rotr (v : BitVec W) {n k : Nat} (hn : n < W) (hk : k < W) :
    (rotr v n).getLsbD k = v.getLsbD ((k + n) % W) := by
  unfold rotr
  split
  · next h0 => rw [h0, Nat.add_zero, Nat.mod_eq_of_lt hk]
  · rcases add_mod_cases hn hk with ⟨h, e⟩ | ⟨h, e⟩
    · simp [e, Nat.add_comm n k, show k < W - n by omega]
    · have hout : v.getLsbD (n + k) = false := BitVec.getLsbD_of_ge v _ (by omega)
      have hback : k - (W - n) = k + n - W := by omega
      simp [e, hout, hback, hk, show ¬ k < W - n by omega, show k + n - W < W by omega]

/-! ### Rotations that undo each other -/

theorem rotr_rotl (v : BitVec W) {n : Nat} (hn : n < W) : rotr (rotl v n) n = v := by
  apply BitVec.eq_of_getLsbD_eq
  intro k hk
  rw [getLsbD_rotr _ hn hk, getLsbD_rotl v hn hk]

/-- Every place is `n` above some place. -/
theorem exists_add_mod {n j : Nat} (hn : n < W) (hj : j < W) : ∃ k < W, (k + n) % W = j := by
  rcases Nat.lt_or_ge j n with h | h
  · refine ⟨j + W - n, by omega, ?_⟩
    rw [show j + W - n + n = j + W by omega, Nat.add_mod_right, Nat.mod_eq_of_lt hj]
  · exact ⟨j - n, by omega, by rw [Nat.sub_add_cancel h, Nat.mod_eq_of_lt hj]⟩

theorem rotl_rotr (v : BitVec W) {n : Nat} (hn : n < W) : rotl (rotr v n) n = v := by
  apply BitVec.eq_of_getLsbD_eq
  intro j hj
  obtain ⟨k, hk, rfl⟩ := exists_add_mod hn hj
  rw [getLsbD_rotl _ hn hk, getLsbD_rotr v hn hk]

/-! ### The W+1-bit value -/

theorem getLsbD_withCarry (cf : Bool) (v : BitVec W) (k : Nat) :
    (withCarry cf v).getLsbD k = carryBit cf v k := by
  simp [withCarry, carryBit, BitVec.getLsbD_cons]

theorem withCarry_getLsbD_top (cf : Bool) (v : BitVec W) : (withCarry cf v).getLsbD W = cf :=
  (getLsbD_withCarry cf v W).trans (if_pos rfl)

theorem withCarry_setWidth (cf : Bool) (v : BitVec W) : (withCarry cf v).setWidth W = v :=
  BitVec.setWidth_cons

/-- Cutting a W+1-bit value into CF and a register loses nothing (R137). -/
theorem withCarry_split (t : BitVec (W + 1)) : withCarry (t.getLsbD W) (t.setWidth W) = t := by
  have h := BitVec.cons_msb_setWidth t
  rwa [BitVec.msb_eq_getLsbD_last] at h

/-! ### The instructions -/

theorem countAmount_lt (x : Xlen) (m : Mach x.bits) (c : Count) : countAmount m c < x.bits :=
  countOf_eq x m c ▸ countOf_lt x m c

/-- A shift or plain rotation completes and writes `dst` alone; what holds of the shifted value, with the count of R131,
holds of what it writes. -/
theorem shiftPlain_result {x : Xlen} {m : Mach x.bits} {i : Instr} {d : RegNum} {c : Count}
    {f : BitVec x.bits → Nat → BitVec x.bits} {P : BitVec x.bits → Prop}
    (hi : exec i ⟨x, m⟩ = .next ⟨x, shiftPlain m d c f⟩) (hP : P (f (m.reg d) (countAmount m c))) :
    ∃ m' u, exec i ⟨x, m⟩ = .next ⟨x, m'⟩ ∧ Effect m m' d u m.flags 4 ∧ P u :=
  ⟨_, _, hi, shiftPlain_effect m d c f, by rwa [countOf_eq]⟩

/-- A rotation through carry completes and writes `dst` and CF alone, which together are the W+1-bit value rotated by the
count of R131. -/
theorem shiftCarry_result {x : Xlen} {m : Mach x.bits} {i : Instr} {d : RegNum} {c : Count}
    {f : BitVec (x.bits + 1) → Nat → BitVec (x.bits + 1)} {P : BitVec x.bits → Bool → Prop}
    (hi : exec i ⟨x, m⟩ = .next ⟨x, shiftCarry m d c f⟩)
    (hP : ∀ u cf, withCarry cf u = f (withCarry m.flags.CF (m.reg d)) (countAmount m c) → P u cf) :
    ∃ m' u cf, exec i ⟨x, m⟩ = .next ⟨x, m'⟩ ∧ Effect m m' d u { m.flags with CF := cf } 4 ∧ P u cf :=
  ⟨_, _, _, hi, shiftCarry_effect m d c f, hP _ _ (by rw [withCarry_split, countOf_eq])⟩

/-- Settles O25: each shift is of the plain shape, and its word function places the bits so. -/
theorem shiftResults : Obligations.ShiftResults :=
  fun _ _ _ _ =>
    ⟨shiftPlain_result rfl fun _ hk => getLsbD_sll _ _ hk, shiftPlain_result rfl fun _ _ => getLsbD_srl _ _ _,
      shiftPlain_result rfl fun _ hk => getLsbD_sar _ _ hk⟩

/-- Settles O26: both are of the plain shape, and the count is below W. -/
theorem rotateResults : Obligations.RotateResults :=
  fun x m _ c =>
    have hn := countAmount_lt x m c
    ⟨shiftPlain_result rfl fun _ hk => getLsbD_rotl _ hn hk, shiftPlain_result rfl fun _ hk => getLsbD_rotr _ hn hk⟩

/-- Settles O27: both are of the shape through carry, and the rotations are those of O26 at width W+1. -/
theorem carryRotateResults : Obligations.CarryRotateResults := by
  intro x m d c v n
  have hn : n < x.bits + 1 := Nat.lt_succ_of_lt (countAmount_lt x m c)
  refine ⟨shiftCarry_result rfl fun u cf h k hk => ?_, shiftCarry_result rfl fun u cf h k hk => ?_⟩
  · rw [← getLsbD_withCarry, h, getLsbD_rotl _ hn hk, getLsbD_withCarry]
  · rw [← getLsbD_withCarry, h, getLsbD_rotr _ hn hk, getLsbD_withCarry]

/-! ### Undoing an instruction -/

/-- The count operand selects the same after an instruction that wrote only another register. -/
theorem Effect.countOf_kept {m m' : Mach W} {d : RegNum} {v : BitVec W} {f : Flags} {len : Nat} {c : Count}
    (h : Effect m m' d v f len) (hc : c ≠ .reg d) : m'.countOf c = m.countOf c := by
  refine countOf_congr c ?_
  rintro r rfl
  have hr : r ≠ d := fun e => hc (congrArg Count.reg e)
  simp [h.regs, hr]

/-- Two instructions that write `d`, the second what was there before the first, leave every register as it was. -/
theorem Effect.regs_undo {m m1 m2 : Mach W} {d : RegNum} {v : BitVec W} {f f' : Flags} {len len' : Nat}
    (h1 : Effect m m1 d v f len) (h2 : Effect m1 m2 d (m.reg d) f' len') (r : RegNum) : m2.reg r = m.reg r := by
  rw [h2.regs, h1.regs]
  by_cases hr : r = d
  · by_cases hd : d = 0#4 <;> simp [hr, hd]
  · simp [hr]

/-- A plain rotation by an inverse of `f`, with the same count, gives back the registers and the flags. -/
theorem shiftPlain_undo {m : Mach W} {d : RegNum} {c : Count} {f g : BitVec W → Nat → BitVec W}
    (hgf : ∀ v, g (f v (m.countOf c)) (m.countOf c) = v) (hc : c ≠ .reg d) (hd : d ≠ 0#4) :
    (∀ r, (shiftPlain (shiftPlain m d c f) d c g).reg r = m.reg r) ∧
      (shiftPlain (shiftPlain m d c f) d c g).flags = m.flags := by
  have h1 := shiftPlain_effect m d c f
  have h2 := shiftPlain_effect (shiftPlain m d c f) d c g
  rw [h1.countOf_kept hc, h1.regs, if_pos ⟨rfl, hd⟩, hgf] at h2
  exact ⟨h1.regs_undo h2, h2.flags.trans h1.flags⟩

/-- So does one through carry. -/
theorem shiftCarry_undo {m : Mach W} {d : RegNum} {c : Count} {f g : BitVec (W + 1) → Nat → BitVec (W + 1)}
    (hgf : ∀ t, g (f t (m.countOf c)) (m.countOf c) = t) (hc : c ≠ .reg d) (hd : d ≠ 0#4) :
    (∀ r, (shiftCarry (shiftCarry m d c f) d c g).reg r = m.reg r) ∧
      (shiftCarry (shiftCarry m d c f) d c g).flags = m.flags := by
  have h1 := shiftCarry_effect m d c f
  have h2 := shiftCarry_effect (shiftCarry m d c f) d c g
  rw [h1.countOf_kept hc, h1.regs, if_pos ⟨rfl, hd⟩, h1.flags, withCarry_split, hgf, withCarry_setWidth,
    withCarry_getLsbD_top] at h2
  exact ⟨h1.regs_undo h2, h2.flags⟩

/-- Settles O28: the word functions are inverse at the count, which the first instruction does not change. -/
theorem rotationsUndoEachOther : Obligations.RotationsUndoEachOther := by
  intro x m m1 m2 d c hc hrun hd
  have hn := countOf_lt x m c
  rcases hrun with ⟨h1, h2⟩ | ⟨h1, h2⟩
  · cases h1
    cases h2
    exact shiftPlain_undo (fun v => rotl_rotr v hn) hc hd
  · cases h1
    cases h2
    exact shiftCarry_undo (fun t => rotr_rotl t (Nat.lt_succ_of_lt hn)) hc hd

end Sys2Proof.Machine
end

section
/-! PROOF. The statement of 42_compare: the four flags of CMP as the signed and unsigned comparisons of R146, and the
borrow and signed overflow of a subtraction, which SUB shares. -/

namespace Sys2Proof.Machine

variable {W : Nat}

/-! ### Signed overflow of a subtraction -/

/-- The sign test of R146 and 43_arithmetic R154 for the signed overflow of `b - a` is the library's overflow test. -/
theorem subOverflow_eq_ssubOverflow (b a : BitVec W) :
    (b.msb != a.msb && (b - a).msb != b.msb) = BitVec.ssubOverflow b a := by
  rw [BitVec.ssubOverflow_eq]
  cases b.msb <;> cases a.msb <;> simp

/-- Signed overflow: the exact difference is outside the signed range. -/
theorem ssubOverflow_iff (b a : BitVec W) : BitVec.ssubOverflow b a = true ↔
    b.toInt - a.toInt < -(2 ^ (W - 1)) ∨ 2 ^ (W - 1) ≤ b.toInt - a.toInt := by
  simp only [BitVec.ssubOverflow, Bool.or_eq_true, decide_eq_true_eq, ge_iff_le]
  exact or_comm

/-- `LT = d[W-1] xor OF` (R146): operands of one sign do not overflow, so the difference has the sign of the exact one;
operands of different signs compare as the sign of `b` says, and OF is set when `d` has the other. -/
theorem slt_eq_msb_sub_bne_ssubOverflow (b a : BitVec W) :
    b.slt a = ((b - a).msb != BitVec.ssubOverflow b a) := by
  by_cases hsign : b.msb = a.msb
  · have hov : BitVec.ssubOverflow b a = false := by simp [← subOverflow_eq_ssubOverflow, hsign]
    have hsub : (b - a).toInt = b.toInt - a.toInt := BitVec.toInt_sub_of_not_ssubOverflow (by simp [hov])
    rw [hov, Bool.bne_false, BitVec.msb_eq_toInt, hsub, BitVec.slt_eq_decide, decide_eq_decide]
    omega
  · have hslt : b.slt a = b.msb := by
      rw [BitVec.slt_eq_not_ult_of_msb_neq hsign, BitVec.ult_eq_msb_of_msb_neq hsign]
      exact (Bool.eq_not.2 hsign).symm
    have hov : BitVec.ssubOverflow b a = ((b - a).msb != b.msb) := by
      rw [← subOverflow_eq_ssubOverflow, bne_iff_ne.2 hsign, Bool.true_and]
    rw [hslt, hov, ← Bool.bne_assoc, bne_self_eq_false, Bool.false_bne]

/-! ### The flags of CMP -/

theorem cmpFlags_ZF_iff (a b : BitVec W) : (cmpFlags a b).ZF = true ↔ a.toNat = b.toNat :=
  beq_iff_eq.trans BitVec.toNat_inj.symm

theorem cmpFlags_LT_iff (a b : BitVec W) : (cmpFlags a b).LT = true ↔ b.toInt < a.toInt :=
  BitVec.slt_iff_toInt_lt

theorem cmpFlags_CF_iff (a b : BitVec W) : (cmpFlags a b).CF = true ↔ b.toNat < a.toNat :=
  BitVec.ult_iff_toNat_lt

theorem cmpFlags_OF (a b : BitVec W) : (cmpFlags a b).OF = BitVec.ssubOverflow b a :=
  subOverflow_eq_ssubOverflow b a

theorem cmpFlags_OF_iff (a b : BitVec W) : (cmpFlags a b).OF = true ↔
    b.toInt - a.toInt < -(2 ^ (W - 1)) ∨ 2 ^ (W - 1) ≤ b.toInt - a.toInt := by
  rw [cmpFlags_OF, ssubOverflow_iff]

theorem cmpFlags_LT_eq (a b : BitVec W) :
    (cmpFlags a b).LT = ((b - a).getLsbD (W - 1) != (cmpFlags a b).OF) := by
  rw [cmpFlags_OF, ← BitVec.msb_eq_getLsbD_last]
  exact slt_eq_msb_sub_bne_ssubOverflow b a

/-! ### The instruction -/

/-- An instruction that only writes the flags, as CMP does: no register changes. -/
theorem setFlags_advance_effect (m : Mach W) (f : Flags) (n : Nat) :
    Effect m ((m.setFlags f).advance n) 0#4 0#W f n := by
  constructor <;> simp

/-- Settles O29: CMP only writes the flags, and each is the comparison that the rule names. -/
theorem compareSetsTheFourFlags : Obligations.CompareSetsTheFourFlags :=
  fun _ m d r =>
    let a := m.reg d
    let b := m.reg r
    ⟨_, cmpFlags a b, rfl, setFlags_advance_effect m _ 4, cmpFlags_ZF_iff a b, cmpFlags_LT_iff a b,
      cmpFlags_CF_iff a b, cmpFlags_OF_iff a b, cmpFlags_LT_eq a b⟩

end Sys2Proof.Machine
end

section
/-! PROOF. The statements of 43_arithmetic: the results of op 3 as numbers, CF and OF of INC, DEC, ADD, SUB and MUL as
carry, borrow and overflow of the exact result, and what joins quotient and remainder. -/

namespace Sys2Proof.Machine

variable {W : Nat}

/-! ### Sums and differences as numbers -/

theorem toNat_add_one (a : BitVec W) : (a + 1#W).toNat = (a.toNat + 1) % 2 ^ W := by
  rw [BitVec.toNat_add, BitVec.toNat_ofNat, Nat.add_mod_mod]

/-- A difference modulo 2^W, with the 2^W that keeps it from going below 0 added to the first operand. -/
theorem toNat_sub_eq (a b : BitVec W) : (a - b).toNat = (a.toNat + 2 ^ W - b.toNat) % 2 ^ W := by
  have hb := b.isLt
  rw [BitVec.toNat_sub, show 2 ^ W - b.toNat + a.toNat = a.toNat + 2 ^ W - b.toNat by omega]

theorem toNat_sub_one (hW : 0 < W) (a : BitVec W) : (a - 1#W).toNat = (a.toNat + (2 ^ W - 1)) % 2 ^ W := by
  have hpos := Nat.two_pow_pos W
  rw [toNat_sub_eq, BitVec.toNat_one hW, Nat.add_sub_assoc hpos]

/-! ### Carry and signed overflow of INC, DEC, ADD and SUB -/

theorem incFlags_CF_iff (a : BitVec W) : (incFlags a).CF = true ↔ 2 ^ W ≤ a.toNat + 1 := by
  have ha := a.isLt
  simp only [incFlags, decide_eq_true_eq]
  omega

theorem decFlags_CF_iff (a : BitVec W) : (decFlags a).CF = true ↔ a.toNat < 1 := by
  simp only [decFlags, decide_eq_true_eq, Nat.lt_one_iff]

/-- The largest positive value is the one whose successor is outside the signed range (R151). -/
theorem incFlags_OF_iff (hW : 0 < W) (a : BitVec W) : (incFlags a).OF = true ↔ 2 ^ (W - 1) ≤ a.toInt + 1 := by
  have hpow := Nat.two_pow_pred_mul_two hW
  have ha := a.isLt
  simp only [incFlags, decide_eq_true_eq, BitVec.toInt_eq_toNat_cond, ← Nat.cast_ofNat (R := Int), ← Nat.cast_pow]
  split <;> omega

/-- The most negative value is the one whose predecessor is outside the signed range (R152). -/
theorem decFlags_OF_iff (hW : 0 < W) (a : BitVec W) : (decFlags a).OF = true ↔ a.toInt - 1 < -(2 ^ (W - 1)) := by
  have hpow := Nat.two_pow_pred_mul_two hW
  have ha := a.isLt
  simp only [decFlags, decide_eq_true_eq, BitVec.toInt_eq_toNat_cond, ← Nat.cast_ofNat (R := Int), ← Nat.cast_pow]
  split <;> omega

theorem addFlags_CF_iff (a b : BitVec W) : (addFlags a b).CF = true ↔ 2 ^ W ≤ a.toNat + b.toNat :=
  decide_eq_true_iff

/-- The sign test of R153 is the library's overflow test: the exact sum is outside the signed range. -/
theorem addFlags_OF_iff (a b : BitVec W) : (addFlags a b).OF = true ↔
    a.toInt + b.toInt < -(2 ^ (W - 1)) ∨ 2 ^ (W - 1) ≤ a.toInt + b.toInt := by
  have hov : (addFlags a b).OF = BitVec.saddOverflow a b := (BitVec.saddOverflow_eq a b).symm
  rw [hov]
  simp only [BitVec.saddOverflow, Bool.or_eq_true, decide_eq_true_eq, ge_iff_le]
  exact or_comm

theorem subFlags_CF_iff (a b : BitVec W) : (subFlags a b).CF = true ↔ a.toNat < b.toNat :=
  BitVec.ult_iff_toNat_lt

theorem subFlags_OF_iff (a b : BitVec W) : (subFlags a b).OF = true ↔
    a.toInt - b.toInt < -(2 ^ (W - 1)) ∨ 2 ^ (W - 1) ≤ a.toInt - b.toInt := by
  have hov : (subFlags a b).OF = BitVec.ssubOverflow a b := subOverflow_eq_ssubOverflow a b
  rw [hov, ssubOverflow_iff]

/-! ### The product -/

theorem product_unsigned (a b : BitVec W) : product true a b = ((a.toNat * b.toNat : Nat) : Int) :=
  (Nat.cast_mul ..).symm

theorem product_signed (a b : BitVec W) : product false a b = a.toInt * b.toInt :=
  rfl

/-- The low word of the product, the same for both U (R155, R161). -/
theorem ofInt_product (u : Bool) (a b : BitVec W) : BitVec.ofInt W (product u a b) = a * b := by
  cases u with
  | true =>
    apply BitVec.eq_of_toNat_eq
    rw [product_unsigned, BitVec.ofInt_natCast, BitVec.toNat_ofNat, BitVec.toNat_mul]
  | false => rw [product_signed, BitVec.ofInt_mul, BitVec.ofInt_toInt, BitVec.ofInt_toInt]

theorem mulFlags_unsigned_iff (a b : BitVec W) : (mulFlags true a b).OF = true ↔ 2 ^ W ≤ a.toNat * b.toNat := by
  simp only [mulFlags, product_unsigned, if_true, decide_eq_true_eq, ge_iff_le]
  norm_cast

theorem mulFlags_signed_iff (a b : BitVec W) : (mulFlags false a b).OF = true ↔
    a.toInt * b.toInt < -(2 ^ (W - 1)) ∨ 2 ^ (W - 1) - 1 < a.toInt * b.toInt :=
  decide_eq_true_iff

/-- The high word of the unsigned product is its quotient by 2^W, which fits (R156). -/
theorem toNat_highWord_unsigned (a b : BitVec W) : (highWord true a b).toNat = a.toNat * b.toNat / 2 ^ W := by
  have hlt : a.toNat * b.toNat / 2 ^ W < 2 ^ W :=
    Nat.div_lt_of_lt_mul (Nat.mul_lt_mul'' a.isLt b.isLt)
  have hw : highWord true a b = BitVec.ofNat W (a.toNat * b.toNat / 2 ^ W) := by
    rw [highWord, product_unsigned, ← BitVec.ofInt_natCast]
    norm_cast
  rw [hw, BitVec.toNat_ofNat, Nat.mod_eq_of_lt hlt]

theorem abs_toInt_mul_toInt_le (a b : BitVec W) : |a.toInt * b.toInt| ≤ 2 ^ (W - 1) * 2 ^ (W - 1) := by
  have habs (c : BitVec W) : |c.toInt| ≤ 2 ^ (W - 1) := abs_le.2 ⟨c.le_toInt, BitVec.toInt_lt.le⟩
  rw [abs_mul]
  exact mul_le_mul (habs a) (habs b) (abs_nonneg _) (by positivity)

/-- The high word of the signed product is its quotient by 2^W, rounded down: no product of two signed values is as large
as 2^(W-1) times 2^W (R156). -/
theorem toInt_highWord_signed (hW : 0 < W) (a b : BitVec W) :
    (highWord false a b).toInt = a.toInt * b.toInt / 2 ^ W := by
  obtain ⟨hlo, hhi⟩ := abs_le.1 (abs_toInt_mul_toInt_le a b)
  have hlt : (2 : Int) ^ (W - 1) < 2 ^ W := pow_lt_pow_right₀ (by norm_num) (by omega)
  have hprod : (2 : Int) ^ (W - 1) * 2 ^ (W - 1) < 2 ^ (W - 1) * 2 ^ W := mul_lt_mul_of_pos_left hlt (by positivity)
  apply BitVec.toInt_ofInt_eq_self hW
  · exact Int.le_ediv_of_mul_le (by positivity) (by rw [product_signed]; linarith)
  · exact Int.ediv_lt_of_lt_mul (by positivity) (by rw [product_signed]; linarith)

/-! ### Quotient and remainder -/

theorem quotient_unsigned (a b : BitVec W) : quotient true a b = a / b := by
  apply BitVec.eq_of_toNat_eq
  rw [BitVec.toNat_udiv]
  exact Nat.mod_eq_of_lt (lt_of_le_of_lt (Nat.div_le_self _ _) a.isLt)

theorem quotient_signed (a b : BitVec W) : quotient false a b = a.sdiv b := by
  apply BitVec.eq_of_toInt_eq
  rw [BitVec.toInt_sdiv]
  exact BitVec.toInt_ofInt _

theorem remainder_unsigned (a b : BitVec W) : remainder true a b = a % b := by
  have hmod : a.toNat - b.toNat * (a.toNat / b.toNat) = (a % b).toNat := by
    rw [BitVec.toNat_umod, Nat.mod_def]
  simp only [remainder, if_true, hmod, BitVec.ofNat_toNat, BitVec.setWidth_eq]

theorem remainder_signed (a b : BitVec W) : remainder false a b = a.srem b := by
  have hmod : a.toInt - b.toInt * a.toInt.tdiv b.toInt = (a.srem b).toInt := by
    rw [BitVec.toInt_srem, Int.tmod_def]
  simp only [remainder, Bool.false_eq_true, if_false, hmod, BitVec.ofInt_toInt]

/-- The one signed quotient that does not fit wraps to the dividend; every other is exact (R158). -/
theorem toInt_quotient_signed (hW : 0 < W) (a b : BitVec W) : (quotient false a b).toInt =
    if a.toInt = -(2 ^ (W - 1)) ∧ b.toInt = -1 then a.toInt else a.toInt.tdiv b.toInt := by
  have hmin : a.toInt = -(2 ^ (W - 1)) ↔ a = BitVec.intMin W := by
    rw [← BitVec.toInt_inj, BitVec.toInt_intMin_of_pos hW]
  have hone : b.toInt = -1 ↔ b = -1#W := by
    rw [← BitVec.toInt_inj, BitVec.neg_one_eq_allOnes, BitVec.toInt_allOnes, if_pos hW]
  rw [quotient_signed]
  split
  next h =>
    obtain ⟨ha, hb⟩ := h
    rw [hmin.1 ha, hone.1 hb, BitVec.intMin_sdiv_neg_one]
  next h =>
    rw [hmin, hone, not_and_or] at h
    exact BitVec.toInt_sdiv_of_ne_or_ne a b h

/-- R159: the quotient and the remainder of the same operands recombine, modulo 2^W. -/
theorem mul_quotient_add_remainder (u : Bool) (a b : BitVec W) : b * quotient u a b + remainder u a b = a := by
  cases u with
  | true =>
    calc b * quotient true a b + remainder true a b
        = BitVec.ofNat W (b.toNat * (a.toNat / b.toNat) + (a.toNat - b.toNat * (a.toNat / b.toNat))) := by
          rw [BitVec.ofNat_add, BitVec.ofNat_mul, BitVec.ofNat_toNat, BitVec.setWidth_eq]
          rfl
      _ = a := by rw [Nat.add_sub_cancel' (Nat.mul_div_le _ _), BitVec.ofNat_toNat, BitVec.setWidth_eq]
  | false =>
    calc b * quotient false a b + remainder false a b
        = BitVec.ofInt W (b.toInt * a.toInt.tdiv b.toInt + (a.toInt - b.toInt * a.toInt.tdiv b.toInt)) := by
          rw [BitVec.ofInt_add, BitVec.ofInt_mul, BitVec.ofInt_toInt]
          rfl
      _ = a := by rw [add_sub_cancel, BitVec.ofInt_toInt]

theorem toNat_remainder_unsigned_lt (a : BitVec W) {b : BitVec W} (hb : b ≠ 0#W) :
    (remainder true a b).toNat < b.toNat := by
  rw [remainder_unsigned, BitVec.toNat_umod]
  exact Nat.mod_lt _ (BitVec.toNat_pos_of_ne_zero hb)

theorem natAbs_remainder_signed_lt (a : BitVec W) {b : BitVec W} (hb : b ≠ 0#W) :
    (remainder false a b).toInt.natAbs < b.toInt.natAbs := by
  have hpos : 0 < b.toInt.natAbs := Int.natAbs_pos.2 fun h => hb (BitVec.toInt_inj.1 (h.trans BitVec.toInt_zero.symm))
  rw [remainder_signed, BitVec.toInt_srem, Int.natAbs_tmod]
  exact Nat.mod_lt _ hpos

/-! ### The instructions -/

theorem xlen_bits_pos (x : Xlen) : 0 < x.bits := by
  cases x <;> decide

/-- Settles O30: both have the shape of R150, and their flags are the bounds on the exact result. -/
theorem incrementDecrementResults : Obligations.IncrementDecrementResults :=
  fun x m d r mu =>
    let a := m.reg r
    have hW := xlen_bits_pos x
    ⟨⟨_, _, _, _, rfl, arith_effect m d mu (a + 1#_) (incFlags a), toNat_add_one a, incFlags_CF_iff a,
        incFlags_OF_iff hW a⟩,
      ⟨_, _, _, _, rfl, arith_effect m d mu (a - 1#_) (decFlags a), toNat_sub_one hW a, decFlags_CF_iff a,
        decFlags_OF_iff hW a⟩⟩

/-- Settles O31: the same with two operands; U does not occur in the results or the flags. -/
theorem addSubtractResults : Obligations.AddSubtractResults :=
  fun _ m d r mu =>
    let a := m.reg d
    let b := m.reg r
    ⟨⟨_, _, _, _, rfl, arith_effect m d mu (a + b) (addFlags a b), BitVec.toNat_add a b, addFlags_CF_iff a b,
        addFlags_OF_iff a b⟩,
      ⟨_, _, _, _, rfl, arith_effect m d mu (a - b) (subFlags a b), toNat_sub_eq a b, subFlags_CF_iff a b,
        subFlags_OF_iff a b⟩⟩

/-- Settles O32: the low word is the word product for both U, and each U has its own condition of fit. -/
theorem multiplyResults : Obligations.MultiplyResults := by
  intro x m d r ⟨M, U⟩ a b
  refine ⟨_, _, (mulFlags U a b).OF, rfl, arith_effect m d _ _ (mulFlags U a b), ?_, ?_, ?_⟩
  · rw [ofInt_product, BitVec.toNat_mul]
  · rintro rfl
    exact mulFlags_unsigned_iff a b
  · rintro rfl
    exact mulFlags_signed_iff a b

/-- Settles O33: the high word is the quotient by 2^W rounded down, and the rest of that division is the low word. -/
theorem highWordResults : Obligations.HighWordResults := by
  intro x m d r ⟨M, U⟩ a b
  refine ⟨_, highWord U a b, rfl, arithFree_effect m d _ _, ?_, ?_⟩
  · rintro rfl
    rw [toNat_highWord_unsigned, Nat.div_add_mod]
  · rintro rfl
    rw [toInt_highWord_signed (xlen_bits_pos x), Int.mul_ediv_add_emod]

/-! A divisor that is not 0 leaves DIV and REM the shape of R150. -/

theorem exec_div_nonzero {x : Xlen} {m : Mach x.bits} {r : RegNum} (h : m.reg r ≠ 0#_) (d : RegNum) (mu : ArithBits) :
    exec (.div d r mu) ⟨x, m⟩ = .next ⟨x, arithFree m d mu (quotient mu.U (m.reg d) (m.reg r))⟩ :=
  congrArg (State.goto ⟨x, m⟩) (divide_nonzero m d r mu quotient h)

theorem exec_rem_nonzero {x : Xlen} {m : Mach x.bits} {r : RegNum} (h : m.reg r ≠ 0#_) (d : RegNum) (mu : ArithBits) :
    exec (.rem d r mu) ⟨x, m⟩ = .next ⟨x, arithFree m d mu (remainder mu.U (m.reg d) (m.reg r))⟩ :=
  congrArg (State.goto ⟨x, m⟩) (divide_nonzero m d r mu remainder h)

/-- Settles O34: the word functions are the library's divisions, signed and unsigned, and the wrap is of DIV alone. -/
theorem divisionResults : Obligations.DivisionResults := by
  intro x m d r ⟨M, U⟩ a b hb
  refine ⟨⟨_, quotient U a b, exec_div_nonzero hb d _, arithFree_effect m d _ _, ?_, ?_⟩,
    ⟨_, remainder U a b, exec_rem_nonzero hb d _, arithFree_effect m d _ _, ?_, ?_⟩⟩
  · rintro rfl
    rw [quotient_unsigned, BitVec.toNat_udiv]
  · rintro rfl
    exact toInt_quotient_signed (xlen_bits_pos x) a b
  · rintro rfl
    rw [remainder_unsigned, BitVec.toNat_umod]
  · rintro rfl
    rw [remainder_signed, BitVec.toInt_srem]

theorem reg_arithFree {d : RegNum} (hd : d ≠ 0#4) (m : Mach W) (mu : ArithBits) (v : BitVec W) :
    (arithFree m d mu v).reg d = v := by
  rw [(arithFree_effect m d mu v).regs, if_pos ⟨rfl, hd⟩]

/-- Settles O35: both instructions write `dst` from the same operands, and the words written recombine. -/
theorem quotientAndRemainderRecombine : Obligations.QuotientAndRemainderRecombine := by
  intro x m m1 m2 d r ⟨M, U⟩ hd hb hdiv hrem
  rw [exec_div_nonzero hb] at hdiv
  rw [exec_rem_nonzero hb] at hrem
  cases hdiv
  cases hrem
  rw [reg_arithFree hd, reg_arithFree hd]
  refine ⟨(mul_quotient_add_remainder U _ _).symm, ?_, ?_⟩
  · rintro rfl
    exact toNat_remainder_unsigned_lt _ hb
  · rintro rfl
    exact natAbs_remainder_signed_lt _ hb

end Sys2Proof.Machine
end

section
/-! PROOF. The statements of 44_bit_operations: where the scans find the first one bit, what the counts count, and which
bit BEX and BDP move to which place. -/

namespace Sys2Proof.Machine

variable {W : Nat}

/-! ### The scans -/

/-- Of the places 0, 1, … up to `n - 1`, `c` is the first that satisfies `p`, and `n` when none does (00_scope R8). -/
def FirstOne (p : Nat → Bool) (n c : Nat) : Prop :=
  c ≤ n ∧ (∀ k < c, p k = false) ∧ (c < n → p c = true)

theorem FirstOne.le {p : Nat → Bool} {n c : Nat} (h : FirstOne p n c) : c ≤ n :=
  h.1

theorem firstOne_none (p : Nat → Bool) : FirstOne p 0 0 :=
  ⟨le_rfl, fun _ hk => absurd hk (Nat.not_lt_zero _), fun h => absurd h (lt_irrefl 0)⟩

theorem firstOne_here {p : Nat → Bool} (h : p 0 = true) (n : Nat) : FirstOne p n 0 :=
  ⟨n.zero_le, fun _ hk => absurd hk (Nat.not_lt_zero _), fun _ => h⟩

theorem FirstOne.succ {p : Nat → Bool} {n c : Nat} (h0 : p 0 = false) (h : FirstOne (fun k => p (k + 1)) n c) :
    FirstOne p (n + 1) (c + 1) := by
  obtain ⟨hle, hbelow, hat⟩ := h
  refine ⟨Nat.succ_le_succ hle, fun k hk => ?_, fun hc => hat (Nat.lt_of_succ_lt_succ hc)⟩
  cases k with
  | zero => exact h0
  | succ k => exact hbelow k (Nat.lt_of_succ_lt_succ hk)

theorem zerosUp_firstOne (v : BitVec W) (i n : Nat) : FirstOne (fun k => v.getLsbD (i + k)) n (zerosUp v i n) := by
  induction n generalizing i with
  | zero => exact firstOne_none _
  | succ n ih =>
    rw [zerosUp]
    split
    next h => exact firstOne_here (p := fun k => v.getLsbD (i + k)) h _
    next h =>
      refine FirstOne.succ (Bool.eq_false_of_not_eq_true h) ?_
      simpa only [Nat.add_assoc, Nat.add_comm 1] using ih (i + 1)

theorem zerosDown_firstOne (v : BitVec W) (n : Nat) : FirstOne (fun k => v.getLsbD (n - 1 - k)) n (zerosDown v n) := by
  induction n with
  | zero => exact firstOne_none _
  | succ n ih =>
    rw [zerosDown]
    split
    next h => exact firstOne_here (p := fun k => v.getLsbD (n - k)) h _
    next h =>
      refine FirstOne.succ (Bool.eq_false_of_not_eq_true h) ?_
      simpa only [Nat.add_sub_cancel, Nat.sub_sub, Nat.add_comm 1] using ih

theorem ctz_firstOne (v : BitVec W) : FirstOne v.getLsbD W (ctz v) := by
  have h := zerosUp_firstOne v 0 W
  simp only [Nat.zero_add] at h
  exact h

theorem clz_firstOne (v : BitVec W) : FirstOne (fun k => v.getLsbD (W - 1 - k)) W (clz v) :=
  zerosDown_firstOne v W

/-! ### Counting -/

theorem countBelow_succ (n : Nat) (p : Nat → Bool) : countBelow (n + 1) p = countBelow n p + (p n).toNat := by
  cases h : p n <;> simp [countBelow, List.range_succ, h]

theorem countBelow_mono (p : Nat → Bool) {i n : Nat} (h : i ≤ n) : countBelow i p ≤ countBelow n p :=
  (List.range_sublist.2 h).countP_le

/-- A place that counts has fewer below it than any later place. -/
theorem countBelow_lt {p : Nat → Bool} {i n : Nat} (hi : p i = true) (h : i < n) : countBelow i p < countBelow n p :=
  calc countBelow i p < countBelow (i + 1) p := by simp [countBelow_succ, hi]
    _ ≤ countBelow n p := countBelow_mono p h

theorem countBelow_le (n : Nat) (p : Nat → Bool) : countBelow n p ≤ n :=
  List.countP_le_length.trans_eq List.length_range

theorem countBelow_congr {n : Nat} {p q : Nat → Bool} (h : ∀ i < n, p i = q i) : countBelow n p = countBelow n q :=
  List.countP_congr fun i hi => by rw [h i (List.mem_range.1 hi)]

theorem onesBelow_eq (v : BitVec W) (n : Nat) : onesBelow v n = countBelow n v.getLsbD := by
  induction n with
  | zero => rfl
  | succ n ih => rw [onesBelow, ih, countBelow_succ]

theorem popcount_eq (v : BitVec W) : popcount v = countBelow W v.getLsbD :=
  onesBelow_eq v W

theorem popcount_extractLsb' (v : BitVec W) (n : Nat) : popcount (v.extractLsb' 0 n) = countBelow n v.getLsbD := by
  rw [popcount_eq]
  exact countBelow_congr fun i hi => by simp [hi]

/-! ### Extract and deposit -/

theorem getLsbD_putBit (r : BitVec W) {k : Nat} (hk : k < W) (b : Bool) (j : Nat) :
    (putBit r k b).getLsbD j = (r.getLsbD j || (decide (j = k) && b)) := by
  cases b with
  | false => simp [putBit]
  | true => simp [putBit, BitVec.getLsbD_twoPow, hk, eq_comm]

theorem bexLoop_succ (v m : BitVec W) (n : Nat) : bexLoop v m (n + 1) =
    if m.getLsbD n then (putBit (bexLoop v m n).1 (bexLoop v m n).2 (v.getLsbD n), (bexLoop v m n).2 + 1)
    else bexLoop v m n :=
  rfl

theorem bdpLoop_succ (v m : BitVec W) (n : Nat) : bdpLoop v m (n + 1) =
    if m.getLsbD n then (putBit (bdpLoop v m n).1 n (v.getLsbD (bdpLoop v m n).2), (bdpLoop v m n).2 + 1)
    else bdpLoop v m n :=
  rfl

/-- The place that BEX packs to next is the number of mask bits seen (R176). -/
theorem bexLoop_snd (v m : BitVec W) (n : Nat) : (bexLoop v m n).2 = countBelow n m.getLsbD := by
  induction n with
  | zero => rfl
  | succ n ih => rw [bexLoop_succ, countBelow_succ]; cases m.getLsbD n <;> simp [ih]

/-- The place that BDP takes from next is the number of mask bits seen (R177). -/
theorem bdpLoop_snd (v m : BitVec W) (n : Nat) : (bdpLoop v m n).2 = countBelow n m.getLsbD := by
  induction n with
  | zero => rfl
  | succ n ih => rw [bdpLoop_succ, countBelow_succ]; cases m.getLsbD n <;> simp [ih]

/-- One round of BEX on the packed bits. -/
theorem getLsbD_bexLoop_succ (v m : BitVec W) {n : Nat} (hn : n < W) (j : Nat) :
    (bexLoop v m (n + 1)).1.getLsbD j = ((bexLoop v m n).1.getLsbD j ||
      (decide (j = countBelow n m.getLsbD) && (m.getLsbD n && v.getLsbD n))) := by
  have hk : countBelow n m.getLsbD < W := (countBelow_le n _).trans_lt hn
  rw [bexLoop_succ, bexLoop_snd]
  cases m.getLsbD n with
  | false => simp
  | true => simp [getLsbD_putBit _ hk]

/-- One round of BDP on the spread bits. -/
theorem getLsbD_bdpLoop_succ (v m : BitVec W) {n : Nat} (hn : n < W) (i : Nat) :
    (bdpLoop v m (n + 1)).1.getLsbD i = ((bdpLoop v m n).1.getLsbD i ||
      (decide (i = n) && (m.getLsbD n && v.getLsbD (countBelow n m.getLsbD)))) := by
  rw [bdpLoop_succ, bdpLoop_snd]
  cases m.getLsbD n with
  | false => simp
  | true => simp [getLsbD_putBit _ hn]

theorem getLsbD_bexLoop_above (v m : BitVec W) {n j : Nat} (hn : n ≤ W) (hj : countBelow n m.getLsbD ≤ j) :
    (bexLoop v m n).1.getLsbD j = false := by
  induction n with
  | zero => exact BitVec.getLsbD_zero
  | succ n ih =>
    have hle := countBelow_mono m.getLsbD (Nat.le_add_right n 1)
    rw [getLsbD_bexLoop_succ v m hn, ih (by omega) (hle.trans hj), Bool.false_or]
    cases hm : m.getLsbD n with
    | false => simp
    | true =>
      have hlt := countBelow_lt hm (Nat.lt_add_one n)
      rw [decide_eq_false (by omega), Bool.false_and]

theorem getLsbD_bexLoop_packed (v m : BitVec W) {n i : Nat} (hn : n ≤ W) (hi : i < n) (hm : m.getLsbD i = true) :
    (bexLoop v m n).1.getLsbD (countBelow i m.getLsbD) = v.getLsbD i := by
  induction n with
  | zero => exact absurd hi (Nat.not_lt_zero i)
  | succ n ih =>
    rw [getLsbD_bexLoop_succ v m hn]
    rcases Nat.lt_succ_iff_lt_or_eq.1 hi with hlt | rfl
    · have hne : countBelow i m.getLsbD ≠ countBelow n m.getLsbD := (countBelow_lt hm hlt).ne
      rw [ih (by omega) hlt, decide_eq_false hne, Bool.false_and, Bool.or_false]
    · rw [getLsbD_bexLoop_above v m (by omega) le_rfl]
      simp [hm]

theorem getLsbD_bitExtract_above (v m : BitVec W) {j : Nat} (hj : countBelow W m.getLsbD ≤ j) :
    (bitExtract v m).getLsbD j = false :=
  getLsbD_bexLoop_above v m le_rfl hj

theorem getLsbD_bitExtract_packed (v m : BitVec W) {i : Nat} (hm : m.getLsbD i = true) :
    (bitExtract v m).getLsbD (countBelow i m.getLsbD) = v.getLsbD i :=
  getLsbD_bexLoop_packed v m le_rfl (BitVec.lt_of_getLsbD hm) hm

theorem getLsbD_bdpLoop (v m : BitVec W) {n : Nat} (hn : n ≤ W) (i : Nat) : (bdpLoop v m n).1.getLsbD i =
    (decide (i < n) && (m.getLsbD i && v.getLsbD (countBelow i m.getLsbD))) := by
  induction n with
  | zero => simp [bdpLoop]
  | succ n ih =>
    have hsplit : decide (i < n + 1) = (decide (i < n) || decide (i = n)) := by
      rw [← Bool.decide_or, decide_eq_decide, Nat.lt_succ_iff_lt_or_eq]
    rw [getLsbD_bdpLoop_succ v m hn, ih (by omega), hsplit, Bool.and_or_distrib_right]
    by_cases h : i = n
    · subst h; rfl
    · rw [decide_eq_false h, Bool.false_and, Bool.false_and]

theorem getLsbD_bitDeposit (v m : BitVec W) (i : Nat) :
    (bitDeposit v m).getLsbD i = (m.getLsbD i && v.getLsbD (countBelow i m.getLsbD)) := by
  rw [bitDeposit, getLsbD_bdpLoop v m le_rfl]
  cases hm : m.getLsbD i with
  | false => simp
  | true => simp [BitVec.lt_of_getLsbD hm]

/-- R177: what BEX packed, BDP puts back where it was, and 0 elsewhere. -/
theorem bitDeposit_bitExtract (v m : BitVec W) : bitDeposit (bitExtract v m) m = v &&& m := by
  refine BitVec.eq_of_getLsbD_eq fun i _ => ?_
  rw [getLsbD_bitDeposit, BitVec.getLsbD_and]
  cases hm : m.getLsbD i with
  | false => simp
  | true => rw [getLsbD_bitExtract_packed v m hm, Bool.true_and, Bool.and_true]

/-! ### The instructions -/

/-- An instruction of the family completes and writes `dst` alone; what holds of its value holds of what it writes. -/
theorem bitOp_result {x : Xlen} {m : Mach x.bits} {i : Instr} {d : RegNum} {v : BitVec x.bits}
    {P : BitVec x.bits → Prop} (hi : exec i ⟨x, m⟩ = .next ⟨x, bitOp m d v⟩) (hP : P v) :
    ∃ m' u, exec i ⟨x, m⟩ = .next ⟨x, m'⟩ ∧ Effect m m' d u m.flags 4 ∧ P u :=
  ⟨_, _, hi, bitOp_effect m d v, hP⟩

/-- The same for a count, a number of at most W, which the register holds exactly. -/
theorem bitOp_count_result {x : Xlen} {m : Mach x.bits} {i : Instr} {d : RegNum} {n : Nat} {P : Nat → Prop}
    (hi : exec i ⟨x, m⟩ = .next ⟨x, bitOp m d (BitVec.ofNat _ n)⟩) (hn : n ≤ x.bits) (hP : P n) :
    ∃ m' u, exec i ⟨x, m⟩ = .next ⟨x, m'⟩ ∧ Effect m m' d u m.flags 4 ∧ P u.toNat := by
  refine bitOp_result (P := fun u => P u.toNat) hi ?_
  rwa [BitVec.toNat_ofNat, Nat.mod_eq_of_lt (hn.trans_lt Nat.lt_two_pow_self)]

/-- The same for the place that a scan finds. -/
theorem bitOp_scan_result {x : Xlen} {m : Mach x.bits} {i : Instr} {d : RegNum} {c : Nat} {p : Nat → Bool}
    (hi : exec i ⟨x, m⟩ = .next ⟨x, bitOp m d (BitVec.ofNat _ c)⟩) (h : FirstOne p x.bits c) :
    ∃ m' u, exec i ⟨x, m⟩ = .next ⟨x, m'⟩ ∧ Effect m m' d u m.flags 4 ∧ FirstOne p x.bits u.toNat :=
  bitOp_count_result hi h.le h

/-- Settles O38: each scan finds the first one bit of the places it goes through, upward or downward. -/
theorem bitScanResults : Obligations.BitScanResults :=
  fun _ _ _ _ => ⟨bitOp_scan_result rfl (ctz_firstOne _), bitOp_scan_result rfl (clz_firstOne _)⟩

/-- Settles O39: `popcount` counts the one bits, of the register or of its low byte. -/
theorem bitCountResults : Obligations.BitCountResults := by
  intro x m d r v
  have hham : popcount v = countBelow x.bits v.getLsbD := popcount_eq v
  have hpar : popcount (v.extractLsb' 0 8) = countBelow 8 v.getLsbD := popcount_extractLsb' v 8
  constructor
  · have hle : popcount v ≤ x.bits := hham.trans_le (countBelow_le _ _)
    exact bitOp_count_result (P := (· = _)) rfl hle hham
  · have hle : popcount (v.extractLsb' 0 8) % 2 ≤ x.bits :=
      (Nat.le_of_lt_succ (Nat.mod_lt _ two_pos)).trans (xlen_bits_pos x)
    exact bitOp_count_result (P := (· = _)) rfl hle (congrArg (· % 2) hpar)

/-- Settles O40: the places are those of `getLsbD_bitExtract_packed` and `getLsbD_bitDeposit`. -/
theorem extractAndDepositResults : Obligations.ExtractAndDepositResults := by
  intro x m d r v k
  refine ⟨bitOp_result rfl ⟨?_, ?_⟩, bitOp_result rfl ⟨?_, ?_⟩⟩
  · exact fun i _ hk => getLsbD_bitExtract_packed v k hk
  · exact fun j hj => getLsbD_bitExtract_above v k hj
  · intro i _ hk
    rw [getLsbD_bitDeposit, hk, Bool.true_and]
  · intro i hk
    rw [getLsbD_bitDeposit, hk, Bool.false_and]

theorem reg_bitOp {d : RegNum} (hd : d ≠ 0#4) (m : Mach W) (v : BitVec W) : (bitOp m d v).reg d = v := by
  rw [(bitOp_effect m d v).regs, if_pos ⟨rfl, hd⟩]

theorem reg_bitOp_of_ne {d r : RegNum} (hr : r ≠ d) (m : Mach W) (v : BitVec W) : (bitOp m d v).reg r = m.reg r := by
  rw [(bitOp_effect m d v).regs, if_neg fun h => hr h.1]

/-- Settles O41: BEX keeps the mask register, so BDP runs on the packed word and the same mask. -/
theorem depositUndoesExtract : Obligations.DepositUndoesExtract := by
  intro x m m1 m2 d r hd hr hbex hbdp
  cases hbex
  cases hbdp
  rw [reg_bitOp hd, reg_bitOp hd, reg_bitOp_of_ne hr, bitDeposit_bitExtract]

end Sys2Proof.Machine
end

section
/-! PROOF. The statement of 45_lea: the effective address of R94 as a sum of integers, reduced once modulo 2^W. -/

namespace Sys2Proof.Machine

variable {W : Nat}

/-! ### The parts of an address as integers -/

theorem toNat_ofInt_eq_emod (i : Int) : ((BitVec.ofInt W i).toNat : Int) = i % 2 ^ W := by
  have hnonneg : 0 ≤ i % ((2 ^ W : Nat) : Int) := Int.emod_nonneg i (by positivity)
  rw [BitVec.toNat_ofInt, Int.toNat_of_nonneg hnonneg]
  norm_cast

theorem scaleOf_eq_elim (s : Option (BitVec 4)) : scaleOf s = s.elim 0 BitVec.toNat := by
  cases s <;> rfl

theorem baseOf_eq_ofInt (m : Mach W) (b : Option RegNum) :
    m.baseOf b = BitVec.ofInt W (b.elim 0 (fun r => (m.reg r).toNat) : Nat) := by
  cases b with
  | none => rfl
  | some r => simp [Mach.baseOf, BitVec.ofInt_natCast]

/-- A left shift is the product with the power of two, modulo 2^W (R94). -/
theorem indexOf_eq_ofInt (m : Mach W) (o : Option RegNum) (k : Nat) :
    m.indexOf o k = BitVec.ofInt W (o.elim 0 (fun r => (m.reg r).toNat * 2 ^ k) : Nat) := by
  cases o with
  | none => rfl
  | some r =>
    apply BitVec.eq_of_toNat_eq
    rw [BitVec.ofInt_natCast, BitVec.toNat_ofNat, Mach.indexOf, BitVec.toNat_shiftLeft, Nat.shiftLeft_eq]
    rfl

/-- Sign extension keeps the signed value (30_encoding R91). -/
theorem dispOf_eq_ofInt (d : Option (BitVec 32)) : dispOf W d = BitVec.ofInt W (d.elim 0 BitVec.toInt) := by
  cases d <;> rfl

/-- R94: the parts are added as integers, and the sum is reduced modulo 2^W. -/
theorem toNat_effAddr (m : Mach W) (a : AddrOperand) (k : Nat) :
    ((m.effAddr a k).toNat : Int) =
      (((a.base.elim 0 (fun r => (m.reg r).toNat) : Nat) : Int) +
        ((a.ofs.elim 0 (fun r => (m.reg r).toNat * 2 ^ k) : Nat) : Int) + a.disp.elim 0 BitVec.toInt) % 2 ^ W := by
  rw [Mach.effAddr, baseOf_eq_ofInt, indexOf_eq_ofInt, dispOf_eq_ofInt, ← BitVec.ofInt_add, ← BitVec.ofInt_add,
    toNat_ofInt_eq_emod]

/-! ### The instruction -/

/-- Settles O42: LEA writes the effective address, which is the sum of its parts at the count that `s` gives. -/
theorem leaResults : Obligations.LeaResults := by
  intro x m d a s
  rw [← lenOf_eq, ← scaleOf_eq_elim]
  refine ⟨_, m.effAddr a (scaleOf s), rfl, writeReg_advance_effect m d _ _, ?_⟩
  exact toNat_effAddr m a (scaleOf s)

end Sys2Proof.Machine
end

section
/-! PROOF. The statements of 46_bit_manipulation: the address of op 6 as a sum of integers, and the one bit of the
memory-word that each of its instructions sets, clears or flips. -/

namespace Sys2Proof.Machine

variable {W : Nat}

/-! ### The address -/

/-- R95 is R94 with a base, no offset register and the same displacement. -/
theorem bitAddr_eq_effAddr (m : Mach W) (d : RegNum) (o : Option (BitVec 32)) :
    m.bitAddr d o = m.effAddr ⟨some d, none, o⟩ 0 := by
  simp [Mach.bitAddr, Mach.effAddr, Mach.baseOf, Mach.indexOf]

/-- Settles O44: the address is the effective address of a base alone, whose sum of parts is known. -/
theorem bitAddressIsBasePlusOffset : Obligations.BitAddressIsBasePlusOffset := by
  intro x m d o
  rw [bitAddr_eq_effAddr, toNat_effAddr]
  simp

/-! ### The bit -/

theorem bitOf_eq_twoPow (x : Xlen) (m : Mach x.bits) (p : Count) :
    m.bitOf p = BitVec.twoPow x.bits (countAmount m p) := by
  rw [Mach.bitOf, countOf_eq, BitVec.twoPow]

theorem getLsbD_bitOf (x : Xlen) (m : Mach x.bits) (p : Count) (k : Nat) :
    (m.bitOf p).getLsbD k = decide (k = countAmount m p) := by
  simp [bitOf_eq_twoPow, BitVec.getLsbD_twoPow, countAmount_lt, eq_comm]

/-- The test of BTS and BTC: the word has no one bit in common with `bit` exactly when its bit `p` is 0 (R202, R203). -/
theorem and_bitOf_eq_zero_iff (x : Xlen) (m : Mach x.bits) (p : Count) (v : BitVec x.bits) :
    v &&& m.bitOf p = 0#_ ↔ v.getLsbD (countAmount m p) = false := by
  constructor
  · intro h
    simpa [getLsbD_bitOf] using congrArg (·.getLsbD (countAmount m p)) h
  · intro h
    rw [bitOf_eq_twoPow, BitVec.and_twoPow, h]
    rfl

/-! The three word functions of the family: each keeps a place where `bit` is 0, and applies one function to the other. -/

theorem bitwise_set : Bitwise (W := W) (fun v b => v ||| b) (fun p q => if q then true else p) := by
  intro v b k _
  rw [BitVec.getLsbD_or]
  cases b.getLsbD k <;> simp

theorem bitwise_clear : Bitwise (W := W) (fun v b => v &&& ~~~b) (fun p q => if q then false else p) := by
  intro v b k hk
  rw [BitVec.getLsbD_and, BitVec.getLsbD_not]
  cases b.getLsbD k <;> simp [hk]

theorem bitwise_flip : Bitwise (W := W) (fun v b => v ^^^ b) (fun p q => if q then !p else p) := by
  intro v b k _
  rw [BitVec.getLsbD_xor]
  cases b.getLsbD k <;> simp

/-! ### The instructions -/

/-- What O43 says of one instruction: it completes, applies `f` to bit `p` of the word at the address and to no other bit,
and returns the old word. -/
def ChangesBit (x : Xlen) (m : Mach x.bits) (i : Instr) (d : RegNum) (p : Count) (o : Option (BitVec 32)) (ret : RegNum)
    (f : Bool → Bool) : Prop :=
  let ea := m.bitAddr d o
  let old := m.wordAt ea.toNat
  ∃ m' u, exec i ⟨x, m⟩ = .next ⟨x, m'⟩ ∧ StoreEffect m m' ea u ret old (if o = none then 4 else 8) ∧
    ∀ k < x.bits, u.getLsbD k = if k = countAmount m p then f (old.getLsbD k) else old.getLsbD k

/-- An instruction of R207 on an accessible word. Its new word is computed place by place and changes a bit by `f` where
`bit` has its one bit; where it does not write the word, `f` would not have changed bit `p`. -/
theorem memBits_result {x : Xlen} {m : Mach x.bits} {i : Instr} {d : RegNum} {p : Count} {o : Option (BitVec 32)}
    {ret : RegNum} {new : BitVec x.bits → BitVec x.bits → BitVec x.bits} {write : BitVec x.bits → BitVec x.bits → Bool}
    {f : Bool → Bool} (hacc : Accessible m (m.bitAddr d o)) (hnew : Bitwise new fun b c => if c then f b else b)
    (hkeep : ∀ v, write v (m.bitOf p) = false → f (v.getLsbD (countAmount m p)) = v.getLsbD (countAmount m p))
    (hi : exec i ⟨x, m⟩ = .next ⟨x, memBits m d p o ret fun v b => (new v b, write v b)⟩) :
    ChangesBit x m i d p o ret f := by
  unfold ChangesBit
  rw [← lenOf_eq]
  refine ⟨_, _, hi, memBits_effect x m d p o ret _ hacc, fun k hk => ?_⟩
  generalize m.wordAt (m.bitAddr d o).toNat = old
  change (if write old (m.bitOf p) then new old (m.bitOf p) else old).getLsbD k = _
  cases hw : write old (m.bitOf p) with
  | true =>
    rw [if_pos rfl, hnew old _ k hk, getLsbD_bitOf]
    simp
  | false =>
    rw [if_neg Bool.false_ne_true]
    split
    next hkp => rw [hkp, hkeep old hw]
    next => rfl

/-- The same for the four instructions that write the word whatever it is (R198 to R200, R204). -/
theorem memBits_always_result {x : Xlen} {m : Mach x.bits} {i : Instr} {d : RegNum} {p : Count}
    {o : Option (BitVec 32)} {ret : RegNum} {new : BitVec x.bits → BitVec x.bits → BitVec x.bits} {f : Bool → Bool}
    (hacc : Accessible m (m.bitAddr d o)) (hnew : Bitwise new fun b c => if c then f b else b)
    (hi : exec i ⟨x, m⟩ = .next ⟨x, memBits m d p o ret fun v b => (new v b, true)⟩) :
    ChangesBit x m i d p o ret f :=
  memBits_result hacc hnew (fun _ h => absurd h.symm Bool.false_ne_true) hi

/-- Settles O43: four instructions always write; BTS leaves a word whose bit is 1, BTC one whose bit is 0. -/
theorem bitManipulationResults : Obligations.BitManipulationResults := by
  intro x m d p o ret ea old result hacc
  refine ⟨memBits_always_result hacc bitwise_set rfl, memBits_always_result hacc bitwise_clear rfl,
    memBits_always_result hacc bitwise_flip rfl, memBits_result hacc bitwise_set ?bts rfl,
    memBits_result hacc bitwise_clear ?btc rfl, memBits_always_result hacc bitwise_flip rfl⟩
  case bts =>
    intro v hkept
    have hset : ¬ v.getLsbD (countAmount m p) = false :=
      (and_bitOf_eq_zero_iff x m p v).not.1 (of_decide_eq_false hkept)
    exact (Bool.eq_true_of_not_eq_false hset).symm
  case btc =>
    intro v hkept
    have hclear : v &&& m.bitOf p = 0#_ := not_ne_iff.1 (of_decide_eq_false hkept)
    exact ((and_bitOf_eq_zero_iff x m p v).1 hclear).symm

end Sys2Proof.Machine
end

section
/-! PROOF. The statements of 47_loads: the immediate loads as zero extensions, the memory loads on an accessible word, and
the forms of LDX on MSW. -/

namespace Sys2Proof.Machine

variable {W : Nat}

/-! ### Immediate loads -/

/-- An immediate load of an immediate that fits the register completes, and zero-extends it (30_encoding R90). -/
theorem loadImm_result {x : Xlen} {m : Mach x.bits} {i : Instr} {d : RegNum} {n len : Nat} {u : BitVec n}
    (hn : n ≤ x.bits) (hi : exec i ⟨x, m⟩ = .next ⟨x, loadImm m d (u.setWidth _) len⟩) :
    ∃ m' v, exec i ⟨x, m⟩ = .next ⟨x, m'⟩ ∧ Effect m m' d v m.flags len ∧ v.toNat = u.toNat :=
  ⟨_, _, hi, loadImm_effect m d _ len, BitVec.toNat_setWidth_of_le hn⟩

theorem thirtyTwo_le_bits (x : Xlen) : 32 ≤ x.bits := by
  rcases xlen_bits_cases x with h | h <;> omega

theorem ldlPad_iff (cfg : Params W) (pc : BitVec W) :
    ldlPad cfg pc = true ↔ cfg.ldlAlign = true ∧ (pc + 4#W).toNat % 8 ≠ 0 := by
  simp [ldlPad]

/-- The `pc` after an LDL is 8 bytes past its longword: the lengths of 30_encoding R88 are those of 47_loads R221. -/
theorem ldlAddr_add_eight (cfg : Params W) (pc : BitVec W) :
    ldlAddr cfg pc + 8#W = pc + BitVec.ofNat W (if ldlPad cfg pc then 16 else 12) := by
  unfold ldlAddr
  split <;> rw [BitVec.add_assoc, ← BitVec.ofNat_add]

/-- Settles O45: each immediate load is of the family's shape, and LDL's length is the way to the end of its longword. -/
theorem immediateLoadResults : Obligations.ImmediateLoadResults := by
  intro x m d
  have h32 : 32 ≤ x.bits := thirtyTwo_le_bits x
  refine ⟨fun h => loadImm_result (by omega) rfl, fun b => loadImm_result (by omega) rfl,
    fun i => loadImm_result h32 rfl, ?_⟩
  rintro l rfl
  obtain ⟨m', v, hexec, heffect, hvalue⟩ := loadImm_result (i := .ldl d l) (m := m) le_rfl rfl
  simp only [← ldlPad_iff]
  exact ⟨m', v, hexec, heffect, hvalue, heffect.pc.trans (ldlAddr_add_eight m.cfg m.pc).symm⟩

/-! ### Memory loads -/

/-- A memory load from an accessible word completes with that word (47_loads R225). -/
theorem loadMem_result {x : Xlen} {m : Mach x.bits} {i : Instr} {d : RegNum} {a : AddrOperand} {k : Nat}
    (hacc : Accessible m (m.effAddr a k)) (hi : exec i ⟨x, m⟩ = .next ⟨x, loadMem m d a k⟩) :
    ∃ m', exec i ⟨x, m⟩ = .next ⟨x, m'⟩ ∧
      Effect m m' d (m.wordAt (m.effAddr a k).toNat) m.flags (if a.disp = none then 4 else 8) := by
  rw [← lenOf_eq]
  rw [loadMem_accessible m d a k hacc] at hi
  exact ⟨_, hi, writeReg_advance_effect m d _ _⟩

/-- Settles O46: LNT and an LDR with cache bits load with no shift count, a scaled LDR with its own. -/
theorem memoryLoadResults : Obligations.MemoryLoadResults :=
  fun _ _ _ _ =>
    ⟨fun hacc => ⟨loadMem_result hacc rfl, fun _ _ => loadMem_result hacc rfl⟩, fun _ hacc => loadMem_result hacc rfl⟩

/-! ### LDX -/

/-- MSW as a number: the register is wide enough for its four flags (10_state R27). -/
theorem toNat_mswValue (x : Xlen) (f : Flags) :
    (mswValue x.bits f).toNat = f.ZF.toNat + 2 * f.LT.toNat + 4 * f.CF.toNat + 8 * f.OF.toNat := by
  have hfits : 1 + 1 + 1 + 1 ≤ x.bits := (by decide : 4 ≤ 32).trans (thirtyTwo_le_bits x)
  rw [mswValue, BitVec.toNat_setWidth_of_le hfits]
  obtain ⟨z, l, c, o⟩ := f
  revert z l c o
  decide

/-- Settles O48: each form answers by its law on MSW; the two that name a system register as destination only write the
flags, to MSW itself the flags that are there. -/
theorem ldxResults : Obligations.LdxResults := by
  intro x m msw
  refine ⟨fun d => ?toReg, ?toItself, fun a l1 l2 hacc => ?fromMemory⟩
  case toReg =>
    refine ⟨sysToReg m msw d, mswValue x.bits m.flags, rfl, ?_, toNat_mswValue x m.flags⟩
    rw [sysToReg_msw]
    exact writeReg_advance_effect m d _ 4
  case toItself =>
    refine ⟨sysToSys m msw msw, rfl, ?_⟩
    rw [sysToSys_msw]
    exact setFlags_advance_effect m m.flags 4
  case fromMemory =>
    refine ⟨memToSys m a msw, flagsOfMsw (m.wordAt (m.effAddr a 0).toNat), rfl, ?_, rfl, rfl, rfl, rfl⟩
    rw [memToSys_accessible m a hacc, ← lenOf_eq]
    exact setFlags_advance_effect m _ _

end Sys2Proof.Machine
end

section
/-! PROOF. The statement of 48_stores_and_legacy_listing: which instructions write memory. -/

namespace Sys2Proof.Machine

/-- Settles O18: an instruction outside op 6 completes without a store, and a fault keeps memory. -/
theorem onlyBitInstructionsWriteMemory : Obligations.OnlyBitInstructionsWriteMemory := by
  intro x m m' i hi h a
  rcases completesOrFaults_of_exec h with hc | ⟨f, rfl⟩
  · rcases hc.mem with hmem | ⟨hstores, -⟩
    · rw [hmem]
    · rw [hi] at hstores
      cases hstores
  · rfl

end Sys2Proof.Machine
end

section
/-! PROOF. The statements of 60_exceptions: what a step fetches and runs, the faults of the fetch, of DIV and REM and of
LDX, and that a fault changes nothing but the run status. -/

namespace Sys2Proof.Machine

variable {W : Nat}

/-! ### The bytes at `pc` as four words -/

/-- The four bytes that FetchWord reads at `pc + n` (20_memory R56). -/
def Mach.codeWord (m : Mach W) (n : Nat) : List Byte :=
  m.mem.readBytes (m.pc + BitVec.ofNat W n).toNat 4

/-- The bytes of an aligned word do not wrap, whatever its distance from `pc` (20_memory R55). -/
theorem toNat_add_ofNat_add (x : Xlen) (a : BitVec x.bits) {n k : Nat} (ha : a.toNat % 4 = 0) (hn : n % 4 = 0)
    (hk : k < 4) : (a + BitVec.ofNat x.bits n).toNat + k = (a.toNat + (n + k)) % 2 ^ x.bits := by
  rw [BitVec.toNat_add, BitVec.toNat_ofNat]
  cases x <;> simp only [Xlen.bits] at a ha ⊢ <;> omega

theorem Mach.codeWord_eq_map {x : Xlen} (m : Mach x.bits) {n : Nat} (ha : m.pc.toNat % 4 = 0) (hn : n % 4 = 0) :
    m.codeWord n = (List.range' n 4).map (fun k => m.mem.read ((m.pc.toNat + k) % 2 ^ x.bits)) := by
  apply List.ext_getElem (by simp [Mach.codeWord])
  intro k h1 h2
  have hk : k < 4 := by simpa using h2
  simp only [Mach.codeWord, Memory.readBytes_getElem, List.getElem_map, List.getElem_range', Nat.one_mul]
  rw [toNat_add_ofNat_add x m.pc ha hn hk]

theorem Mach.codeBytes_sixteen {x : Xlen} (m : Mach x.bits) (ha : m.pc.toNat % 4 = 0) :
    m.codeBytes 16 = m.codeWord 0 ++ (m.codeWord 4 ++ (m.codeWord 8 ++ m.codeWord 12)) := by
  rw [m.codeWord_eq_map ha rfl, m.codeWord_eq_map ha rfl, m.codeWord_eq_map ha rfl, m.codeWord_eq_map ha rfl]
  rfl

theorem Mach.takeWord_codeWord (m : Mach W) (n : Nat) (bs : List Byte) :
    takeWord m.cfg.endian (m.codeWord n ++ bs) =
      some (BitVec.ofNat 32 (natOfBytes (m.cfg.endian.order (m.codeWord n))), bs) := by
  obtain ⟨b0, b1, b2, b3, hb⟩ := list_of_length_four (m.codeWord n) (by simp [Mach.codeWord])
  rw [hb]
  rfl

/-- The word that the decoder takes from the bytes at `pc + n` is the one that FetchWord answers there, where they are in
MEM_VALID. -/
theorem Mach.fetchWord_of_takeWord {x : Xlen} {m : Mach x.bits} {n : Nat} {w : InstrWord} {bs rest : List Byte}
    (ha : m.pc.toNat % 4 = 0) (hn : n % 4 = 0)
    (hv : ∀ k < 4, m.cfg.valid ((m.pc.toNat + (n + k)) % 2 ^ x.bits) = true)
    (h : takeWord m.cfg.endian (m.codeWord n ++ bs) = some (w, rest)) :
    m.fetchWord (m.pc + BitVec.ofNat x.bits n) = .ok w ∧ rest = bs := by
  rw [Mach.takeWord_codeWord] at h
  cases h
  refine ⟨(m.fetchWord_ok_iff _ _).2 ⟨aligned_add x m.pc n ha hn, fun k hk => ?_, rfl⟩, rfl⟩
  rw [toNat_add_ofNat_add x m.pc ha hn hk]
  exact hv k hk

/-- The same of LDL's longword, its low word first (30_encoding R86). -/
theorem Mach.fetchWord_of_takeLong {x : Xlen} {m : Mach x.bits} {n : Nat} {v : Longword} {bs rest : List Byte}
    (ha : m.pc.toNat % 4 = 0) (hn : n % 4 = 0)
    (hv : ∀ k < 8, m.cfg.valid ((m.pc.toNat + (n + k)) % 2 ^ x.bits) = true)
    (h : takeLong m.cfg.endian (m.codeWord n ++ (m.codeWord (n + 4) ++ bs)) = some (v, rest)) :
    ∃ lo hi, m.fetchWord (m.pc + BitVec.ofNat x.bits n) = .ok lo ∧
      m.fetchWord (m.pc + BitVec.ofNat x.bits n + 4#_) = .ok hi ∧ v = hi ++ lo := by
  unfold takeLong at h
  split at h
  next => cases h
  next lo _ hlo =>
    obtain ⟨hflo, rfl⟩ := Mach.fetchWord_of_takeWord ha hn (fun k hk => hv k (by omega)) hlo
    split at h
    next => cases h
    next hi _ hhi =>
      cases h
      have hvhi : ∀ k < 4, m.cfg.valid ((m.pc.toNat + (n + 4 + k)) % 2 ^ x.bits) = true := fun k hk => by
        rw [Nat.add_assoc]
        exact hv (4 + k) (by omega)
      refine ⟨lo, hi, hflo, ?_, rfl⟩
      rw [BitVec.add_assoc, ← BitVec.ofNat_add]
      exact (Mach.fetchWord_of_takeWord ha (by omega) hvhi hhi).1

/-! ### The fetch of an instruction -/

theorem Mach.fetchExt_word_error {m : Mach W} {f : Fault} (h : m.fetchWord (m.pc + 4#W) = .error f) :
    m.fetchExt .word = .error f := by
  simp [Mach.fetchExt, h]

/-- Of LDL's two words the one at `q` is fetched first (60_exceptions R270). -/
theorem Mach.fetchExt_low_error {m : Mach W} {f : Fault} (h : m.fetchWord (ldlAddr m.cfg m.pc) = .error f) :
    m.fetchExt .long = .error f := by
  simp [Mach.fetchExt, h]

theorem Mach.fetchExt_high_error {m : Mach W} {lo : InstrWord} {f : Fault}
    (hlo : m.fetchWord (ldlAddr m.cfg m.pc) = .ok lo) (h : m.fetchWord (ldlAddr m.cfg m.pc + 4#W) = .error f) :
    m.fetchExt .long = .error f := by
  simp [Mach.fetchExt, hlo, h]

theorem Mach.fetchExt_long {m : Mach W} {lo hi : InstrWord} (hlo : m.fetchWord (ldlAddr m.cfg m.pc) = .ok lo)
    (hhi : m.fetchWord (ldlAddr m.cfg m.pc + 4#W) = .ok hi) : m.fetchExt .long = .ok (hi ++ lo) := by
  simp [Mach.fetchExt, hlo, hhi]

theorem Mach.fetchInstr_ok {x : Xlen} {m : Mach x.bits} {w : InstrWord} {i : Instr} {e : Longword}
    (hw : m.fetchWord m.pc = .ok w) (hi : decodeWord x m.cfg.strictReserved w = .ok i)
    (he : m.fetchExt i.extKind = .ok e) : m.fetchInstr x = .ok (i.withExt e) := by
  simp [Mach.fetchInstr, hw, hi, he]

/-- An instruction that is fetched had its word fetched at `pc`. -/
theorem Mach.fetchWord_of_fetchInstr {x : Xlen} {m : Mach x.bits} {i : Instr} (h : m.fetchInstr x = .ok i) :
    ∃ w, m.fetchWord m.pc = .ok w := by
  cases hw : m.fetchWord m.pc with
  | ok w => exact ⟨w, rfl⟩
  | error f =>
    rw [Mach.fetchInstr_error hw] at h
    cases h

theorem Mach.fetchInstr_ext_error {x : Xlen} {m : Mach x.bits} {w : InstrWord} {i : Instr} {f : Fault}
    (hw : m.fetchWord m.pc = .ok w) (hi : decodeWord x m.cfg.strictReserved w = .ok i)
    (he : m.fetchExt i.extKind = .error f) : m.fetchInstr x = .error f := by
  simp [Mach.fetchInstr, hw, hi, he]

/-- The extension data that the decoder takes from the bytes after the instruction word are those that are fetched, LDL's
from `q` on, past its pad word (30_encoding R85, R86). -/
theorem Mach.fetchExt_of_takeExt {x : Xlen} {m : Mach x.bits} {i : Instr} {v : Longword} {rest : List Byte}
    (ha : m.pc.toNat % 4 = 0)
    (hv : ∀ k < i.len (ldlPad m.cfg m.pc),
      (i.extKind = .long ∧ ldlPad m.cfg m.pc = true ∧ 4 ≤ k ∧ k < 8) ∨
        m.cfg.valid ((m.pc.toNat + k) % 2 ^ x.bits) = true)
    (h : takeExt m.cfg.endian (ldlPad m.cfg m.pc) i.extKind (m.codeWord 4 ++ (m.codeWord 8 ++ m.codeWord 12)) =
      some (v, rest)) : m.fetchExt i.extKind = .ok v := by
  unfold Instr.len at hv
  cases hk : i.extKind with
  | none =>
    rw [hk] at h
    cases h
    rfl
  | word =>
    simp only [hk, takeExt, Option.map_eq_some_iff] at h
    obtain ⟨⟨w, _⟩, hw, ⟨⟩⟩ := h
    simp only [hk, reduceCtorEq, false_and, false_or] at hv
    exact Mach.fetchExt_word (Mach.fetchWord_of_takeWord ha rfl (fun k hk => hv (4 + k) (by omega)) hw).1
  | long =>
    cases hp : ldlPad m.cfg m.pc with
    | false =>
      simp only [hk, hp, takeExt, Bool.false_eq_true, if_false] at h
      simp only [hk, hp, Bool.false_eq_true, if_false, false_and, and_false, false_or] at hv
      have hq : ldlAddr m.cfg m.pc = m.pc + 4#_ := by simp [ldlAddr, hp]
      obtain ⟨lo, hi, hlo, hhi, rfl⟩ :=
        Mach.fetchWord_of_takeLong ha rfl (fun k hk => hv (4 + k) (by omega)) h
      exact Mach.fetchExt_long (hq ▸ hlo) (hq ▸ hhi)
    | true =>
      simp only [hk, hp, takeExt, if_true] at h
      simp only [hk, hp, if_true, true_and] at hv
      have hq : ldlAddr m.cfg m.pc = m.pc + 8#_ := by simp [ldlAddr, hp]
      have hpad : takeWord m.cfg.endian (m.codeWord 4 ++ (m.codeWord 8 ++ m.codeWord 12)) =
          some (_, m.codeWord 8 ++ m.codeWord 12) := m.takeWord_codeWord 4 _
      rw [hpad, ← List.append_nil (m.codeWord 12)] at h
      obtain ⟨lo, hi, hlo, hhi, rfl⟩ :=
        Mach.fetchWord_of_takeLong ha rfl (fun k hk => (hv (8 + k) (by omega)).resolve_left (by omega)) h
      exact Mach.fetchExt_long (hq ▸ hlo) (hq ▸ hhi)

/-! ### The step by its fetch -/

theorem len_withExt (i : Instr) (e : Longword) (pad : Bool) : (i.withExt e).len pad = i.len pad := by
  rw [Instr.len, extKind_withExt, Instr.len]

/-- Settles O7: the words that the decoder takes from the bytes at `pc` are those that the step fetches. -/
theorem stepRunsTheDecodedInstruction : Obligations.StepRunsTheDecodedInstruction := by
  intro x m i rest hr he ha h hv
  rw [m.codeBytes_sixteen ha] at h
  obtain ⟨w, bs, j, v, hw, hj, hext, rfl⟩ := decodeBytes_ok h
  rw [len_withExt, extKind_withExt] at hv
  have hvw : ∀ k < 4, m.cfg.valid ((m.pc.toNat + (0 + k)) % 2 ^ x.bits) = true := fun k hk => by
    have := len_cases j (ldlPad m.cfg m.pc)
    rw [Nat.zero_add]
    exact (hv k (by omega)).resolve_left (by omega)
  obtain ⟨hfetch, rfl⟩ := Mach.fetchWord_of_takeWord ha rfl hvw hw
  rw [BitVec.add_zero] at hfetch
  exact step_of_fetch_ok hr he (Mach.fetchInstr_ok hfetch hj (Mach.fetchExt_of_takeExt ha hv hext))

/-- Settles O10: the fetch that fails is the first one, so its fault is the fault of the step. -/
theorem unmappedFetchRaisesAccessFault : Obligations.UnmappedFetchRaisesAccessFault := by
  intro x m hr he ha
  have raises {f : Fault} (hf : m.fetchInstr x = .error f) : ∃ m', step ⟨x, m⟩ = .next ⟨x, m'⟩ ∧ Faults m m' f :=
    ⟨_, step_of_fetch_error hr he hf, m.raise_faults f⟩
  have hq : (ldlAddr m.cfg m.pc).toNat % 4 = 0 := by
    unfold ldlAddr
    split <;> exact aligned_add x m.pc _ ha rfl
  refine ⟨fun hv => raises (Mach.fetchInstr_error (m.fetchWord_unmapped m.pc ha hv)), fun w i hw hi => ?_⟩
  have raisesExt {f : Fault} (hf : m.fetchExt i.extKind = .error f) := raises (Mach.fetchInstr_ext_error hw hi hf)
  refine ⟨fun hk hv => raisesExt ?imm32, fun hk => ⟨fun hv => raisesExt ?low, fun hlo hv => raisesExt ?high⟩⟩
  case imm32 =>
    rw [hk]
    exact Mach.fetchExt_word_error (m.fetchWord_unmapped _ (aligned_add x m.pc 4 ha rfl) hv)
  case low =>
    rw [hk]
    exact Mach.fetchExt_low_error (m.fetchWord_unmapped _ hq hv)
  case high =>
    obtain ⟨lo, hlo⟩ := m.fetchWord_mapped _ hq hlo
    rw [hk]
    exact Mach.fetchExt_high_error hlo (m.fetchWord_unmapped _ (aligned_add x _ 4 hq rfl) hv)

/-- Settles O11: the two ways of a step that fetch nothing. -/
theorem runStatusDecidesTheStep : Obligations.RunStatusDecidesTheStep :=
  fun _ _ => ⟨step_of_stopped, step_of_atEnd⟩

/-! ### An instruction placed at `pc` -/

/-- Two words fewer than 16 bytes on from `a` that do not overlap before the wrap modulo 2^W do not overlap after it. -/
theorem words_apart (x : Xlen) (a : BitVec x.bits) {n k : Nat} (hn : n < 16) (hk : k < 16)
    (h : n + 4 ≤ k ∨ k + 4 ≤ n) :
    (a + BitVec.ofNat x.bits n).toNat + 4 ≤ (a + BitVec.ofNat x.bits k).toNat ∨
      (a + BitVec.ofNat x.bits k).toNat + 4 ≤ (a + BitVec.ofNat x.bits n).toNat := by
  have ha := a.isLt
  simp only [BitVec.toNat_add, BitVec.toNat_ofNat]
  cases x <;> simp only [Xlen.bits] at a ha ⊢ <;> omega

/-- A word that the host places is read back at its own place. -/
theorem Mach.codeWord_storeCodeWord_same (m : Mach W) (w : InstrWord) {n k : Nat} (h : n = 4 * k) :
    (m.storeCodeWord k w).codeWord n = bytesOfWord m.cfg.endian w := by
  subst h
  have hw := Memory.readBytes_writeBytes m.mem (m.pc + BitVec.ofNat W (4 * k)).toNat (bytesOfWord m.cfg.endian w)
  rwa [bytesOfWord_length] at hw

theorem Mach.codeWord_storeCodeWord_apart {x : Xlen} (m : Mach x.bits) (w : InstrWord) {n k : Nat} (hn : n < 16)
    (hk : 4 * k < 16) (h : n + 4 ≤ 4 * k ∨ 4 * k + 4 ≤ n) : (m.storeCodeWord k w).codeWord n = m.codeWord n := by
  refine Memory.readBytes_writeBytes_apart _ _ _ _ _ ?_
  rw [bytesOfWord_length]
  exact words_apart x m.pc hn hk h

@[simp] theorem Mach.storeCodeWord_cfg (m : Mach W) (k : Nat) (w : InstrWord) : (m.storeCodeWord k w).cfg = m.cfg := rfl

/-- The four words that the host places at `pc` are the bytes there (70_reset R300). -/
theorem Mach.codeBytes_storeInstr {x : Xlen} (m : Mach x.bits) (v : Nat) (ha : m.pc.toNat % 4 = 0) :
    (m.storeInstr v).codeBytes 16 = layOut m.cfg.endian v := by
  have hpc : (m.storeInstr v).pc.toNat % 4 = 0 := ha
  rw [Mach.codeBytes_sixteen _ hpc, layOut]
  simp (disch := decide) only [Mach.storeInstr, Mach.codeWord_storeCodeWord_same, Mach.codeWord_storeCodeWord_apart,
    Mach.storeCodeWord_cfg, List.append_assoc]

theorem Params.default_valid (W a : Nat) (h : a < 2 ^ W) : (Params.default W).valid a = true := by
  simp [Params.default, Params.valid, Region.contains, h]

/-- Settles O8: the default parameters decode the placed bytes as the table does, and every byte of them is mapped. -/
theorem placedInstructionRunsFirstAfterReset : Obligations.PlacedInstructionRunsFirstAfterReset := by
  intro nbits w i h
  unfold decodeTableWord at h
  split at h
  next j rest hdecode =>
    cases h
    have hbytes := Mach.codeBytes_storeInstr (x := .x64) State.reset.mach (w % 2 ^ nbits) rfl
    refine stepRunsTheDecodedInstruction .x64 _ i rest rfl (Option.some_ne_none _).symm rfl ?_ fun k _ => .inr ?_
    · exact (congrArg (decodeBytes .x64 true .little true) hbytes).trans hdecode
    · exact Params.default_valid 64 _ (Nat.mod_lt _ (by decide))
  next => cases h

/-! ### What every step keeps, and a faulting step -/

theorem StepCase.cfg {x : Xlen} {m m' : Mach x.bits} (hs : StepCase m m') : m'.cfg = m.cfg := by
  cases hs with
  | stopped | ended | fetchFault => rfl
  | executed i _ _ _ _ hx =>
    rcases completesOrFaults_of_exec hx with hc | ⟨f, rfl⟩
    · exact hc.cfg
    · rfl

/-- Settles O12, from the four ways of a step. -/
theorem stepAlwaysAnswersANextState : Obligations.StepAlwaysAnswersANextState := by
  intro x m
  obtain ⟨m', hm, hs⟩ := step_cases x m
  exact ⟨m', hm, hs.cfg⟩

/-- A step of a running machine that leaves a fault has raised it: no other way of a step writes that run status. -/
theorem StepCase.faults {x : Xlen} {m m' : Mach x.bits} {f : Fault} {p : Nat} (hs : StepCase m m')
    (hr : m.status = .running) (h : m'.status = .faulted f p) : Faults m m' f := by
  have of_raised {g : Fault} (hf : Faults m m' g) : Faults m m' f := by
    rw [hf] at h
    cases h
    exact hf
  cases hs with
  | stopped hn => exact absurd hr hn
  | ended => cases h
  | fetchFault g => exact of_raised (m.raise_faults g)
  | executed i _ _ _ _ hx =>
    rcases completesOrFaults_of_exec hx with hc | ⟨g, hg⟩
    · rw [hc.status, hr] at h
      cases h
    · exact of_raised hg

/-- A stopped machine stays as it is along a run (10_state R37). -/
theorem run_of_stopped {x : Xlen} {m : Mach x.bits} (h : m.status ≠ .running) (k : Nat) :
    Host.Core.run Sys2Proof.core k (⟨x, m⟩ : State) = .next (⟨x, m⟩ : State) := by
  induction k with
  | zero => rfl
  | succ k ih => exact (run_succ (step_of_stopped h) k).trans ih

/-- Settles O13: the fault was raised, and the machine has stopped. -/
theorem faultsArePrecise : Obligations.FaultsArePrecise := by
  intro x m m' f p hr hstep hf
  obtain ⟨n, hn, hs⟩ := step_cases x m
  rw [hstep] at hn
  cases hn
  exact ⟨hs.faults hr hf, run_of_stopped (by simp [hf])⟩

/-! ### DivideByZero -/

theorem quotient_signed_wrap {x : Xlen} {a b : BitVec x.bits} (ha : a.toInt = -(2 ^ (x.bits - 1)))
    (hb : b.toInt = -1) : quotient false a b = a := by
  apply BitVec.eq_of_toInt_eq
  rw [toInt_quotient_signed (xlen_bits_pos x), if_pos ⟨ha, hb⟩]

theorem remainder_signed_neg_one (a : BitVec W) {b : BitVec W} (hb : b.toInt = -1) : remainder false a b = 0#W := by
  apply BitVec.eq_of_toInt_eq
  rw [remainder_signed, BitVec.toInt_srem, hb]
  simp

/-- Settles O36: the laws of `divide` for a zero divisor, which register 0 always is, and for any other. -/
theorem zeroDivisorRaises : Obligations.ZeroDivisorRaises := by
  intro x m d r ⟨M, U⟩
  constructor
  · intro h
    have hz : m.reg r = 0#_ := h.elim id (fun hr => hr ▸ m.reg_zero)
    exact ⟨⟨_, rfl, divide_zero m d r _ quotient hz⟩, ⟨_, rfl, divide_zero m d r _ remainder hz⟩⟩
  · rintro rfl hmin hone
    have hnz : m.reg r ≠ 0#_ := fun h => by simp [h] at hone
    have hdiv := exec_div_nonzero hnz d ⟨M, false⟩
    have hrem := exec_rem_nonzero hnz d ⟨M, false⟩
    rw [quotient_signed_wrap hmin hone] at hdiv
    rw [remainder_signed_neg_one _ hone] at hrem
    exact ⟨⟨_, hdiv, arithFree_effect m d _ _⟩, ⟨_, hrem, arithFree_effect m d _ _⟩⟩

/-! ### ReservedSystemRegister -/

/-- Settles O50: the laws of the three forms of LDX, source checked first, destination before the memory read. -/
theorem reservedSystemRegisterRaises : Obligations.ReservedSystemRegisterRaises := by
  intro x m s d
  refine ⟨fun hs => ⟨⟨_, rfl, ?_⟩, ⟨_, rfl, ?_⟩⟩, fun hd => ⟨⟨_, rfl, ?_⟩, fun a l1 l2 => ⟨_, rfl, ?_⟩⟩⟩
  · exact sysToReg_reserved m s d hs
  · exact sysToSys_src_reserved m s d hs
  · exact sysToSys_dst_reserved m d hd
  · exact memToSys_reserved m a d hd

end Sys2Proof.Machine
end

section
/-! PROOF. The statements of 70_reset_and_hazards: what reset and the host's boot leave, how `pc` moves along a run, and
that a run through a memory that ends below the top of the address space ends. -/

namespace Sys2Proof.Machine

/-! ### Reset -/

/-- Settles O17: the fields of the reset machine, and the bits of MSW. -/
theorem resetLeavesTheSpecifiedState : Obligations.ResetLeavesTheSpecifiedState := by
  intro x cfg image
  refine ⟨rfl, Mach.reg_zero _, rfl, rfl, fun k hk => ?_, rfl⟩
  rw [mswValue_getLsbD, if_neg (by omega), if_neg (by omega), if_neg (by omega), if_neg (by omega)]

/-- Images that lie below `top`, loaded one over the other, keep the canonical form and the range of addresses. -/
theorem loadImages_wf_range {top : Nat} {images : List (Nat × List Byte)} :
    ∀ {mem : Memory}, (∀ im ∈ images, im.1 + im.2.length ≤ top) → mem.wf = true → (∀ c ∈ mem, c.1 < top) →
      (images.foldl (fun m im => m.writeBytes im.1 im.2) mem).wf = true ∧
        ∀ c ∈ images.foldl (fun m im => m.writeBytes im.1 im.2) mem, c.1 < top := by
  induction images with
  | nil => exact fun _ hwf hrange => ⟨hwf, hrange⟩
  | cons im images ih =>
    intro mem hfit hwf hrange
    obtain ⟨him, hrest⟩ := List.forall_mem_cons.1 hfit
    exact ih hrest (Memory.wf_writeBytes im.2 mem im.1 hwf) (Memory.range_writeBytes top im.2 mem im.1 him hrange)

/-- Reset over a canonical memory inside the address space, with legal parameters, meets the invariant. -/
theorem Mach.reset_inv {W : Nat} {cfg : Params W} {image : Memory} (hcfg : cfg.wf = true) (hwf : image.wf = true)
    (hrange : ∀ c ∈ image, c.1 < 2 ^ W) : (Mach.reset cfg image).Inv where
  mem_wf := hwf
  mem_range := hrange
  reg_zero := by simp [Mach.reset]
  pc_aligned := of_decide_eq_true (Bool.and_eq_true_iff.1 hcfg).1
  cfg_wf := hcfg
  faulted_pc := by rintro f p ⟨⟩
  ended_pc := by rintro ⟨⟩

/-- Settles O16: the images are loaded into an empty memory. -/
theorem bootMeetsTheInvariant : Obligations.BootMeetsTheInvariant := by
  intro x cfg images hcfg hfit
  obtain ⟨hwf, hrange⟩ := loadImages_wf_range (mem := []) hfit rfl (by rintro c ⟨⟩)
  exact Mach.reset_inv hcfg hwf hrange

/-! ### How `pc` moves -/

/-- A step after which the machine still runs has fetched a word at `pc` and moved `pc` by the length of an instruction
(10_state R26). -/
theorem StepCase.pc_of_running {x : Xlen} {m m' : Mach x.bits} (hs : StepCase m m') (hr : m'.status = .running) :
    (∃ w, m.fetchWord m.pc = .ok w) ∧ ∃ n, 4 ≤ n ∧ n ≤ 16 ∧ m'.pc = m.pc + BitVec.ofNat x.bits n := by
  cases hs with
  | stopped hn => exact absurd hr hn
  | ended | fetchFault => cases hr
  | executed i _ _ _ hf hx =>
    refine ⟨Mach.fetchWord_of_fetchInstr hf, i.len (ldlPad m.cfg m.pc), ?_⟩
    rcases completesOrFaults_of_exec hx with hc | ⟨f, rfl⟩
    · have := len_cases i (ldlPad m.cfg m.pc)
      exact ⟨by omega, by omega, hc.pc⟩
    · cases hr

theorem toNat_add_ofNat_of_lt {W : Nat} {a : BitVec W} {n : Nat} (h : a.toNat + n < 2 ^ W) :
    (a + BitVec.ofNat W n).toNat = a.toNat + n := by
  rw [BitVec.toNat_add, BitVec.toNat_ofNat, Nat.add_mod_mod, Nat.mod_eq_of_lt h]

/-- As a number `pc` grows by 4 to 16, where it does not wrap (70_reset R306). -/
theorem StepCase.pc_grows {x : Xlen} {m m' : Mach x.bits} (hs : StepCase m m') (hr : m'.status = .running)
    (hfit : m.pc.toNat + 16 < 2 ^ x.bits) : m.pc.toNat + 4 ≤ m'.pc.toNat ∧ m'.pc.toNat ≤ m.pc.toNat + 16 := by
  obtain ⟨-, n, h4, h16, hpc⟩ := hs.pc_of_running hr
  rw [hpc, toNat_add_ofNat_of_lt (by omega)]
  omega

/-- A run ends running only when it began so: a stopped machine stays as it is. -/
theorem running_of_run {x : Xlen} {m m' : Mach x.bits} {k : Nat}
    (h : Host.Core.run Sys2Proof.core k (⟨x, m⟩ : State) = .next (⟨x, m'⟩ : State)) (hr : m'.status = .running) :
    m.status = .running := by
  by_contra hn
  rw [run_of_stopped hn k] at h
  cases h
  exact hn hr

/-- Settles O59, by induction on the number of steps. -/
theorem pcGrowsAlongARun : Obligations.PcGrowsAlongARun := by
  intro x k
  induction k with
  | zero =>
    intro m m' h _ _
    cases h
    omega
  | succ k ih =>
    intro m m' h hr hfit
    obtain ⟨m₁, hstep, hs⟩ := step_cases x m
    rw [run_succ hstep] at h
    obtain ⟨hlo, hhi⟩ := hs.pc_grows (running_of_run h hr) (by omega)
    obtain ⟨hlo', hhi'⟩ := ih m₁ m' h hr (by omega)
    omega

/-! ### Runs end -/

/-- A step after which the machine still runs has fetched its word from below `top`, where memory ends there. -/
theorem StepCase.pc_lt_top {x : Xlen} {m m' : Mach x.bits} {top : Nat} (hs : StepCase m m')
    (hr : m'.status = .running) (htop : ∀ a, m.cfg.valid a = true → a < top) : m.pc.toNat + 4 ≤ top := by
  obtain ⟨⟨w, hw⟩, -⟩ := hs.pc_of_running hr
  obtain ⟨-, hv, -⟩ := (m.fetchWord_ok_iff m.pc w).1 hw
  exact htop _ (hv 3 (by omega))

/-- A run has stopped after `k + 1` steps where fewer than `k + 1` words of memory lie ahead of `pc`. -/
theorem run_stops {x : Xlen} {top : Nat} (hfit : top + 16 ≤ 2 ^ x.bits) (k : Nat) :
    ∀ m : Mach x.bits, (∀ a, m.cfg.valid a = true → a < top) → top < m.pc.toNat + 4 * (k + 1) →
      ∃ m' : Mach x.bits, Host.Core.run Sys2Proof.core (k + 1) (⟨x, m⟩ : State) = .next (⟨x, m'⟩ : State) ∧
        m'.status ≠ .running := by
  induction k with
  | zero =>
    intro m htop hpc
    obtain ⟨m₁, hstep, hs⟩ := step_cases x m
    refine ⟨m₁, run_succ hstep 0, fun hr => ?_⟩
    have := hs.pc_lt_top hr htop
    omega
  | succ k ih =>
    intro m htop hpc
    obtain ⟨m₁, hstep, hs⟩ := step_cases x m
    rw [run_succ hstep]
    by_cases hr : m₁.status = .running
    · have hlt := hs.pc_lt_top hr htop
      obtain ⟨hlo, -⟩ := hs.pc_grows hr (by omega)
      exact ih m₁ (by rwa [hs.cfg]) (by omega)
    · exact ⟨m₁, run_of_stopped hr (k + 1), hr⟩

/-- Settles O58: from any `pc` at most `top / 4` words lie ahead. -/
theorem everyRunEnds : Obligations.EveryRunEnds :=
  fun _ m top htop hfit => run_stops hfit (top / 4) m htop (by omega)

end Sys2Proof.Machine
end
